-- ==== Sys2Proof/Word.lean ====
section
/-! DEFINITION. The word types of the block and the 3-vector of a sample (00_scope.md R5, R11). -/

namespace Sys2Proof

/-- A byte: 8 bits (R5). Register contents, offsets and operand fields are bytes. -/
abbrev Byte := BitVec 8

/-- A command word: 24 bits (30_encoding.md R100). -/
abbrev CmdWord := BitVec 24

/-- An i16: 16 bits read as two's complement (R5). -/
abbrev I16 := BitVec 16

/-- A triple in the order X, Y, Z (10_state.md R22: RawTriAxisSample, ScaledTriAxisSample). -/
structure Vec3 (α : Type) where
  x : α
  y : α
  z : α
deriving DecidableEq, Repr

/-- Apply a function to each component. -/
def Vec3.map {α β : Type} (f : α → β) (v : Vec3 α) : Vec3 β := ⟨f v.x, f v.y, f v.z⟩

end Sys2Proof
end

