-- ==== Sys2Proof/Syntax.lean ====
section
/-! DEFINITION. The 24 operations (30_encoding.md R114), one constructor per row of the opcode table.
An operand is carried in its full 8-bit field, so that out-of-range values can be expressed and rejected
by the operation's argument check (R101). -/

namespace Sys2Proof

/-- One command with its operands, in the order a, b of the command word. -/
inductive Instr where
  /-- R132 -/
  | selectBank (bank : Byte)
  /-- R133: `{a, b}` as one 16-bit operand -/
  | delay (ms : BitVec 16)
  /-- R140 -/
  | create (bus addr7 : Byte)
  /-- R141 -/
  | release
  /-- R142 -/
  | reset
  /-- R143 -/
  | wake
  /-- R144 -/
  | sleep
  /-- R145 -/
  | getDeviceId
  /-- R146 -/
  | setGyroFs (fs : Byte)
  /-- R147 -/
  | getGyroFs
  /-- R148 -/
  | setAccelFs (fs : Byte)
  /-- R149 -/
  | getAccelFs
  /-- R150 -/
  | setDlpf (sensor cutoff : Byte)
  /-- R151 -/
  | enableDlpf (en : Byte)
  /-- R152 -/
  | getRawAccel
  /-- R153 -/
  | getRawGyro
  /-- R154 -/
  | getAccel
  /-- R155 -/
  | getGyro
  /-- R170 -/
  | writeAux (target byte : Byte)
  /-- R171 -/
  | readAux (target length : Byte)
  /-- R172 -/
  | getRawMag
  /-- R173 -/
  | auxInit
  /-- R213 -/
  | elevation
  /-- R216 -/
  | azimuth
deriving DecidableEq, Repr

end Sys2Proof
end

