-- ==== Sys2Proof/WellFormed.lean ====
section
/-! DEFINITION. Well-formed commands: every operand lies in the operation's legal set (30_encoding.md R115,
42_aux_bridge.md R171). An ill-formed command is still encodable and decodable: the operation itself
rejects it (InvalidArgument) or, for a READAUX length, the model refuses it. -/

namespace Sys2Proof

/-- The operands of `i` are in its legal set. -/
def Instr.wf : Instr → Bool
  | .selectBank bank => decide (bank ≤ 3#8)
  | .delay _ => true
  | .create _ addr7 => decide (addr7 ≤ 0x7F#8)
  | .release => true
  | .reset => true
  | .wake => true
  | .sleep => true
  | .getDeviceId => true
  | .setGyroFs fs => decide (fs ≤ 3#8)
  | .getGyroFs => true
  | .setAccelFs fs => decide (fs ≤ 3#8)
  | .getAccelFs => true
  | .setDlpf sensor cutoff => decide (sensor ≤ 1#8) && decide (cutoff ≤ 7#8)
  | .enableDlpf en => decide (en ≤ 1#8)
  | .getRawAccel => true
  | .getRawGyro => true
  | .getAccel => true
  | .getGyro => true
  | .writeAux _ _ => true
  | .readAux _ length => decide (1#8 ≤ length) && decide (length ≤ 8#8)
  | .getRawMag => true
  | .auxInit => true
  | .elevation => true
  | .azimuth => true

end Sys2Proof
end

