-- ==== Sys2Proof/Decode.lean ====
section
/-! DEFINITION. Command words (30_encoding.md R100 to R102, R114, R115): the opcode table, the decoder, and
the encoder written from the same table. -/

namespace Sys2Proof

/-- Field `op`, bits 23:16 (R100). -/
def fieldOp (w : CmdWord) : Byte := w.extractLsb' 16 8
/-- Field `a`, bits 15:8 (R100). -/
def fieldA (w : CmdWord) : Byte := w.extractLsb' 8 8
/-- Field `b`, bits 7:0 (R100). -/
def fieldB (w : CmdWord) : Byte := w.extractLsb' 0 8

/-- The word `{op, a, b}` (R100). -/
def mkWord (op a b : Byte) : CmdWord := (op ++ a) ++ b

/-- Why a word is an undefined command (R102, R115). -/
inductive DecodeReject where
  /-- `op` is in no row of the table. -/
  | undefinedOpcode (op : Byte)
  /-- `op` is in a row, but a field the operation does not use is not 0 (R101). -/
  | nonzeroUnusedField (op : Byte)
deriving DecidableEq, Repr

/-- An operation that uses neither field. -/
def decodeNone (w : CmdWord) (i : Instr) : Except DecodeReject Instr :=
  if fieldA w = 0#8 ∧ fieldB w = 0#8 then .ok i else .error (.nonzeroUnusedField (fieldOp w))

/-- An operation that uses field `a` only. -/
def decodeA (w : CmdWord) (f : Byte → Instr) : Except DecodeReject Instr :=
  if fieldB w = 0#8 then .ok (f (fieldA w)) else .error (.nonzeroUnusedField (fieldOp w))

/-- An operation that uses both fields. -/
def decodeAB (w : CmdWord) (f : Byte → Byte → Instr) : Except DecodeReject Instr :=
  .ok (f (fieldA w) (fieldB w))

/-- The decoder, total on every word (R102). -/
def decode (w : CmdWord) : Except DecodeReject Instr :=
  match (fieldOp w).toNat with
  | 0x01 => decodeA w .selectBank
  | 0x02 => decodeAB w fun a b => .delay (a ++ b)
  | 0x10 => decodeAB w .create
  | 0x11 => decodeNone w .release
  | 0x12 => decodeNone w .reset
  | 0x13 => decodeNone w .wake
  | 0x14 => decodeNone w .sleep
  | 0x15 => decodeNone w .getDeviceId
  | 0x16 => decodeA w .setGyroFs
  | 0x17 => decodeNone w .getGyroFs
  | 0x18 => decodeA w .setAccelFs
  | 0x19 => decodeNone w .getAccelFs
  | 0x1A => decodeAB w .setDlpf
  | 0x1B => decodeA w .enableDlpf
  | 0x1C => decodeNone w .getRawAccel
  | 0x1D => decodeNone w .getRawGyro
  | 0x1E => decodeNone w .getAccel
  | 0x1F => decodeNone w .getGyro
  | 0x20 => decodeAB w .writeAux
  | 0x21 => decodeAB w .readAux
  | 0x22 => decodeNone w .getRawMag
  | 0x23 => decodeNone w .auxInit
  | 0x30 => decodeNone w .elevation
  | 0x31 => decodeNone w .azimuth
  | _ => .error (.undefinedOpcode (fieldOp w))

/-- The command word of an operation (R114). -/
def encode : Instr → CmdWord
  | .selectBank bank => mkWord 0x01#8 bank 0#8
  | .delay ms => mkWord 0x02#8 (ms.extractLsb' 8 8) (ms.extractLsb' 0 8)
  | .create bus addr7 => mkWord 0x10#8 bus addr7
  | .release => mkWord 0x11#8 0#8 0#8
  | .reset => mkWord 0x12#8 0#8 0#8
  | .wake => mkWord 0x13#8 0#8 0#8
  | .sleep => mkWord 0x14#8 0#8 0#8
  | .getDeviceId => mkWord 0x15#8 0#8 0#8
  | .setGyroFs fs => mkWord 0x16#8 fs 0#8
  | .getGyroFs => mkWord 0x17#8 0#8 0#8
  | .setAccelFs fs => mkWord 0x18#8 fs 0#8
  | .getAccelFs => mkWord 0x19#8 0#8 0#8
  | .setDlpf sensor cutoff => mkWord 0x1A#8 sensor cutoff
  | .enableDlpf en => mkWord 0x1B#8 en 0#8
  | .getRawAccel => mkWord 0x1C#8 0#8 0#8
  | .getRawGyro => mkWord 0x1D#8 0#8 0#8
  | .getAccel => mkWord 0x1E#8 0#8 0#8
  | .getGyro => mkWord 0x1F#8 0#8 0#8
  | .writeAux target byte => mkWord 0x20#8 target byte
  | .readAux target length => mkWord 0x21#8 target length
  | .getRawMag => mkWord 0x22#8 0#8 0#8
  | .auxInit => mkWord 0x23#8 0#8 0#8
  | .elevation => mkWord 0x30#8 0#8 0#8
  | .azimuth => mkWord 0x31#8 0#8 0#8

/-- The row's mnemonic of each operation (R114). -/
def Instr.mnemonic : Instr → String
  | .selectBank _ => "SELECTBANK"
  | .delay _ => "DELAY"
  | .create _ _ => "CREATE"
  | .release => "RELEASE"
  | .reset => "RESET"
  | .wake => "WAKE"
  | .sleep => "SLEEP"
  | .getDeviceId => "GETDEVICEID"
  | .setGyroFs _ => "SETGYROFS"
  | .getGyroFs => "GETGYROFS"
  | .setAccelFs _ => "SETACCELFS"
  | .getAccelFs => "GETACCELFS"
  | .setDlpf _ _ => "SETDLPF"
  | .enableDlpf _ => "ENABLEDLPF"
  | .getRawAccel => "GETRAWACCEL"
  | .getRawGyro => "GETRAWGYRO"
  | .getAccel => "GETACCEL"
  | .getGyro => "GETGYRO"
  | .writeAux _ _ => "WRITEAUX"
  | .readAux _ _ => "READAUX"
  | .getRawMag => "GETRAWMAG"
  | .auxInit => "AUXINIT"
  | .elevation => "ELEVATION"
  | .azimuth => "AZIMUTH"

/-- One row of the opcode map: a word selects it when `w &&& mask = pattern` (R114). -/
structure OpRow where
  mnemonic : String
  mask : CmdWord
  pattern : CmdWord
deriving DecidableEq, Repr

/-- Families 0 and 1 of the opcode map, first half (R114). -/
def opcodeRows1 : List OpRow := [
  ⟨"SELECTBANK", 0xFF00FF#24, 0x010000#24⟩,
  ⟨"DELAY", 0xFF0000#24, 0x020000#24⟩,
  ⟨"CREATE", 0xFF0000#24, 0x100000#24⟩,
  ⟨"RELEASE", 0xFFFFFF#24, 0x110000#24⟩,
  ⟨"RESET", 0xFFFFFF#24, 0x120000#24⟩,
  ⟨"WAKE", 0xFFFFFF#24, 0x130000#24⟩,
  ⟨"SLEEP", 0xFFFFFF#24, 0x140000#24⟩,
  ⟨"GETDEVICEID", 0xFFFFFF#24, 0x150000#24⟩,
  ⟨"SETGYROFS", 0xFF00FF#24, 0x160000#24⟩,
  ⟨"GETGYROFS", 0xFFFFFF#24, 0x170000#24⟩,
  ⟨"SETACCELFS", 0xFF00FF#24, 0x180000#24⟩,
  ⟨"GETACCELFS", 0xFFFFFF#24, 0x190000#24⟩]

/-- The rest of family 1, and families 2 and 3 (R114). -/
def opcodeRows2 : List OpRow := [
  ⟨"SETDLPF", 0xFF0000#24, 0x1A0000#24⟩,
  ⟨"ENABLEDLPF", 0xFF00FF#24, 0x1B0000#24⟩,
  ⟨"GETRAWACCEL", 0xFFFFFF#24, 0x1C0000#24⟩,
  ⟨"GETRAWGYRO", 0xFFFFFF#24, 0x1D0000#24⟩,
  ⟨"GETACCEL", 0xFFFFFF#24, 0x1E0000#24⟩,
  ⟨"GETGYRO", 0xFFFFFF#24, 0x1F0000#24⟩,
  ⟨"WRITEAUX", 0xFF0000#24, 0x200000#24⟩,
  ⟨"READAUX", 0xFF0000#24, 0x210000#24⟩,
  ⟨"GETRAWMAG", 0xFFFFFF#24, 0x220000#24⟩,
  ⟨"AUXINIT", 0xFFFFFF#24, 0x230000#24⟩,
  ⟨"ELEVATION", 0xFFFFFF#24, 0x300000#24⟩,
  ⟨"AZIMUTH", 0xFFFFFF#24, 0x310000#24⟩]

/-- The opcode map (R114, opcode_table.json). -/
def opcodeTable : List OpRow := opcodeRows1 ++ opcodeRows2

/-- The word `w` selects the row. -/
def OpRow.matches (r : OpRow) (w : CmdWord) : Bool := decide (w &&& r.mask = r.pattern)

/-- The command word that a table word of `nbits` bits stands for: the bits above `nbits` are 0. -/
def tableWord (nbits w : Nat) : CmdWord := BitVec.ofNat 24 (w % 2 ^ nbits)

/-- The instruction the decoder reads from a table word (bit 0 the least significant; the command word has
one word and no byte order, 20_memory.md R69). -/
def decodeTableWord (nbits w : Nat) : Option Instr :=
  match decode (tableWord nbits w) with
  | .ok i => some i
  | .error _ => none

end Sys2Proof
end

