-- ==== Sys2Proof/Config.lean ====
section
/-! DEFINITION. The parameters P1 to P24 of 00_scope.md R4, the numerics record NUM of 44_fusion.md R211,
and the free values of the model: constants without a body, about whose values nothing can be proved. -/

namespace Sys2Proof

/-- A value of `FLOAT` (P17). The spec fixes no floating-point format (R211), but requires that every `i16` has an
exact image in it: a value is such an image or an uninterpreted code. DESIGN CHOICE (log 8), safe. -/
inductive Flt where
  | int (v : I16)
  | other (code : Nat)
deriving DecidableEq, Repr, Inhabited

/-- A decimal literal `num / 10^scale`, the operand of `NUM.lit` (R211). -/
structure Dec where
  num : Int
  scale : Nat
deriving DecidableEq, Repr

/-- A transport error value (P24): opaque, with the distinguished value `Timeout` (R63, R234). -/
inductive TErr where
  | timeout
  | other (code : Nat)
deriving DecidableEq, Repr, Inhabited

/-- One answer of the XPORT oracle (20_memory.md R63): whether the transaction fails, and the error value
it reports if it does. A transaction that reaches no device fails whatever `fails` says (R84). -/
structure TxnAnswer where
  fails : Bool
  err : TErr
deriving DecidableEq, Repr, Inhabited

/-- `ELEV_VARIANT` (P19, 44_fusion.md R213). -/
inductive ElevVariant where
  | formula
  | vectors
deriving DecidableEq, Repr

/-- The parameters of 00_scope.md R4 that are plain data. `T_AUX_PERIOD_MS` (P16), a positive real, is the
fraction `auxPeriodNum / auxPeriodDen` of milliseconds. P17 is the namespace `NUM`; P23 is `Byte`; P24 is
`TErr`. -/
structure Config where
  /-- P1 `DEV_ADDR7` -/
  devAddr7 : BitVec 7
  /-- P2 `WHOAMI_EXPECTED` -/
  whoamiExpected : Byte
  /-- P3 `WHOAMI_DEVICE` -/
  whoamiDevice : Byte
  /-- P4 `MAG_ADDR7` -/
  magAddr7 : BitVec 7
  /-- P5 `MAG_REG_SRST` -/
  magRegSrst : Byte
  /-- P6 `MAG_REG_MODE` -/
  magRegMode : Byte
  /-- P7 `MAG_REG_XL` -/
  magRegXl : Byte
  /-- P8 `MST_CLK_CODE` -/
  mstClkCode : Byte
  /-- P9 `MST_ODR_CODE` -/
  mstOdrCode : Byte
  /-- P10 `LP_CONFIG_OFFSET` -/
  lpConfigOffset : Byte
  /-- P11 `LP_CONFIG_VALUE` -/
  lpConfigValue : Byte
  /-- P12 `T_RESET_SETTLE_MS` -/
  tResetSettleMs : Nat
  /-- P13 `T_MST_SETTLE_MS` -/
  tMstSettleMs : Nat
  /-- P14 `T_MAG_RESET_MS` -/
  tMagResetMs : Nat
  /-- P15 `T_BUS_TIMEOUT_MS`; the model has no clock, so nothing reads it (R273, log 24). -/
  tBusTimeoutMs : Nat
  /-- P16 numerator -/
  auxPeriodNum : Nat
  /-- P16 denominator -/
  auxPeriodDen : Nat
  /-- P18 `REF_AXIS`, as literals of `NUM.lit` -/
  refAxis : Vec3 Dec
  /-- P19 `ELEV_VARIANT` -/
  elevVariant : ElevVariant
  /-- P20 `AUX_WRITE_REPEAT` -/
  auxWriteRepeat : Bool
  /-- P21 `ACCEL_BASE` -/
  accelBase : Byte
  /-- P22 `GYRO_BASE` -/
  gyroBase : Byte
deriving DecidableEq, Repr

/-- The configuration of `State.reset`: the document's values where it has one (P12, P14, P15, P18 to P22),
the suggested values of R4 for the OPEN parameters. PRESUMED (the chip family's, log 3), unsafe: no
statement rests on an OPEN value. -/
def Config.suggested : Config where
  devAddr7 := 0x68#7
  whoamiExpected := 0xEA#8
  whoamiDevice := 0xEA#8
  magAddr7 := 0x0C#7
  magRegSrst := 0x32#8
  magRegMode := 0x31#8
  magRegXl := 0x11#8
  mstClkCode := 0x07#8
  mstOdrCode := 0x03#8
  lpConfigOffset := 0x05#8
  lpConfigValue := 0x40#8
  tResetSettleMs := 10
  tMstSettleMs := 10
  tMagResetMs := 100
  tBusTimeoutMs := 1000
  auxPeriodNum := 80
  auxPeriodDen := 11
  refAxis := ⟨⟨0, 0⟩, ⟨1, 0⟩, ⟨0, 0⟩⟩
  elevVariant := .formula
  auxWriteRepeat := false
  accelBase := 0x2D#8
  gyroBase := 0x33#8

/-! ### The numerics record NUM (P17, R211): `ofInt` is exact; the other operations are total functions of their
operands, nothing else assumed -/

/-- `NUM.ofInt : i16 → FLOAT`, exact (R211): it gives the value whose number is the integer (`NUM.ofInt_exact`). -/
def NUM.ofInt (v : I16) : Flt := .int v
/-- `NUM.lit : decimal → FLOAT` -/
opaque NUM.lit : Dec → Flt
/-- `NUM.pi` -/
opaque NUM.pi : Flt
/-- `NUM.neg` -/
opaque NUM.neg : Flt → Flt
/-- `NUM.add` -/
opaque NUM.add : Flt → Flt → Flt
/-- `NUM.sub` -/
opaque NUM.sub : Flt → Flt → Flt
/-- `NUM.mul` -/
opaque NUM.mul : Flt → Flt → Flt
/-- `NUM.div` -/
opaque NUM.div : Flt → Flt → Flt
/-- `NUM.sqrt` -/
opaque NUM.sqrt : Flt → Flt
/-- `NUM.atan2` -/
opaque NUM.atan2 : Flt → Flt → Flt
/-- `NUM.acos` -/
opaque NUM.acos : Flt → Flt
/-- The number an uninterpreted code stands for; none for a value that is not finite. A finite value of a
floating-point format is rational. DESIGN CHOICE (log 9), safe. -/
opaque NUM.codeValue : Nat → Option ℚ

/-- The number a `FLOAT` stands for; none for a value that is not finite. -/
def Flt.value? : Flt → Option ℚ
  | .int v => some v.toInt
  | .other code => NUM.codeValue code

/-- The number a decimal literal stands for. -/
def Dec.value (d : Dec) : ℚ := d.num / 10 ^ d.scale

/-! ### Free values: the k-th answer of an oracle whose script in State has run out (R9, R21; log 4) -/

/-- XPORT (R63, U6). -/
opaque Config.freeTxn : Nat → TxnAnswer
/-- How many ticks fall at the k-th scheduling point (R191, U15). -/
opaque Config.freeTicks : Nat → Nat
/-- SENS (R37, U3). -/
opaque Config.freeSens : Nat → Byte
/-- MAG (R197, U5). -/
opaque Config.freeAux : Nat → Byte
/-- Register values after a device reset (U1, U4) and `mst_rst` in the master window (U11). -/
opaque Config.freeByte : Nat → Byte
/-- A fusion result on a degenerate input (U16). -/
opaque Config.freeFlt : Nat → Flt

end Sys2Proof
end

