-- ==== Sys2Proof/Machine/State.lean ====
section
/-! DEFINITION. The state of the machine (10_state.md), as plain data, and its value after block reset. -/

namespace Sys2Proof.Machine

/-- A byte memory in canonical form: addresses strictly rising, no entry equal to what an unlisted address
reads as (0, log 7). -/
abbrev Memory := List Host.Cell

/-- An oracle of 00_scope.md R9: the answers still scripted, and how many answers were given. When the script
has run out, the next answer is an opaque constant of Config applied to `used` (log 4). -/
structure Oracle (α : Type) where
  script : List α
  used : Nat
deriving DecidableEq, Repr

/-- The oracles and draws the step relation is open over (R9, R21). The model's own field, not the spec's. -/
structure Env where
  /-- XPORT: one answer per transaction (20_memory.md R63). -/
  txn : Oracle TxnAnswer
  /-- How many ticks fall at each scheduling point (43_aux_engine.md R191). -/
  sched : Oracle Nat
  /-- SENS: one byte per sensor byte read (10_state.md R37). -/
  sens : Oracle Byte
  /-- MAG: one byte per byte of an auxiliary read (43_aux_engine.md R197). -/
  aux : Oracle Byte
  /-- Unspecified register bytes of a device reset (70_reset_and_hazards.md R261) and `mst_rst` (R196). -/
  draw : Oracle Byte
  /-- Fusion results on degenerate inputs (44_fusion.md R214, R217). -/
  fdraw : Oracle Flt
deriving DecidableEq, Repr

/-- An action of the host (R30, R29): present a command word, or write a fusion operand. -/
inductive HostAction where
  | command (w : CmdWord)
  | writeFA (v : Vec3 Flt)
  | writeFH (v : Vec3 Flt)
deriving DecidableEq, Repr

/-- Idle, or busy with `OP` at `STAGE` (R30). Between two steps of the machine the block is idle (log 1). -/
inductive Activity where
  | idle
  | busy (op : Instr) (stage : Nat)
deriving DecidableEq, Repr

/-- `HANDLE` (R23). -/
structure Handle where
  valid : Bool
  bus : Byte
  addr8 : Byte
deriving DecidableEq, Repr

/-- `DRVSTATE` (R31): ghost state, read by no operation. -/
inductive DrvState where
  | noHandle
  | unconfigured
  | reset (progress : Fin 5)
  | configured
deriving DecidableEq, Repr

/-- `STATUS` (R25). -/
structure Status where
  code : BitVec 4
  stage : BitVec 8
  cause : Option TErr
deriving DecidableEq, Repr

/-- The result registers (R26 to R28). -/
structure Results where
  resByte : Byte
  resFs : BitVec 2
  accRaw : Vec3 I16
  gyrRaw : Vec3 I16
  magRaw : Vec3 I16
  magStat6 : Byte
  magStat7 : Byte
  accSc : Vec3 Flt
  gyrSc : Vec3 Flt
deriving DecidableEq, Repr

/-- The fusion registers (R29). -/
structure Fusion where
  fa : Vec3 Flt
  fh : Vec3 Flt
  elev : Flt
  azim : Flt
deriving DecidableEq, Repr

/-- The device: its registers (R32 to R46) and hidden state (R48). `regs` holds every stored register but
`BANKSEL`, at address bank*128+offset. -/
structure Dev where
  banksel : Byte
  regs : Memory
  auxArmed : Bool
  devSettling : Bool
  mstSettling : Bool
  /-- How many ticks the engine has taken: the number of the latest tick. -/
  tickNo : Nat
  /-- For each shadow byte, the tick that last wrote it (R48(d)). -/
  age : Vector (Option Nat) 8
deriving DecidableEq, Repr

/-- The target on the auxiliary bus: the unconstrained MAG oracle (43_aux_engine.md R197) or the test double
with its array `T` (R198). -/
inductive AuxTarget where
  | oracle
  | double (t : Memory)
deriving DecidableEq, Repr

/-- An event of the auxiliary-bus history (R197). -/
inductive AuxEvent where
  | auxR (a7 : BitVec 7) (reg : Byte) (n : Nat) (bytes : List Byte)
  | auxW (a7 : BitVec 7) (reg v : Byte)
deriving DecidableEq, Repr

/-- A transaction record (30_encoding.md R103); `err` is none when the transaction returned ok. -/
inductive Txn where
  | w (addr8 o v : Byte) (err : Option TErr)
  | r (addr8 o : Byte) (n : Nat) (bytes : List Byte) (err : Option TErr)
deriving DecidableEq, Repr

/-- A stop of the machine with a fault. There is none: every error of the block ends in a next state with
`STATUS` written (60_exceptions.md R236), and the treatment `stuck` is never used
(93_implementation_defined.md U24). -/
inductive Fault
deriving DecidableEq, Repr

/-- The situations to which the spec gives no meaning (00_scope.md R9, 60_exceptions.md R247). All are safe:
nothing can be proved of what the hardware does there. -/
inductive Refusal where
  /-- Raised by an arm of `exec` that has no meaning yet; safe. -/
  | notModelled (mnemonic : String)
  /-- Raised by a transaction at an undescribed offset of the current bank (20_memory.md R74); safe. -/
  | undescribedRegister
  /-- Raised by a write to IDENT, a sensor byte or a shadow byte (R74); safe. -/
  | readOnlyRegister
  /-- Raised by a burst that does not lie inside one data block of bank 0 (R66); safe. -/
  | burstOutsideBlock
  /-- Raised by a transaction inside the device settle window (70_reset_and_hazards.md R262); safe. -/
  | settleWindow
  /-- Raised by READAUX with a length outside 1..8 (42_aux_bridge.md R171); safe. -/
  | readAuxLength
  /-- Raised by a tick that finds a refused channel configuration (43_aux_engine.md R200); safe. -/
  | engineConfig
  /-- Raised by AUXINIT when LP_CONFIG_OFFSET is another described bank 0 offset (10_state.md R36); safe. -/
  | lpOffsetClash
  /-- Raised by the step when the block is busy (20_memory.md R81); safe. -/
  | overlappingOperation
deriving DecidableEq, Repr

/-- The state. -/
structure State where
  /-- The parameters (00_scope.md R4); no step changes them (log 3). -/
  cfg : Config
  /-- The host's pending actions, the next one first (R30; log 2). -/
  host : List HostAction
  activity : Activity
  handle : Handle
  drv : DrvState
  status : Status
  res : Results
  fus : Fusion
  dev : Dev
  mag : AuxTarget
  env : Env
  /-- Every primary-bus transaction so far, oldest first (30_encoding.md R103). -/
  trace : List Txn
  /-- Every auxiliary transfer so far, oldest first (43_aux_engine.md R197). -/
  hist : List AuxEvent
deriving DecidableEq, Repr

namespace State

/-! ### Named updates, one per field; no operation updates `cfg` -/

def setHost (s : State) (v : List HostAction) : State := { s with host := v }
def setActivity (s : State) (v : Activity) : State := { s with activity := v }
def setHandle (s : State) (v : Handle) : State := { s with handle := v }
def setDrv (s : State) (v : DrvState) : State := { s with drv := v }
def setStatus (s : State) (v : Status) : State := { s with status := v }
def setRes (s : State) (v : Results) : State := { s with res := v }
def setFus (s : State) (v : Fusion) : State := { s with fus := v }
def setDev (s : State) (v : Dev) : State := { s with dev := v }
def setMag (s : State) (v : AuxTarget) : State := { s with mag := v }
def setEnv (s : State) (v : Env) : State := { s with env := v }
def setTrace (s : State) (v : List Txn) : State := { s with trace := v }
def setHist (s : State) (v : List AuxEvent) : State := { s with hist := v }

/-- The machine after block reset with configuration `c` (70_reset_and_hazards.md R263, 10_state.md R50):
idle, no handle, `STATUS = (0, 0, none)`, engine disabled, channel off, no window open. Everything R50 calls
unspecified is 0 (DESIGN CHOICE, log 6, unsafe); the oracles' scripts are empty (log 4). -/
def resetFor (c : Config) : State where
  cfg := c
  host := []
  activity := .idle
  handle := ⟨false, 0#8, 0#8⟩
  drv := .noHandle
  status := ⟨0#4, 0#8, none⟩
  res := ⟨0#8, 0#2, ⟨0#16, 0#16, 0#16⟩, ⟨0#16, 0#16, 0#16⟩, ⟨0#16, 0#16, 0#16⟩, 0#8, 0#8,
    ⟨.int 0#16, .int 0#16, .int 0#16⟩, ⟨.int 0#16, .int 0#16, .int 0#16⟩⟩
  fus := ⟨⟨.int 0#16, .int 0#16, .int 0#16⟩, ⟨.int 0#16, .int 0#16, .int 0#16⟩, .int 0#16, .int 0#16⟩
  dev := ⟨0#8, [], false, false, false, 0, #v[none, none, none, none, none, none, none, none]⟩
  mag := .oracle
  env := ⟨⟨[], 0⟩, ⟨[], 0⟩, ⟨[], 0⟩, ⟨[], 0⟩, ⟨[], 0⟩, ⟨[], 0⟩⟩
  trace := []
  hist := []

/-- The machine right after reset, at the configuration `Config.suggested` (log 3). -/
def reset : State := resetFor Config.suggested

end State

end Sys2Proof.Machine
end

