-- ==== Sys2Proof/Machine/Memory.lean ====
section
/-! DEFINITION. Byte memories in canonical form: reading, writing, the form itself, and the addresses of the
device's registers. -/

namespace Sys2Proof.Machine

/-- What an address that is not listed reads as. DESIGN CHOICE (log 7), unsafe. -/
def Memory.unlisted : Byte := 0#8

/-- The byte at address `a`. -/
def Memory.get : Memory → Nat → Byte
  | [], _ => Memory.unlisted
  | (k, v) :: m, a => if a = k then v else Memory.get m a

/-- Remove the entry of `a` from a sorted list. -/
def Memory.erase : Memory → Nat → Memory
  | [], _ => []
  | (k, v) :: m, a => if a = k then m else (k, v) :: Memory.erase m a

/-- List the byte `b` at `a` in a sorted list. -/
def Memory.insert : Memory → Nat → Byte → Memory
  | [], a, b => [(a, b)]
  | (k, v) :: m, a, b =>
    if a < k then (a, b) :: (k, v) :: m
    else if a = k then (a, b) :: m
    else (k, v) :: Memory.insert m a b

/-- Write the byte `b` at `a`: writing what an unlisted address reads as removes the entry. -/
def Memory.set (m : Memory) (a : Nat) (b : Byte) : Memory :=
  if b = Memory.unlisted then Memory.erase m a else Memory.insert m a b

/-- Write consecutive bytes from address `a` on. -/
def Memory.setRun : Memory → Nat → List Byte → Memory
  | m, _, [] => m
  | m, a, b :: bs => Memory.setRun (Memory.set m a b) (a + 1) bs

/-- The `n` bytes from address `a` on. -/
def Memory.getRun (m : Memory) : Nat → Nat → List Byte
  | _, 0 => []
  | a, n + 1 => Memory.get m a :: Memory.getRun m (a + 1) n

/-- Every address listed is above `lo`, addresses rise strictly, and no entry is the unlisted byte. -/
def Memory.wfFrom : Nat → Memory → Bool
  | _, [] => true
  | lo, (k, v) :: m => decide (lo ≤ k) && decide (v ≠ Memory.unlisted) && Memory.wfFrom (k + 1) m

/-- The canonical form. -/
def Memory.wf (m : Memory) : Bool := Memory.wfFrom 0 m

/-- The address in `dev.regs` of the register at offset `o` of bank `b`: `REG[b][o]` (00_scope.md R6). -/
def regAddr (b : BitVec 2) (o : Byte) : Nat := b.toNat * 128 + o.toNat

/-! ### Offsets of the register map (10_state.md section 4) -/

def oIDENT : Byte := 0x00#8
def oMSTCTL : Byte := 0x03#8
def oPWR : Byte := 0x06#8
def oSHADOW : Byte := 0x3B#8
def oGYROCFG : Byte := 0x01#8
def oACCELCFG : Byte := 0x14#8
def oAUXODR : Byte := 0x00#8
def oAUXMCTL : Byte := 0x01#8
def oPT_ADDR : Byte := 0x03#8
def oPT_REG : Byte := 0x04#8
def oPT_CTRL : Byte := 0x05#8
def oPT_DO : Byte := 0x06#8
/-- The bank selector, offset 0x7F of every bank (20_memory.md R65). -/
def oBANKSEL : Byte := 0x7F#8

/-! ### Addresses of the stored registers -/

def aMSTCTL : Nat := 0x03
def aPWR : Nat := 0x06
def aSHADOW : Nat := 0x3B
def aGYROCFG : Nat := 2 * 128 + 0x01
def aACCELCFG : Nat := 2 * 128 + 0x14
def aAUXODR : Nat := 3 * 128 + 0x00
def aAUXMCTL : Nat := 3 * 128 + 0x01
def aPT_ADDR : Nat := 3 * 128 + 0x03
def aPT_REG : Nat := 3 * 128 + 0x04
def aPT_CTRL : Nat := 3 * 128 + 0x05
def aPT_DO : Nat := 3 * 128 + 0x06

/-- The address of `LPCFG` (R36). -/
def aLPCFG (c : Config) : Nat := c.lpConfigOffset.toNat

/-- The stored byte at a register address. -/
def State.reg (s : State) (a : Nat) : Byte := Memory.get s.dev.regs a

end Sys2Proof.Machine
end

