-- ==== Sys2Proof/Machine/Operands.lean ====
section
/-! DEFINITION. Value assembly (30_encoding.md R104 to R113, R118), the argument checks of the operations, and
the sensitivity divisors (41_device_driver.md R156). -/

namespace Sys2Proof.Machine

/-- Bank-select byte `(bank << 4) & 0x30` (R104). -/
def selByte (bank : Byte) : Byte := (bank <<< 4) &&& 0x30#8

/-- Handle address byte `(address7 << 1) & 0xFE` (R105). -/
def handleAddr8 (addr7 : Byte) : Byte := (addr7 <<< 1) &&& 0xFE#8

/-- The 7-bit address in a handle address byte, `addr8[7:1]` (20_memory.md R84). -/
def addr7Of (addr8 : Byte) : BitVec 7 := addr8.extractLsb' 1 7

/-- Passthrough target-address byte of a write transfer: bit 7 = 0 (R106). -/
def ptAddrWrite (a7 : BitVec 7) : Byte := a7.setWidth 8

/-- Passthrough target-address byte of a read transfer: `a7 | 0x80` (R106). -/
def ptAddrRead (a7 : BitVec 7) : Byte := a7.setWidth 8 ||| 0x80#8

/-- Passthrough control byte `0x80 | length` (R107). -/
def ptCtrlByte (length : Byte) : Byte := 0x80#8 ||| length

/-- Insert the full-scale range field, bits 2:1 (R108). -/
def insFs (v fs : Byte) : Byte := (v &&& 0xF9#8) ||| ((fs &&& 0x03#8) <<< 1)

/-- Extract the full-scale range field (R108). -/
def extFs (v : Byte) : BitVec 2 := ((v >>> 1) &&& 0x03#8).setWidth 2

/-- Insert the filter cutoff field, bits 5:3 (R109). -/
def insCut (v c : Byte) : Byte := (v &&& 0xC7#8) ||| ((c &&& 0x07#8) <<< 3)

/-- Insert the filter enable bit, bit 0 (R110). -/
def insEn (v e : Byte) : Byte := (v &&& 0xFE#8) ||| (e &&& 0x01#8)

/-- Set the reset bit of the power-management byte (R111). -/
def pwrReset (v : Byte) : Byte := v ||| 0x80#8
/-- Set the sleep bit (R111). -/
def pwrSleep (v : Byte) : Byte := v ||| 0x40#8
/-- Clear the sleep bit (R111). -/
def pwrWake (v : Byte) : Byte := v &&& 0xBF#8

/-- Set the master-reset bit of the master-control byte (R112). -/
def mstReset (v : Byte) : Byte := v ||| 0x02#8
/-- Set the master-enable bit (R112). -/
def mstEnable (v : Byte) : Byte := v ||| 0x20#8

/-- Big-endian 16-bit sample, high byte first (R113, 20_memory.md R67). The 16 bits are read as two's
complement (`sext_16`). -/
def be16 (h l : Byte) : I16 := h ++ l

/-- Little-endian 16-bit sample, low byte first (R113, 20_memory.md R68). -/
def le16 (l h : Byte) : I16 := h ++ l

/-- Byte `j` of the bytes read; every use lies inside the bytes the read returned. -/
def byteAt (d : List Byte) (j : Nat) : Byte := d.getD j 0#8

/-- Big-endian triple of a 6-byte burst (R113). -/
def beTriple (d : List Byte) : Vec3 I16 :=
  ⟨be16 (byteAt d 0) (byteAt d 1), be16 (byteAt d 2) (byteAt d 3), be16 (byteAt d 4) (byteAt d 5)⟩

/-- Little-endian triple of the shadow block (R113). -/
def leTriple (d : List Byte) : Vec3 I16 :=
  ⟨le16 (byteAt d 0) (byteAt d 1), le16 (byteAt d 2) (byteAt d 3), le16 (byteAt d 4) (byteAt d 5)⟩

/-- `GYRO_DIV` (R156). -/
def gyroDiv (fs : BitVec 2) : Dec :=
  if fs = 0#2 then ⟨131, 0⟩ else if fs = 1#2 then ⟨655, 1⟩ else if fs = 2#2 then ⟨328, 1⟩ else ⟨164, 1⟩

/-- `ACCEL_DIV` (R156). -/
def accelDiv (fs : BitVec 2) : Dec :=
  if fs = 0#2 then ⟨16384, 0⟩ else if fs = 1#2 then ⟨8192, 0⟩ else if fs = 2#2 then ⟨4096, 0⟩ else ⟨2048, 0⟩

/-- A raw sample in physical units: each axis divided by the divisor (41_device_driver.md R154, R155). -/
def scaled (raw : Vec3 I16) (div : Dec) : Vec3 Flt :=
  raw.map fun v => NUM.div (NUM.ofInt v) (NUM.lit div)

/-! ### Magnetometer-side values (R118) -/

/-- The byte that resets the magnetometer. -/
def magSrstByte : Byte := 0x01#8
/-- The byte that selects continuous mode 4. -/
def magModeByte : Byte := 0x08#8
/-- The length of the measurement data block. -/
def magBlockLen : Byte := 8#8

/-! ### Argument checks (60_exceptions.md R232) -/

def bankOk (bank : Byte) : Bool := decide (bank ≤ 3#8)
def addr7Ok (addr7 : Byte) : Bool := decide (addr7 ≤ 0x7F#8)
def fsOk (fs : Byte) : Bool := decide (fs ≤ 3#8)
def dlpfOk (sensor cutoff : Byte) : Bool := decide (sensor ≤ 1#8) && decide (cutoff ≤ 7#8)
def enOk (en : Byte) : Bool := decide (en ≤ 1#8)
/-- Admission of a READAUX length (42_aux_bridge.md R171); a length it does not admit is refused. -/
def auxLenOk (length : Byte) : Bool := decide (1#8 ≤ length) && decide (length ≤ 8#8)

/-- The configuration register a SETDLPF sensor operand selects (41_device_driver.md R150). -/
def dlpfOffset (sensor : Byte) : Byte := if sensor = 0#8 then oACCELCFG else oGYROCFG

/-- `LP_CONFIG_OFFSET` differs from every other described bank 0 offset (10_state.md R36). -/
def lpOffsetOk (c : Config) : Bool :=
  let o := c.lpConfigOffset
  decide (o < oBANKSEL) && decide (o ≠ oIDENT) && decide (o ≠ oMSTCTL) && decide (o ≠ oPWR)
    && !(decide (0x2D#8 ≤ o) && decide (o ≤ 0x38#8)) && !(decide (0x3B#8 ≤ o) && decide (o ≤ 0x42#8))

end Sys2Proof.Machine
end

