-- ==== Sys2Proof/Machine/Engine.lean ====
section
/-! DEFINITION. The oracles, and the auxiliary master engine (43_aux_engine.md): its tick, when ticks happen,
and what a delay guarantees. -/

namespace Sys2Proof.Machine

/-! ### Oracles (00_scope.md R9; log 4) -/

/-- The next answer of an oracle; past the script it is a free value. -/
def Oracle.next {α : Type} (free : Nat → α) (o : Oracle α) : α × Oracle α :=
  match o.script with
  | [] => (free o.used, ⟨[], o.used + 1⟩)
  | a :: rest => (a, ⟨rest, o.used + 1⟩)

/-- The next `n` answers of an oracle. -/
def Oracle.take {α : Type} (free : Nat → α) : Nat → Oracle α → List α × Oracle α
  | 0, o => ([], o)
  | n + 1, o =>
    ((Oracle.next free o).1 :: (Oracle.take free n (Oracle.next free o).2).1,
      (Oracle.take free n (Oracle.next free o).2).2)

/-! ### Fields the engine reads, live (R192) -/

/-- `MSTCTL.mst_en` (10_state.md R34). -/
def State.mstEn (s : State) : Bool := (s.reg aMSTCTL).getLsbD 5
/-- `PWR.sleep` (R35). -/
def State.asleep (s : State) : Bool := (s.reg aPWR).getLsbD 6
/-- `PT_CTRL.en` (R45). -/
def State.ptEn (s : State) : Bool := (s.reg aPT_CTRL).getLsbD 7
/-- `PT_CTRL.len` (R45). -/
def State.ptLen (s : State) : Nat := ((s.reg aPT_CTRL) &&& 0x0F#8).toNat
/-- `PT_ADDR.rd` (R43). -/
def State.ptRd (s : State) : Bool := (s.reg aPT_ADDR).getLsbD 7
/-- `PT_ADDR.a7` (R43). -/
def State.ptA7 (s : State) : BitVec 7 := (s.reg aPT_ADDR).setWidth 7
/-- A write transfer is due (R194). -/
def State.writeDue (s : State) : Bool := s.dev.auxArmed || s.cfg.auxWriteRepeat

/-- A tick may happen (R191). -/
def State.tickEnabled (s : State) : Bool := s.mstEn && !s.dev.devSettling && !s.dev.mstSettling

/-- The channel configurations a tick refuses (R200). -/
def State.refusedConfig (s : State) : Bool :=
  decide ((s.reg aPT_CTRL) &&& 0x70#8 ≠ 0#8)
    || (s.ptRd && (decide (s.ptLen = 0) || decide (8 < s.ptLen)))
    || (!s.ptRd && s.writeDue && decide (s.ptLen ≠ 1))

/-! ### Transfers on the auxiliary bus (R193, R194, R197, R198) -/

/-- `AuxRead(a7, r, n)`: the bytes the target returns. The oracle draws every byte; the test double answers
from its array, with zeros at another address; a run past the end of the array, which R198 does not define,
is drawn (log 18). -/
def auxRead (a7 : BitVec 7) (r : Byte) (n : Nat) (s : State) : List Byte × State :=
  match s.mag with
  | .oracle => ((s.env.aux.take Config.freeAux n).1,
      s.setEnv { s.env with aux := (s.env.aux.take Config.freeAux n).2 })
  | .double t =>
    if a7 = s.cfg.magAddr7 then
      if r.toNat + n ≤ 256 then (Memory.getRun t r.toNat n, s)
      else ((s.env.aux.take Config.freeAux n).1,
        s.setEnv { s.env with aux := (s.env.aux.take Config.freeAux n).2 })
    else (List.replicate n 0#8, s)

/-- The target after `AuxWrite(a7, r, v)`: only the test double at its own address changes visibly. -/
def AuxTarget.write (magAddr7 : BitVec 7) (a7 : BitVec 7) (r v : Byte) : AuxTarget → AuxTarget
  | .oracle => .oracle
  | .double t => if a7 = magAddr7 then .double (Memory.set t r.toNat v) else .double t

/-- The ages after the tick number `k` wrote the first `n` shadow bytes (10_state.md R48(d)). -/
def ageWritten (n k : Nat) (age : Vector (Option Nat) 8) : Vector (Option Nat) 8 :=
  Vector.ofFn fun i => if i.val < n then some k else age[i]

/-- Read transfer (R193): copy the bytes to the first `n` shadow bytes, disarm, record. -/
def readTransfer (a7 : BitVec 7) (r : Byte) (n : Nat) (s : State) : State :=
  let bytes := (auxRead a7 r n s).1
  let s1 := (auxRead a7 r n s).2
  (s1.setDev { s1.dev with
      regs := Memory.setRun s1.dev.regs aSHADOW bytes
      auxArmed := false
      age := ageWritten n s1.dev.tickNo s1.dev.age }).setHist
    (s1.hist ++ [.auxR a7 r n bytes])

/-- Write transfer (R194): deliver `PT_DO` if a write is due, disarm, record. -/
def writeTransfer (a7 : BitVec 7) (r : Byte) (s : State) : State :=
  if s.writeDue then
    ((s.setMag (s.mag.write s.cfg.magAddr7 a7 r (s.reg aPT_DO))).setDev
        { s.dev with auxArmed := false }).setHist
      (s.hist ++ [.auxW a7 r (s.reg aPT_DO)])
  else s

/-- One more tick has been taken. -/
def countTick (s : State) : State := s.setDev { s.dev with tickNo := s.dev.tickNo + 1 }

/-- The tick (R192). -/
def tick (s : State) : Except Refusal State :=
  if s.ptEn then
    if s.refusedConfig then .error .engineConfig
    else if s.ptRd then .ok (readTransfer s.ptA7 (s.reg aPT_REG) s.ptLen (countTick s))
    else .ok (writeTransfer s.ptA7 (s.reg aPT_REG) (countTick s))
  else .ok (countTick s)

/-- `n` ticks in a row. -/
def ticks : Nat → State → Except Refusal State
  | 0, s => .ok s
  | n + 1, s =>
    match tick s with
    | .error r => .error r
    | .ok s1 => ticks n s1

/-- The number of ticks the schedule places at the next scheduling point. -/
def State.scheduled (s : State) : Nat := (s.env.sched.next Config.freeTicks).1

/-- The state with that answer of the schedule taken. -/
def State.afterSchedule (s : State) : State :=
  s.setEnv { s.env with sched := (s.env.sched.next Config.freeTicks).2 }

/-- A point at which the engine may take any number of ticks, including none (20_memory.md R78, R191). -/
def tickPoint (s : State) : Except Refusal State :=
  if s.tickEnabled then ticks s.scheduled s.afterSchedule else .ok s

/-! ### Delays (40_bank_selector.md R133, 43_aux_engine.md R199) -/

/-- `floor(ms / T_AUX_PERIOD_MS)`. -/
def guaranteedTicks (c : Config) (ms : Nat) : Nat := ms * c.auxPeriodDen / c.auxPeriodNum

/-- The least number of ticks during a delay in which a tick may happen: none is guaranteed while asleep. -/
def State.delayTicks (s : State) (ms : Nat) : Nat :=
  if s.asleep then 0 else guaranteedTicks s.cfg ms

/-- Close the settle windows no longer than `ms` (R133, 70_reset_and_hazards.md R262, R196). -/
def closeWindows (ms : Nat) (s : State) : State :=
  s.setDev { s.dev with
    devSettling := s.dev.devSettling && !decide (s.cfg.tResetSettleMs ≤ ms)
    mstSettling := s.dev.mstSettling && !decide (s.cfg.tMstSettleMs ≤ ms) }

/-- A `Delay(ms)` step: at least the guaranteed ticks, then the windows close (log 17). -/
def delayStep (ms : Nat) (s : State) : Except Refusal State :=
  if s.tickEnabled then
    match ticks (s.delayTicks ms + s.scheduled) s.afterSchedule with
    | .error r => .error r
    | .ok s1 => .ok (closeWindows ms s1)
  else .ok (closeWindows ms s)

end Sys2Proof.Machine
end

