-- ==== Sys2Proof/Machine/Bus.lean ====
section
/-! DEFINITION. The device side of a transaction (20_memory.md R64 to R66, R72 to R74), the two resets the
device performs (70_reset_and_hazards.md R261, 43_aux_engine.md R196), and the transactions (R61, R63, R84). -/

namespace Sys2Proof.Machine

/-- A described register of the banked space (10_state.md R33 to R46); `BANKSEL` is apart. -/
inductive RegName where
  | ident | mstctl | pwr | lpcfg | sensor | shadow
  | gyrocfg | accelcfg
  | auxodr | auxmctl | ptAddr | ptReg | ptCtrl | ptDo
deriving DecidableEq, Repr

/-- The register at offset `o` of bank `b`, none where the document describes none (R47, R75). -/
def regAt (c : Config) (b : BitVec 2) (o : Byte) : Option RegName :=
  if b = 0#2 then
    if o = oIDENT then some .ident
    else if o = oMSTCTL then some .mstctl
    else if o = oPWR then some .pwr
    else if 0x2D#8 ≤ o ∧ o ≤ 0x38#8 then some .sensor
    else if 0x3B#8 ≤ o ∧ o ≤ 0x42#8 then some .shadow
    else if o = c.lpConfigOffset ∧ o < oBANKSEL then some .lpcfg
    else none
  else if b = 2#2 then
    if o = oGYROCFG then some .gyrocfg
    else if o = oACCELCFG then some .accelcfg
    else none
  else if b = 3#2 then
    if o = oAUXODR then some .auxodr
    else if o = oAUXMCTL then some .auxmctl
    else if o = oPT_ADDR then some .ptAddr
    else if o = oPT_REG then some .ptReg
    else if o = oPT_CTRL then some .ptCtrl
    else if o = oPT_DO then some .ptDo
    else none
  else none

/-- `cur_bank = BANKSEL[5:4]` (10_state.md R32). -/
def State.bank (s : State) : BitVec 2 := s.dev.banksel.extractLsb' 4 2

/-- The next unspecified byte (R9). -/
def State.drawByte (s : State) : Byte := (s.env.draw.next Config.freeByte).1
def State.afterDraw (s : State) : State :=
  s.setEnv { s.env with draw := (s.env.draw.next Config.freeByte).2 }

/-- The next sensor byte (R37). -/
def State.sensByte (s : State) : Byte := (s.env.sens.next Config.freeSens).1
def State.afterSens (s : State) : State :=
  s.setEnv { s.env with sens := (s.env.sens.next Config.freeSens).2 }

/-! ### Writes -/

/-- Store a byte in a register. -/
def storeReg (b : BitVec 2) (o v : Byte) (s : State) : State :=
  s.setDev { s.dev with regs := Memory.set s.dev.regs (regAddr b o) v }

/-- The addresses a device reset leaves unspecified (R261): every stored register and the shadow block. -/
def resetAddrs (c : Config) : List Nat :=
  [aMSTCTL, aPWR, aGYROCFG, aACCELCFG, aAUXODR, aAUXMCTL, aPT_ADDR, aPT_REG, aPT_CTRL, aPT_DO]
    ++ [aSHADOW, aSHADOW + 1, aSHADOW + 2, aSHADOW + 3, aSHADOW + 4, aSHADOW + 5, aSHADOW + 6, aSHADOW + 7]
    ++ (if lpOffsetOk c then [aLPCFG c] else [])

/-- Give each address a drawn byte. -/
def redraw : List Nat → Memory → Oracle Byte → Memory × Oracle Byte
  | [], m, o => (m, o)
  | a :: rest, m, o =>
    redraw rest (Memory.set m a (o.next Config.freeByte).1) (o.next Config.freeByte).2

/-- The register contents after a device reset: drawn, but `mst_en` = 0, both reset bits 0, `PT_CTRL` = 0. -/
def resetRegs (drawn : Memory) : Memory :=
  Memory.set
    (Memory.set
      (Memory.set drawn aMSTCTL (Memory.get drawn aMSTCTL &&& 0xDD#8))
      aPWR (Memory.get drawn aPWR &&& 0x7F#8))
    aPT_CTRL 0#8

/-- Device reset (70_reset_and_hazards.md R261): the settle window opens, an open master window is
cancelled. -/
def deviceReset (s : State) : State :=
  let first := s.env.draw.next Config.freeByte
  let rest := redraw (resetAddrs s.cfg) s.dev.regs first.2
  (s.setEnv { s.env with draw := rest.2 }).setDev { s.dev with
    banksel := first.1
    regs := resetRegs rest.1
    auxArmed := false
    devSettling := true
    mstSettling := false
    age := Vector.replicate 8 none }

/-- Write of `MSTCTL`: with bit 1 set a master reset (43_aux_engine.md R196). The bit clears itself, so it is
not stored (log 14). -/
def writeMstctl (v : Byte) (s : State) : State :=
  let s1 := storeReg 0#2 oMSTCTL (v &&& 0xFD#8) s
  if v.getLsbD 1 then s1.setDev { s1.dev with auxArmed := false, mstSettling := true } else s1

/-- Write of `PT_CTRL`: bit 7 arms (R195). -/
def writePtCtrl (v : Byte) (s : State) : State :=
  let s1 := storeReg 3#2 oPT_CTRL v s
  if v.getLsbD 7 then s1.setDev { s1.dev with auxArmed := true } else s1

/-- Write of `PWR`: bit 7 resets the device (R72(b)). -/
def writePwr (v : Byte) (s : State) : State :=
  if v.getLsbD 7 then deviceReset s else storeReg 0#2 oPWR v s

/-- `DevWrite(o, v)` (20_memory.md R64, R72, R74). -/
def devWrite (o v : Byte) (s : State) : Except Refusal State :=
  if o = oBANKSEL then .ok (s.setDev { s.dev with banksel := v })
  else
    match regAt s.cfg s.bank o with
    | none => .error .undescribedRegister
    | some .ident => .error .readOnlyRegister
    | some .sensor => .error .readOnlyRegister
    | some .shadow => .error .readOnlyRegister
    | some .mstctl => .ok (writeMstctl v s)
    | some .pwr => .ok (writePwr v s)
    | some .ptCtrl => .ok (writePtCtrl v s)
    | some .lpcfg => .ok (storeReg s.bank o v s)
    | some .gyrocfg => .ok (storeReg s.bank o v s)
    | some .accelcfg => .ok (storeReg s.bank o v s)
    | some .auxodr => .ok (storeReg s.bank o v s)
    | some .auxmctl => .ok (storeReg s.bank o v s)
    | some .ptAddr => .ok (storeReg s.bank o v s)
    | some .ptReg => .ok (storeReg s.bank o v s)
    | some .ptDo => .ok (storeReg s.bank o v s)

/-! ### Reads -/

/-- `value(b, o)` of a described register (R64): stored, `WHOAMI_DEVICE`, a SENS draw, or `MSTCTL` with a drawn
bit 1 inside the master window (R196). -/
def readReg (r : RegName) (a : Nat) (s : State) : Byte × State :=
  match r with
  | .ident => (s.cfg.whoamiDevice, s)
  | .sensor => (s.sensByte, s.afterSens)
  | .mstctl =>
    if s.dev.mstSettling then ((s.reg a &&& 0xFD#8) ||| (s.drawByte &&& 0x02#8), s.afterDraw)
    else (s.reg a, s)
  | _ => (s.reg a, s)

/-- One byte at offset `o` of the current bank. -/
def readByte (o : Byte) (s : State) : Except Refusal (Byte × State) :=
  if o = oBANKSEL then .ok (s.dev.banksel, s)
  else
    match regAt s.cfg s.bank o with
    | none => .error .undescribedRegister
    | some r => .ok (readReg r (regAddr s.bank o) s)

/-- `n` bytes at consecutive offsets. -/
def readRun : Nat → Byte → State → Except Refusal (List Byte × State)
  | 0, _, s => .ok ([], s)
  | n + 1, o, s =>
    match readByte o s with
    | .error r => .error r
    | .ok (v, s1) =>
      match readRun n (o + 1#8) s1 with
      | .error r => .error r
      | .ok (vs, s2) => .ok (v :: vs, s2)

/-- A burst of `n` bytes from `o` lies inside one of the two data blocks of bank 0 (R66). -/
def burstOk (b : BitVec 2) (o : Byte) (n : Nat) : Bool :=
  decide (b = 0#2)
    && ((decide (0x2D#8 ≤ o) && decide (o.toNat + n ≤ 0x39)) || (decide (0x3B#8 ≤ o) && decide (o.toNat + n ≤ 0x43)))

/-- `DevRead(o, n)` (20_memory.md R64, R66, R73). -/
def devRead (o : Byte) (n : Nat) (s : State) : Except Refusal (List Byte × State) :=
  if n = 1 then readRun 1 o s
  else if n ≠ 0 ∧ burstOk s.bank o n then readRun n o s
  else .error .burstOutsideBlock

/-! ### Transactions (R61, R63, R84) -/

/-- How a transaction ends. -/
inductive TxnResult (α : Type) where
  | ok (a : α) (s : State)
  | failed (e : TErr) (s : State)
  | refused (r : Refusal)

/-- The answer the transport gives to the next transaction. -/
def State.txnAnswer (s : State) : TxnAnswer := (s.env.txn.next Config.freeTxn).1
def State.afterTxn (s : State) : State :=
  s.setEnv { s.env with txn := (s.env.txn.next Config.freeTxn).2 }

/-- The handle addresses the device (R84). -/
def State.addressed (s : State) : Bool := decide (addr7Of s.handle.addr8 = s.cfg.devAddr7)

/-- The next transaction fails: the transport says so, or no device answers (R63, R84). -/
def State.txnFails (s : State) : Bool := s.txnAnswer.fails || !s.addressed

/-- Record a transaction (R103). -/
def State.record (s : State) (t : Txn) : State := s.setTrace (s.trace ++ [t])

/-- `MemWrite(o, 1, v)`. -/
def memWrite (o v : Byte) (s : State) : TxnResult Unit :=
  if s.dev.devSettling then .refused .settleWindow
  else if s.txnFails then
    .failed s.txnAnswer.err (s.afterTxn.record (.w s.handle.addr8 o v (some s.txnAnswer.err)))
  else
    match devWrite o v s.afterTxn with
    | .error r => .refused r
    | .ok s1 => .ok () (s1.record (.w s.handle.addr8 o v none))

/-- `MemRead(o, n)`. -/
def memRead (o : Byte) (n : Nat) (s : State) : TxnResult (List Byte) :=
  if s.dev.devSettling then .refused .settleWindow
  else if s.txnFails then
    .failed s.txnAnswer.err (s.afterTxn.record (.r s.handle.addr8 o n [] (some s.txnAnswer.err)))
  else
    match devRead o n s.afterTxn with
    | .error r => .refused r
    | .ok (bytes, s1) => .ok bytes (s1.record (.r s.handle.addr8 o n bytes none))

end Sys2Proof.Machine
end

