-- ==== Sys2Proof/Machine/Flags.lean ====
section
/-! DEFINITION. The status register and the ghost driver state: the codes of 60_exceptions.md R231, the values
`STATUS` takes, and the transitions of `DRVSTATE` (41_device_driver.md R157). The block has no other flag. -/

namespace Sys2Proof.Machine

/-- The four errors of the taxonomy (R230). -/
inductive ErrKind where
  | busTransactionFailure
  | invalidArgument
  | identityMismatch
  | partialConfigurationFailure
deriving DecidableEq, Repr

/-- The error's code (R231). -/
def errCode : ErrKind → BitVec 4
  | .busTransactionFailure => 1#4
  | .invalidArgument => 2#4
  | .identityMismatch => 3#4
  | .partialConfigurationFailure => 4#4

/-- `STATUS` after success (R231). -/
def Status.ok : Status := ⟨0#4, 0#8, none⟩

/-- `STATUS` after `raise E(stage, cause)` (R236). -/
def Status.err (e : ErrKind) (stage : Nat) (cause : Option TErr) : Status :=
  ⟨errCode e, BitVec.ofNat 8 stage, cause⟩

/-- Which error a failing transaction raises: partial exactly when an earlier step of the same operation was a
successful write to an offset other than 0x7F (R233). -/
def busFail (dirty : Bool) : ErrKind :=
  if dirty then .partialConfigurationFailure else .busTransactionFailure

/-- In `Reset`, a successful operation moves the progress count from one of `froms` to `dest`; otherwise the
ghost state is unchanged (R157). -/
def drvAdvance (froms : List (Fin 5)) (dest : Fin 5) : DrvState → DrvState
  | .reset p => if p ∈ froms then .reset dest else .reset p
  | d => d

/-- AUXINIT at progress 3 yields `Configured` (R157). -/
def drvConfigured : DrvState → DrvState
  | .reset p => if p = 3 then .configured else .reset p
  | d => d

/-- The values `STATUS` can hold (table of R231): the stage and cause that go with each code. -/
def Status.legal (t : Status) : Bool :=
  if t.code = 0#4 then decide (t.stage = 0#8) && t.cause.isNone
  else if t.code = 1#4 then decide (1#8 ≤ t.stage) && decide (t.stage ≤ 28#8) && t.cause.isSome
  else if t.code = 2#4 then decide (t.stage = 0#8) && t.cause.isNone
  else if t.code = 3#4 then decide (t.stage = 2#8) && t.cause.isNone
  else if t.code = 4#4 then decide (3#8 ≤ t.stage) && decide (t.stage ≤ 28#8) && t.cause.isSome
  else false

end Sys2Proof.Machine
end

