-- ==== Sys2Proof/Machine/Ops.lean ====
section
/-! DEFINITION. The operations every meaning shares: raising an error and completing (60_exceptions.md R236,
40_bank_selector.md R130(5)), the step lists and their runner (00_scope.md R10, R130(4)), the template of an
operation (R130), and the command port. -/

namespace Sys2Proof.Machine

/-- What a meaning answers. -/
abbrev Result := Host.Outcome State Fault Refusal

/-- `raise E(stage, cause)`: `STATUS` is written and the block is idle; nothing else happens (R236). The return
from it is nothing: the idle block accepts the next command (R238). -/
def raise (e : ErrKind) (stage : Nat) (cause : Option TErr) (s : State) : State :=
  (s.setStatus (Status.err e stage cause)).setActivity .idle

/-- `raise InvalidArgument(0, none)` (R232). -/
def invalidArgument (s : State) : State := raise .invalidArgument 0 none s

/-- An operation that completes: the ghost state moves, `STATUS <- (0, 0, none)`, idle (R130(5), R157). -/
def complete (drv : DrvState → DrvState) (s : State) : State :=
  ((s.setDrv (drv s.drv)).setStatus Status.ok).setActivity .idle

/-! ### Step lists (00_scope.md R10) -/

/-- The bytes returned by the reads of the operation so far, oldest first. -/
abbrev Reads := List (List Byte)

/-- The bytes of read number `k` (from 0). -/
def readAt (rs : Reads) (k : Nat) : List Byte := rs.getD k []

/-- The first byte of read number `k`. -/
def readByteAt (rs : Reads) (k : Nat) : Byte := byteAt (readAt rs k) 0

/-- A step: one `MemWrite` whose byte may depend on bytes read before, one `MemRead`, or one `Delay`. -/
inductive Stage where
  | write (o : Byte) (v : Reads → Byte)
  | read (o : Byte) (n : Nat)
  | delay (ms : Nat)

/-- The step is a write to an offset other than 0x7F (60_exceptions.md R233). -/
def isConfigWrite : Stage → Bool
  | .write o _ => decide (o ≠ oBANKSEL)
  | .read _ _ => false
  | .delay _ => false

/-- One step: how it ends, and on success the bytes read so far (R61, 40_bank_selector.md R130(4), R133). -/
def stageStep (st : Stage) (rs : Reads) (s : State) : TxnResult Reads :=
  match st with
  | .write o v =>
    match memWrite o (v rs) s with
    | .refused r => .refused r
    | .failed e s1 => .failed e s1
    | .ok _ s1 => .ok rs s1
  | .read o n =>
    match memRead o n s with
    | .refused r => .refused r
    | .failed e s1 => .failed e s1
    | .ok bytes s1 => .ok (rs ++ [bytes]) s1
  | .delay ms =>
    match delayStep ms s with
    | .error r => .refused r
    | .ok s1 => .ok rs s1

/-- How a step list ends. -/
inductive RunResult where
  | done (s : State) (rs : Reads)
  | raised (s : State)
  | refused (r : Refusal)

/-- Run a step list from stage `k` on. `dirty`: an earlier step was a successful write to an offset other than
0x7F (R233). Before each step the engine may tick (R78). A failing transaction raises at once (R8, R236). -/
def runStages (op : Instr) : List Stage → Nat → Bool → Reads → State → RunResult
  | [], _, _, rs, s => .done s rs
  | st :: rest, k, dirty, rs, s =>
    match tickPoint (s.setActivity (.busy op k)) with
    | .error r => .refused r
    | .ok s1 =>
      match stageStep st rs s1 with
      | .refused r => .refused r
      | .failed e s2 => .raised (raise (busFail dirty) k (some e) s2)
      | .ok rs1 s2 => runStages op rest (k + 1) (dirty || isConfigWrite st) rs1 s2

/-- Run a whole step list and finish with `fin`, which writes the result registers and `STATUS` (R130(4), (5)). -/
def runOp (op : Instr) (stages : List Stage) (fin : Reads → State → State) (s : State) : Result :=
  match runStages op stages 1 false [] s with
  | .done s1 rs => .next (fin rs s1)
  | .raised s1 => .next s1
  | .refused r => .refused r

/-- The template of an operation that uses the bus (R130): handle check, argument checks, then the steps. -/
def busOp (op : Instr) (argsOk : Bool) (stages : List Stage) (fin : Reads → State → State) (s : State) : Result :=
  if s.handle.valid && argsOk then runOp op stages fin s else .next (invalidArgument s)

/-! ### Shared pieces of step lists -/

/-- The select write of bank `k` (40_bank_selector.md R131). -/
def selStage (bank : Byte) : Stage := .write oBANKSEL fun _ => selByte bank

/-- A write of a constant byte. -/
def putStage (o v : Byte) : Stage := .write o fun _ => v

/-- A read-modify-write of one register, the read being read number `k` of the operation (RMW). -/
def rmwStages (o : Byte) (k : Nat) (f : Byte → Byte) : List Stage :=
  [.read o 1, .write o fun rs => f (readByteAt rs k)]

/-- The step list of WRITEAUX (42_aux_bridge.md R170). -/
def writeAuxStages (c : Config) (target byte : Byte) : List Stage :=
  [selStage 3#8, putStage oPT_ADDR (ptAddrWrite c.magAddr7), putStage oPT_REG target,
    putStage oPT_DO byte, putStage oPT_CTRL (ptCtrlByte 1#8)]

/-- The step list of READAUX (R171). -/
def readAuxStages (c : Config) (target length : Byte) : List Stage :=
  [selStage 3#8, putStage oPT_ADDR (ptAddrRead c.magAddr7), putStage oPT_REG target,
    putStage oPT_CTRL (ptCtrlByte length)]

/-! ### The command port (10_state.md R30) -/

/-- The next action of the host, and the state with it taken. -/
def fetchHost (s : State) : Option (HostAction × State) :=
  match s.host with
  | [] => none
  | a :: rest => some (a, s.setHost rest)

/-- A host write of `FA` (R29). -/
def writeFA (v : Vec3 Flt) (s : State) : State := s.setFus { s.fus with fa := v }
/-- A host write of `FH` (R29). -/
def writeFH (v : Vec3 Flt) (s : State) : State := s.setFus { s.fus with fh := v }

/-- The ticks that may fall after a host action, before the next (R10, R78). -/
def thenTicks (r : Result) : Result :=
  match r with
  | .next s =>
    match tickPoint s with
    | .ok s1 => .next s1
    | .error e => .refused e
  | .fault f => .fault f
  | .refused e => .refused e

end Sys2Proof.Machine
end

