-- ==== Sys2Proof/Machine/AuxBridge.lean ====
section
/-! DEFINITION. Operation family 2: the auxiliary bridge, sequencer side (42_aux_bridge.md). -/

namespace Sys2Proof.Machine

/-- WRITEAUX (R170). -/
def execWriteAux (target byte : Byte) (s : State) : Result :=
  busOp (.writeAux target byte) true (writeAuxStages s.cfg target byte) (fun _ => complete id) s

/-- READAUX (R171): a length outside 1..8 is refused, after the handle check (log 16). -/
def execReadAux (target length : Byte) (s : State) : Result :=
  if s.handle.valid && !auxLenOk length then .refused .readAuxLength
  else busOp (.readAux target length) true (readAuxStages s.cfg target length) (fun _ => complete id) s

/-- The end of GETRAWMAG. -/
def finRawMag (rs : Reads) (s : State) : State :=
  complete id (s.setRes { s.res with
    magRaw := leTriple (readAt rs 0)
    magStat6 := byteAt (readAt rs 0) 6
    magStat7 := byteAt (readAt rs 0) 7 })

/-- GETRAWMAG (R172). -/
def execGetRawMag (s : State) : Result :=
  busOp .getRawMag true [selStage 0#8, .read oSHADOW 8] finRawMag s

/-- Stages 1 to 13 of AUXINIT (R173, parts (i) to (vi)). -/
def auxInitBringUp (c : Config) : List Stage :=
  (selStage 0#8 :: rmwStages oMSTCTL 0 mstReset)
    ++ [.delay c.tMstSettleMs]
    ++ (selStage 0#8 :: rmwStages oMSTCTL 1 mstEnable)
    ++ [selStage 3#8, putStage oAUXMCTL c.mstClkCode]
    ++ [selStage 0#8, putStage c.lpConfigOffset c.lpConfigValue]
    ++ [selStage 3#8, putStage oAUXODR c.mstOdrCode]

/-- The 28 stages of AUXINIT (R173). -/
def auxInitStages (c : Config) : List Stage :=
  auxInitBringUp c
    ++ writeAuxStages c c.magRegSrst magSrstByte
    ++ [.delay c.tMagResetMs]
    ++ writeAuxStages c c.magRegMode magModeByte
    ++ readAuxStages c c.magRegXl magBlockLen

/-- AUXINIT (R173). A clashing `LP_CONFIG_OFFSET` is refused (10_state.md R36, log 12). -/
def execAuxInit (s : State) : Result :=
  if s.handle.valid && !lpOffsetOk s.cfg then .refused .lpOffsetClash
  else busOp .auxInit true (auxInitStages s.cfg) (fun _ => complete drvConfigured) s

end Sys2Proof.Machine
end

