-- ==== Sys2Proof/Machine/BankSelector.lean ====
section
/-! DEFINITION. Operation family 0: SELECTBANK and DELAY (40_bank_selector.md). -/

namespace Sys2Proof.Machine

/-- SELECTBANK (R132). -/
def execSelectBank (bank : Byte) (s : State) : Result :=
  busOp (.selectBank bank) (bankOk bank) [selStage bank] (fun _ => complete id) s

/-- DELAY (R133): needs no handle, cannot fail. -/
def execDelay (ms : BitVec 16) (s : State) : Result :=
  runOp (.delay ms) [.delay ms.toNat] (fun _ => complete id) s

end Sys2Proof.Machine
end

