-- ==== Sys2Proof/Machine/Driver.lean ====
section
/-! DEFINITION. Operation family 1: the device driver (41_device_driver.md). -/

namespace Sys2Proof.Machine

/-! ### Handle -/

/-- CREATE (R140): the handle check comes before the operand check (60_exceptions.md R239). -/
def execCreate (bus addr7 : Byte) (s : State) : Result :=
  if s.handle.valid then .next (invalidArgument s)
  else if addr7Ok addr7 then
    .next (complete (fun _ => .unconfigured) (s.setHandle ⟨true, bus, handleAddr8 addr7⟩))
  else .next (invalidArgument s)

/-- RELEASE (R141). -/
def execRelease (s : State) : Result :=
  if s.handle.valid then
    .next (complete (fun _ => .noHandle) (s.setHandle { s.handle with valid := false }))
  else .next (invalidArgument s)

/-! ### Power and identity -/

/-- RESET (R142). -/
def execReset (s : State) : Result :=
  busOp .reset true (selStage 0#8 :: rmwStages oPWR 0 pwrReset) (fun _ => complete fun _ => .reset 0) s

/-- WAKE (R143). -/
def execWake (s : State) : Result :=
  busOp .wake true (selStage 0#8 :: rmwStages oPWR 0 pwrWake) (fun _ => complete (drvAdvance [0] 1)) s

/-- SLEEP (R144). -/
def execSleep (s : State) : Result :=
  busOp .sleep true (selStage 0#8 :: rmwStages oPWR 0 pwrSleep) (fun _ => complete id) s

/-- The end of GETDEVICEID: `RES_BYTE` is written before the comparison (R145). -/
def finDeviceId (rs : Reads) (s : State) : State :=
  let s1 := s.setRes { s.res with resByte := readByteAt rs 0 }
  if readByteAt rs 0 = s.cfg.whoamiExpected then complete (drvAdvance [1] 2) s1
  else raise .identityMismatch 2 none s1

/-- GETDEVICEID (R145). -/
def execGetDeviceId (s : State) : Result :=
  busOp .getDeviceId true [selStage 0#8, .read oIDENT 1] finDeviceId s

/-! ### Range and filter configuration -/

/-- SETGYROFS (R146). -/
def execSetGyroFs (fs : Byte) (s : State) : Result :=
  busOp (.setGyroFs fs) (fsOk fs) (selStage 2#8 :: rmwStages oGYROCFG 0 fun v => insFs v fs)
    (fun _ => complete (drvAdvance [2, 3] 3)) s

/-- The end of GETGYROFS and GETACCELFS. -/
def finFs (rs : Reads) (s : State) : State :=
  complete id (s.setRes { s.res with resFs := extFs (readByteAt rs 0) })

/-- GETGYROFS (R147). -/
def execGetGyroFs (s : State) : Result :=
  busOp .getGyroFs true [selStage 2#8, .read oGYROCFG 1] finFs s

/-- SETACCELFS (R148). -/
def execSetAccelFs (fs : Byte) (s : State) : Result :=
  busOp (.setAccelFs fs) (fsOk fs) (selStage 2#8 :: rmwStages oACCELCFG 0 fun v => insFs v fs)
    (fun _ => complete (drvAdvance [2, 3] 3)) s

/-- GETACCELFS (R149). -/
def execGetAccelFs (s : State) : Result :=
  busOp .getAccelFs true [selStage 2#8, .read oACCELCFG 1] finFs s

/-- SETDLPF (R150). -/
def execSetDlpf (sensor cutoff : Byte) (s : State) : Result :=
  busOp (.setDlpf sensor cutoff) (dlpfOk sensor cutoff)
    (selStage 2#8 :: rmwStages (dlpfOffset sensor) 0 fun v => insCut v cutoff) (fun _ => complete id) s

/-- ENABLEDLPF (R151): accelerometer first, then gyroscope, one select. -/
def execEnableDlpf (en : Byte) (s : State) : Result :=
  busOp (.enableDlpf en) (enOk en)
    (selStage 2#8 :: (rmwStages oACCELCFG 0 (fun v => insEn v en) ++ rmwStages oGYROCFG 1 fun v => insEn v en))
    (fun _ => complete id) s

/-! ### Sensor reads -/

/-- The end of GETRAWACCEL. -/
def finRawAccel (rs : Reads) (s : State) : State :=
  complete id (s.setRes { s.res with accRaw := beTriple (readAt rs 0) })

/-- GETRAWACCEL (R152). -/
def execGetRawAccel (s : State) : Result :=
  busOp .getRawAccel true [selStage 0#8, .read s.cfg.accelBase 6] finRawAccel s

/-- The end of GETRAWGYRO. -/
def finRawGyro (rs : Reads) (s : State) : State :=
  complete id (s.setRes { s.res with gyrRaw := beTriple (readAt rs 0) })

/-- GETRAWGYRO (R153). -/
def execGetRawGyro (s : State) : Result :=
  busOp .getRawGyro true [selStage 0#8, .read s.cfg.gyroBase 6] finRawGyro s

/-- The end of GETACCEL (R154). -/
def finAccel (rs : Reads) (s : State) : State :=
  complete id (s.setRes { s.res with
    resFs := extFs (readByteAt rs 0)
    accRaw := beTriple (readAt rs 1)
    accSc := scaled (beTriple (readAt rs 1)) (accelDiv (extFs (readByteAt rs 0))) })

/-- GETACCEL (R154): the leading select of bank 0 is kept (90_conflicts.md C10). -/
def execGetAccel (s : State) : Result :=
  busOp .getAccel true
    [selStage 0#8, selStage 2#8, .read oACCELCFG 1, selStage 0#8, .read s.cfg.accelBase 6] finAccel s

/-- The end of GETGYRO (R155). -/
def finGyro (rs : Reads) (s : State) : State :=
  complete id (s.setRes { s.res with
    resFs := extFs (readByteAt rs 0)
    gyrRaw := beTriple (readAt rs 1)
    gyrSc := scaled (beTriple (readAt rs 1)) (gyroDiv (extFs (readByteAt rs 0))) })

/-- GETGYRO (R155). -/
def execGetGyro (s : State) : Result :=
  busOp .getGyro true
    [selStage 0#8, selStage 2#8, .read oGYROCFG 1, selStage 0#8, .read s.cfg.gyroBase 6] finGyro s

end Sys2Proof.Machine
end

