-- ==== Sys2Proof/Machine/FusionUnit.lean ====
section
/-! DEFINITION. Operation family 3: the fusion unit (44_fusion.md), in the evaluation order of R212. -/

namespace Sys2Proof.Machine

/-- `add(add(t1, t2), t3)` (R212). -/
def sum3 (t1 t2 t3 : Flt) : Flt := NUM.add (NUM.add t1 t2) t3

/-- `deg(x) = div(mul(x, lit 180), pi)` (R212). -/
def deg (x : Flt) : Flt := NUM.div (NUM.mul x (NUM.lit ⟨180, 0⟩)) NUM.pi

/-- A component `p·q - r·s` of a cross product (R212). -/
def crossTerm (p q r s : Flt) : Flt := NUM.sub (NUM.mul p q) (NUM.mul r s)

/-- `cross(U, V)` (R215). -/
def cross (u v : Vec3 Flt) : Vec3 Flt :=
  ⟨crossTerm u.y v.z u.z v.y, crossTerm u.z v.x u.x v.z, crossTerm u.x v.y u.y v.x⟩

/-- `dot(U, V)` (R215). -/
def dot (u v : Vec3 Flt) : Flt := sum3 (NUM.mul u.x v.x) (NUM.mul u.y v.y) (NUM.mul u.z v.z)

/-- `norm(U) = sqrt(dot(U, U))` (R215). -/
def norm (u : Vec3 Flt) : Flt := NUM.sqrt (dot u u)

/-- The numbers the components stand for; none if a component is not finite (R214, R217(g)). -/
def Vec3.values? (u : Vec3 Flt) : Option (Vec3 ℚ) :=
  match u.x.value?, u.y.value?, u.z.value? with
  | some x, some y, some z => some ⟨x, y, z⟩
  | _, _, _ => none

/-- The value is finite and its number is 0. -/
def Flt.isZero (x : Flt) : Bool := decide (x.value? = some 0)

/-- The value is finite and its number lies in [-1, 1] (R217(f)). -/
def Flt.inUnit (x : Flt) : Bool :=
  match x.value? with
  | some q => decide (-1 ≤ q) && decide (q ≤ 1)
  | none => false

/-- The exact cross product of R215. -/
def exactCross (u v : Vec3 ℚ) : Vec3 ℚ := ⟨u.y * v.z - u.z * v.y, u.z * v.x - u.x * v.z, u.x * v.y - u.y * v.x⟩

/-- `sqrt(Ax² + Ay²)` (R213). -/
def elevH (a : Vec3 Flt) : Flt := NUM.sqrt (NUM.add (NUM.mul a.x a.x) (NUM.mul a.y a.y))

/-- The elevation of `a` (R213), for each `ELEV_VARIANT`. -/
def elevFormula (v : ElevVariant) (a : Vec3 Flt) : Flt :=
  match v with
  | .formula => NUM.add (deg (NUM.neg (NUM.atan2 a.z (elevH a)))) (NUM.lit ⟨90, 0⟩)
  | .vectors => NUM.add (deg (NUM.atan2 a.z (elevH a))) (NUM.lit ⟨90, 0⟩)

/-- The inputs for which the elevation is a draw (R214): a component that is not finite, or the zero vector. -/
def elevDegenerate (a : Vec3 Flt) : Bool :=
  match Vec3.values? a with
  | some p => decide (p = ⟨0, 0, 0⟩)
  | none => true

/-- The normalizer's denominator `norm(C) · m` (R216). -/
def azimDenominator (r a h : Vec3 Flt) : Flt := NUM.mul (norm (cross a h)) (norm r)

/-- The normalizer `q = d / (norm(C) · m)` (R216). -/
def azimQ (r a h : Vec3 Flt) : Flt := NUM.div (dot (cross a h) r) (azimDenominator r a h)

/-- The azimuth (R216). No clamp and no signed reformulation (R217(f), R218). -/
def azimFormula (r a h : Vec3 Flt) : Flt := deg (NUM.acos (azimQ r a h))

/-- `norm(C) · m = 0` in the reals (R217(e)): the cross vector is zero, which it is exactly when `A` or `H` is zero or
they are parallel, or the reference axis is zero. -/
def azimUndefined (axis : Vec3 Dec) (a h : Vec3 ℚ) : Bool :=
  decide (exactCross a h = ⟨0, 0, 0⟩) || decide (axis.map Dec.value = ⟨0, 0, 0⟩)

/-- The inputs for which the azimuth is a draw: (e) the quotient is not defined, in the reals or because the rounded
denominator is 0 (log 11); (f) the machine's quotient lies outside [-1, 1]; (g) a component is not finite (R217). -/
def azimDegenerate (axis : Vec3 Dec) (a h : Vec3 Flt) : Bool :=
  match Vec3.values? a, Vec3.values? h with
  | some p, some q =>
    azimUndefined axis p q || Flt.isZero (azimDenominator (axis.map NUM.lit) a h)
      || !Flt.inUnit (azimQ (axis.map NUM.lit) a h)
  | _, _ => true

/-- `REF_AXIS` as `FLOAT` values (P18). -/
def refAxis (c : Config) : Vec3 Flt := c.refAxis.map NUM.lit

/-- The next drawn `FLOAT` (U16). -/
def State.drawFlt (s : State) : Flt := (s.env.fdraw.next Config.freeFlt).1
def State.afterFdraw (s : State) : State :=
  s.setEnv { s.env with fdraw := (s.env.fdraw.next Config.freeFlt).2 }

/-- ELEVATION (R213): no handle, no transaction, cannot fail (R210). One draw is taken and used only for a
degenerate input (log 9). -/
def execElevation (s : State) : Result :=
  .next (complete id (s.afterFdraw.setFus { s.fus with
    elev := if elevDegenerate s.fus.fa then s.drawFlt else elevFormula s.cfg.elevVariant s.fus.fa }))

/-- AZIMUTH (R216): no handle, no transaction, cannot fail (R210). One draw is taken and used only for a
degenerate input (log 9). -/
def execAzimuth (s : State) : Result :=
  .next (complete id (s.afterFdraw.setFus { s.fus with
    azim := if azimDegenerate s.cfg.refAxis s.fus.fa s.fus.fh then s.drawFlt
      else azimFormula (refAxis s.cfg) s.fus.fa s.fus.fh }))

end Sys2Proof.Machine
end

