-- ==== Sys2Proof/Machine/Dispatch.lean ====
section
/-! DEFINITION. One arm per operation. -/

namespace Sys2Proof.Machine

def exec (i : Instr) (s : State) : Host.Outcome State Fault Refusal :=
  match i with
  | .selectBank bank => Sys2Proof.Machine.execSelectBank bank s
  | .delay ms => Sys2Proof.Machine.execDelay ms s
  | .create bus addr7 => Sys2Proof.Machine.execCreate bus addr7 s
  | .release => Sys2Proof.Machine.execRelease s
  | .reset => Sys2Proof.Machine.execReset s
  | .wake => Sys2Proof.Machine.execWake s
  | .sleep => Sys2Proof.Machine.execSleep s
  | .getDeviceId => Sys2Proof.Machine.execGetDeviceId s
  | .setGyroFs fs => Sys2Proof.Machine.execSetGyroFs fs s
  | .getGyroFs => Sys2Proof.Machine.execGetGyroFs s
  | .setAccelFs fs => Sys2Proof.Machine.execSetAccelFs fs s
  | .getAccelFs => Sys2Proof.Machine.execGetAccelFs s
  | .setDlpf sensor cutoff => Sys2Proof.Machine.execSetDlpf sensor cutoff s
  | .enableDlpf en => Sys2Proof.Machine.execEnableDlpf en s
  | .getRawAccel => Sys2Proof.Machine.execGetRawAccel s
  | .getRawGyro => Sys2Proof.Machine.execGetRawGyro s
  | .getAccel => Sys2Proof.Machine.execGetAccel s
  | .getGyro => Sys2Proof.Machine.execGetGyro s
  | .writeAux target byte => Sys2Proof.Machine.execWriteAux target byte s
  | .readAux target length => Sys2Proof.Machine.execReadAux target length s
  | .getRawMag => Sys2Proof.Machine.execGetRawMag s
  | .auxInit => Sys2Proof.Machine.execAuxInit s
  | .elevation => Sys2Proof.Machine.execElevation s
  | .azimuth => Sys2Proof.Machine.execAzimuth s

end Sys2Proof.Machine
end

