-- ==== Sys2Proof/Machine/Step.lean ====
section
/-! DEFINITION. One step of the machine: the idle block takes the host's next action and performs it whole, then
the engine may tick (10_state.md R30, 40_bank_selector.md R130; log 1, log 2, log 5). -/

namespace Sys2Proof.Machine

/-- A command word presented to the idle block: decoded and executed; an undefined word raises
`InvalidArgument(0, none)` with no transaction (30_encoding.md R102). -/
def execWord (w : CmdWord) (s : State) : Host.Outcome State Fault Refusal :=
  match decode w with
  | .ok i => exec i s
  | .error _ => .next (invalidArgument s)

/-- A host action. -/
def execAction (a : HostAction) (s : State) : Host.Outcome State Fault Refusal :=
  match a with
  | .command w => execWord w s
  | .writeFA v => .next (writeFA v s)
  | .writeFH v => .next (writeFH v s)

/-- One step. A busy block is refused: two overlapping operations have no meaning (20_memory.md R81). With no
pending action the host waits, and only the engine acts (70_reset_and_hazards.md R277). -/
def step (s : State) : Host.Outcome State Fault Refusal :=
  match s.activity with
  | .busy _ _ => .refused .overlappingOperation
  | .idle =>
    match fetchHost s with
    | none => thenTicks (.next s)
    | some (a, s1) => thenTicks (execAction a s1)

/-- The state in which the host's next action is the command word of a table word, and the block is idle. -/
def State.withFetchWord (s : State) (nbits w : Nat) : State :=
  (s.setActivity .idle).setHost (.command (tableWord nbits w) :: s.host)

end Sys2Proof.Machine
end

