-- ==== Sys2Proof/Safety.lean ====
section
/-! DEFINITION. The terms claims are stated in: which operations use the bus, the conditions under which an
operation completes, what an operation leaves alone, and the invariant of the machine. -/

namespace Sys2Proof.Machine

/-! ### Operations -/

/-- The operations that use the bus: all except DELAY, CREATE, RELEASE, ELEVATION and AZIMUTH
(40_bank_selector.md R130). -/
def usesBus : Instr → Bool
  | .selectBank _ => true
  | .delay _ => false
  | .create _ _ => false
  | .release => false
  | .reset => true
  | .wake => true
  | .sleep => true
  | .getDeviceId => true
  | .setGyroFs _ => true
  | .getGyroFs => true
  | .setAccelFs _ => true
  | .getAccelFs => true
  | .setDlpf _ _ => true
  | .enableDlpf _ => true
  | .getRawAccel => true
  | .getRawGyro => true
  | .getAccel => true
  | .getGyro => true
  | .writeAux _ _ => true
  | .readAux _ _ => true
  | .getRawMag => true
  | .auxInit => true
  | .elevation => false
  | .azimuth => false

/-- The operation is admitted: its operands are legal and, for AUXINIT, `LP_CONFIG_OFFSET` does not clash
(10_state.md R36). -/
def admitted (c : Config) (i : Instr) : Bool :=
  i.wf && (if i = .auxInit then lpOffsetOk c else true)

/-! ### When an operation completes -/

/-- The next `n` answers of the transport are ok. -/
def allOk : Nat → Oracle TxnAnswer → Bool
  | 0, _ => true
  | n + 1, o => !(o.next Config.freeTxn).1.fails && allOk n (o.next Config.freeTxn).2

/-- There is a handle for the device, the device is outside its settle window, and the next `n` transactions
return ok. -/
def State.ready (n : Nat) (s : State) : Bool :=
  s.handle.valid && s.addressed && !s.dev.devSettling && allOk n s.env.txn

/-- No tick the engine may take now is refused (43_aux_engine.md R191, R200). -/
def State.calm (s : State) : Bool := !s.tickEnabled || !s.ptEn || !s.refusedConfig

/-- The values the sequencer's operations leave in `PT_CTRL`: off, or enabled with a length of 1 to 8. -/
def channelLegal (v : Byte) : Bool := decide (v = 0#8) || (decide (0x81#8 ≤ v) && decide (v ≤ 0x88#8))

/-- Turning the channel to writing cannot make a tick refused: it is off, its length is 1, or no write is due
(70_reset_and_hazards.md R268(a), (d), (e)). -/
def State.writeTurnSafe (s : State) : Bool := !s.ptEn || decide (s.ptLen = 1) || !s.writeDue

/-! ### Transaction records that returned ok (30_encoding.md R103) -/

/-- `W(o, v)`, with the handle's address byte. -/
def State.okW (s : State) (o v : Byte) : Txn := .w s.handle.addr8 o v none

/-- `R(o, n) -> bytes`, with the handle's address byte. -/
def State.okR (s : State) (o : Byte) (n : Nat) (bytes : List Byte) : Txn := .r s.handle.addr8 o n bytes none

/-- The next `n` bytes the SENS oracle supplies (10_state.md R37). -/
def State.sensBytes (s : State) (n : Nat) : List Byte := (s.env.sens.take Config.freeSens n).1

/-- The stored shadow bytes (10_state.md R38). -/
def State.shadow (s : State) : List Byte := Memory.getRun s.dev.regs aSHADOW 8

/-! ### What is left alone -/

/-- The addresses of `SHADOW[0..7]`. -/
def shadowAddrs : List Nat :=
  [aSHADOW, aSHADOW + 1, aSHADOW + 2, aSHADOW + 3, aSHADOW + 4, aSHADOW + 5, aSHADOW + 6, aSHADOW + 7]

/-- The addresses the engine may write on its own: the shadow block while ticks can happen, otherwise none. -/
def State.engineAddrs (s : State) : List Nat := if s.tickEnabled then shadowAddrs else []

/-- The stored registers an operation may write, whatever its outcome (10_state.md R34 to R46, and
70_reset_and_hazards.md R261 for RESET). -/
def writtenAddrs (c : Config) : Instr → List Nat
  | .reset => resetAddrs c
  | .wake => [aPWR]
  | .sleep => [aPWR]
  | .setGyroFs _ => [aGYROCFG]
  | .setAccelFs _ => [aACCELCFG]
  | .setDlpf sensor _ => [regAddr 2#2 (dlpfOffset sensor)]
  | .enableDlpf _ => [aACCELCFG, aGYROCFG]
  | .writeAux _ _ => [aPT_ADDR, aPT_REG, aPT_DO, aPT_CTRL]
  | .readAux _ _ => [aPT_ADDR, aPT_REG, aPT_CTRL]
  | .auxInit => [aMSTCTL, aAUXMCTL, aLPCFG c, aAUXODR, aPT_ADDR, aPT_REG, aPT_DO, aPT_CTRL]
  | .selectBank _ => []
  | .delay _ => []
  | .create _ _ => []
  | .release => []
  | .getDeviceId => []
  | .getGyroFs => []
  | .getAccelFs => []
  | .getRawAccel => []
  | .getRawGyro => []
  | .getAccel => []
  | .getGyro => []
  | .getRawMag => []
  | .elevation => []
  | .azimuth => []

/-- The addresses the engine may write during an operation: those of `engineAddrs`, and for AUXINIT, which
enables the engine, the shadow block. -/
def engineAddrsDuring (s : State) (i : Instr) : List Nat :=
  if i = .auxInit then shadowAddrs else s.engineAddrs

/-- The ghost state after an operation that ends with code 0 (41_device_driver.md R157): every pair not listed keeps it. -/
def drvAfter : Instr → DrvState → DrvState
  | .create _ _, _ => .unconfigured
  | .release, _ => .noHandle
  | .reset, _ => .reset 0
  | .wake, .reset p => if p = 0 then .reset 1 else .reset p
  | .getDeviceId, .reset p => if p = 1 then .reset 2 else .reset p
  | .setGyroFs _, .reset p => if p = 2 ∨ p = 3 then .reset 3 else .reset p
  | .setAccelFs _, .reset p => if p = 2 ∨ p = 3 then .reset 3 else .reset p
  | .auxInit, .reset p => if p = 3 then .configured else .reset p
  | _, d => d

/-- The result registers an operation leaves alone, whatever its outcome (10_state.md R26 to R28). -/
def resKept : Instr → Results → Results → Prop
  | .getDeviceId, r, r' => r' = { r with resByte := r'.resByte }
  | .getGyroFs, r, r' => r' = { r with resFs := r'.resFs }
  | .getAccelFs, r, r' => r' = { r with resFs := r'.resFs }
  | .getRawAccel, r, r' => r' = { r with accRaw := r'.accRaw }
  | .getRawGyro, r, r' => r' = { r with gyrRaw := r'.gyrRaw }
  | .getAccel, r, r' => r' = { r with resFs := r'.resFs, accRaw := r'.accRaw, accSc := r'.accSc }
  | .getGyro, r, r' => r' = { r with resFs := r'.resFs, gyrRaw := r'.gyrRaw, gyrSc := r'.gyrSc }
  | .getRawMag, r, r' => r' = { r with magRaw := r'.magRaw, magStat6 := r'.magStat6, magStat7 := r'.magStat7 }
  | .selectBank _, r, r' => r' = r
  | .delay _, r, r' => r' = r
  | .create _ _, r, r' => r' = r
  | .release, r, r' => r' = r
  | .reset, r, r' => r' = r
  | .wake, r, r' => r' = r
  | .sleep, r, r' => r' = r
  | .setGyroFs _, r, r' => r' = r
  | .setAccelFs _, r, r' => r' = r
  | .setDlpf _ _, r, r' => r' = r
  | .enableDlpf _, r, r' => r' = r
  | .writeAux _ _, r, r' => r' = r
  | .readAux _ _, r, r' => r' = r
  | .auxInit, r, r' => r' = r
  | .elevation, r, r' => r' = r
  | .azimuth, r, r' => r' = r

/-- The sequencer's side is as before: configuration, pending host actions, handle and fusion registers. -/
structure SameSequencer (s t : State) : Prop where
  cfg : t.cfg = s.cfg
  host : t.host = s.host
  handle : t.handle = s.handle
  fus : t.fus = s.fus

/-- The channel has not been armed, and if it was disarmed a transfer was performed (43_aux_engine.md R195). -/
structure ArmedKept (s t : State) : Prop where
  arm : t.dev.auxArmed = true → s.dev.auxArmed = true
  disarm : s.dev.auxArmed = true → t.dev.auxArmed = false → s.hist.length < t.hist.length

/-- The device is as before, but for the registers at `written` and what the engine does on its own: every other
register reads as before, the windows are as before, the channel, unless `PT_CTRL` is written, has not been armed and
was disarmed only by a transfer, and with the engine off no transfer happened. -/
structure SameDeviceBut (written : List Nat) (s t : State) : Prop where
  armed : aPT_CTRL ∉ written → ArmedKept s t
  regs : ∀ a, a ∉ written → a ∉ s.engineAddrs → t.reg a = s.reg a
  devSettling : t.dev.devSettling = s.dev.devSettling
  mstSettling : t.dev.mstSettling = s.dev.mstSettling
  engineOff : s.tickEnabled = false → t.hist = s.hist ∧ t.mag = s.mag ∧ t.dev.age = s.dev.age ∧
    t.dev.tickNo = s.dev.tickNo

/-- All of the device, the auxiliary target, the traces and the oracles but the fusion draws are as before. -/
structure SameBus (s t : State) : Prop where
  dev : t.dev = s.dev
  mag : t.mag = s.mag
  trace : t.trace = s.trace
  hist : t.hist = s.hist
  txn : t.env.txn = s.env.txn
  sched : t.env.sched = s.env.sched
  sens : t.env.sens = s.env.sens
  aux : t.env.aux = s.env.aux
  draw : t.env.draw = s.env.draw

/-! ### The invariant -/

/-- The target's array, if it is the test double, is canonical. -/
def AuxTarget.wf : AuxTarget → Bool
  | .oracle => true
  | .double t => Memory.wf t

/-- What every step keeps. -/
structure State.Inv (s : State) : Prop where
  /-- Between steps the block is idle (10_state.md R30). -/
  idle : s.activity = .idle
  /-- The register memory is in canonical form. -/
  regsWf : Memory.wf s.dev.regs = true
  /-- Only described registers are stored (R47). -/
  described : ∀ c ∈ s.dev.regs, c.1 ∈ resetAddrs s.cfg
  magWf : s.mag.wf = true
  /-- The self-clearing bits read 0 (R34, R35). -/
  devRst : (s.reg aPWR).getLsbD 7 = false
  mstRst : (s.reg aMSTCTL).getLsbD 1 = false
  /-- `PT_CTRL` holds only what WRITEAUX, READAUX and the device reset leave in it (43_aux_engine.md R200). -/
  channel : channelLegal (s.reg aPT_CTRL) = true
  /-- `addr8[0] = 0` always (R23). -/
  addr8 : s.handle.addr8.getLsbD 0 = false
  /-- `DRVSTATE` is NoHandle exactly without a handle (41_device_driver.md R157). -/
  drv : s.drv = .noHandle ↔ s.handle.valid = false
  /-- `STATUS` holds a value of the table of 60_exceptions.md R231. -/
  status : s.status.legal = true

end Sys2Proof.Machine
end

