-- ==== Sys2Proof/Certificates/Slice0/Obligations.lean ====
section
/-! DEFINITION. The statements for the provers. Each docstring names the rules of spec/ it formalises. Most rules of
spec/ are marked there as decisions of the spec itself (92_eei_decisions.md), where the source document is silent: a
statement that rests on one has basis 'derived' and OBLIGATIONS.json names the decision D<n>; where one rests on a
choice of this model, its docstring names the log entry. -/

open Sys2Proof Sys2Proof.Machine

/-! ### Encoding -/

/-- Decoding an encoded instruction gives it back, with every operand at every value (30_encoding.md R100, R114). -/
def Obligations.DecodeOfEncodeIsIdentity : Prop :=
  ∀ i : Instr, decode (encode i) = .ok i

/-- Each word that decodes is the encoding of what it decodes to (R100, R101). -/
def Obligations.EncodeOfDecodeIsIdentity : Prop :=
  ∀ (w : CmdWord) (i : Instr), decode w = .ok i → encode i = w

/-- R102: every 24-bit word matches exactly one row of the opcode table, whose operation the decoder reads, or
none, and then it raises InvalidArgument(0, none) with no transaction. -/
def Obligations.DecodingFollowsTheOpcodeTable : Prop :=
  ∀ w : CmdWord,
    (∃ i r, decode w = .ok i ∧ r ∈ opcodeTable ∧ r.matches w = true ∧ r.mnemonic = i.mnemonic ∧
      ∀ r', r' ∈ opcodeTable → r'.matches w = true → r' = r) ∨
    ((∀ r, r ∈ opcodeTable → r.matches w = false) ∧ (∃ e, decode w = .error e) ∧
      ∀ s : State, ∃ t, execWord w s = .next t ∧ t.status = ⟨2#4, 0#8, none⟩ ∧ t.trace = s.trace ∧
        t.dev = s.dev ∧ t.res = s.res ∧ t.handle = s.handle)

/-- Words written out from the encodings of R114 decode to the operations they stand for (R114, and the
vectors of 95_test_vectors.md 2.1 to 2.4). -/
def Obligations.WrittenOutWordsDecode : Prop :=
  decode 0b000000010000001000000000#24 = .ok (.selectBank 2#8) ∧
  decode 0b000000100000000000001010#24 = .ok (.delay 10#16) ∧
  decode 0b000100000000000001101000#24 = .ok (.create 0#8 0x68#8) ∧
  decode 0b000110100000000100000011#24 = .ok (.setDlpf 1#8 3#8) ∧
  decode 0b001000000011000100001000#24 = .ok (.writeAux 0x31#8 0x08#8) ∧
  decode 0b001000010001000100001000#24 = .ok (.readAux 0x11#8 8#8) ∧
  decode 0b001100010000000000000000#24 = .ok .azimuth ∧
  decode 0b000000010000001000000001#24 = .error (.nonzeroUnusedField 1#8) ∧
  decode 0b001001000000000000000000#24 = .error (.undefinedOpcode 0x24#8)

/-! ### The step -/

/-- A step of the idle block whose next host action is a command word that decodes to `i` is `exec i` with the
action taken, followed by the ticks that may fall before the next action (40_bank_selector.md R130). That an operation
is one step, that pending actions are a list, and where ticks are placed are the model's choices (logs 1, 2, 5). -/
def Obligations.StepRunsDecodedInstruction : Prop :=
  ∀ (s : State) (w : CmdWord) (rest : List HostAction) (i : Instr), s.activity = .idle →
    s.host = .command w :: rest → decode w = .ok i → step s = thenTicks (exec i (s.setHost rest))

/-- The other steps: operand-port writes (10_state.md R29), waiting (70_reset_and_hazards.md R277), and the busy
block, to which no further command has a meaning (20_memory.md R81; that the model refuses it is log 31). -/
def Obligations.StepTakesOtherHostActions : Prop :=
  ∀ (s : State) (rest : List HostAction) (v : Vec3 Flt),
    (s.activity = .idle → s.host = .writeFA v :: rest →
      step s = thenTicks (.next ((s.setHost rest).setFus { s.fus with fa := v }))) ∧
    (s.activity = .idle → s.host = .writeFH v :: rest →
      step s = thenTicks (.next ((s.setHost rest).setFus { s.fus with fh := v }))) ∧
    (s.activity = .idle → s.host = [] → step s = thenTicks (.next s)) ∧
    (∀ op k, s.activity = .busy op k → step s = .refused .overlappingOperation)

/-- The values block reset fixes, for every configuration (70_reset_and_hazards.md R263, 10_state.md R50). -/
def Obligations.ResetFixesTheStatedValues : Prop :=
  ∀ c : Config, (State.resetFor c).cfg = c ∧ (State.resetFor c).activity = .idle ∧
    (State.resetFor c).handle.valid = false ∧ (State.resetFor c).status = ⟨0#4, 0#8, none⟩ ∧
    (State.resetFor c).drv = .noHandle ∧ (State.resetFor c).mstEn = false ∧
    ((State.resetFor c).reg aMSTCTL).getLsbD 1 = false ∧ ((State.resetFor c).reg aPWR).getLsbD 7 = false ∧
    (State.resetFor c).reg aPT_CTRL = 0#8 ∧ (State.resetFor c).dev.auxArmed = false ∧
    (State.resetFor c).dev.devSettling = false ∧ (State.resetFor c).dev.mstSettling = false

/-- The invariant holds after block reset, whatever the configuration. -/
def Obligations.ResetMeetsTheInvariant : Prop :=
  State.reset.Inv ∧ ∀ c : Config, (State.resetFor c).Inv

/-- The invariant is kept by every step, from every state that meets it. -/
def Obligations.EveryStepKeepsTheInvariant : Prop :=
  ∀ s t : State, s.Inv → step s = .next t → t.Inv

/-- No step changes the configuration, and the transaction trace and the auxiliary history only grow
(00_scope.md R4, 30_encoding.md R103, 43_aux_engine.md R197); that both are kept from reset on is log 20. -/
def Obligations.EveryStepKeepsConfigAndPast : Prop :=
  ∀ s t : State, step s = .next t → t.cfg = s.cfg ∧ s.trace <+: t.trace ∧ s.hist <+: t.hist

/-- Every operation ends idle with a status of the table of 60_exceptions.md R231, and none ends in a fault
(93_implementation_defined.md U24); that the whole operation is one call of exec is log 1. -/
def Obligations.EveryOperationEndsIdleWithTableStatus : Prop :=
  ∀ (i : Instr) (s : State), (∀ t, exec i s = .next t → t.activity = .idle ∧ t.status.legal = true) ∧
    ∀ f, exec i s ≠ .fault f

/-! ### Whole-machine rules -/

/-- R25: no operation reads STATUS as an input, and every operation writes it. -/
def Obligations.StatusIsReadByNoOperation : Prop :=
  ∀ (i : Instr) (s : State) (x : Status), exec i (s.setStatus x) = exec i s

/-- R52: an operation that touches a banked register does not depend on the bank selected when it starts: with its
first transaction successful, it ends alike from any two values of BANKSEL. -/
def Obligations.StartingBankDoesNotMatter : Prop :=
  ∀ (i : Instr) (s : State) (b : Byte), usesBus i = true → admitted s.cfg i = true → s.handle.valid = true →
    s.txnFails = false → exec i (s.setDev { s.dev with banksel := b }) = exec i s

/-- R157: only an operation that ends with code 0 moves DRVSTATE, it moves it as the rule lists (`drvAfter`), and no
operation is refused or altered because of it. -/
def Obligations.DriverStateTransitions : Prop :=
  ∀ (i : Instr) (s : State),
    (∀ t, exec i s = .next t → t.drv = if t.status.code = 0#4 then drvAfter i s.drv else s.drv) ∧
    ∀ d : DrvState,
      (∀ t, exec i s = .next t → ∃ d', exec i (s.setDrv d) = .next (t.setDrv d')) ∧
      (∀ r, exec i s = .refused r → exec i (s.setDrv d) = .refused r)

/-- Who writes the sequencer's registers (10_state.md R23, R29): HANDLE only CREATE and RELEASE, FA and FH no
operation, ELEV only ELEVATION, AZIM only AZIMUTH; no operation changes the pending host actions. -/
def Obligations.SequencerRegisterWriters : Prop :=
  ∀ (i : Instr) (s t : State), exec i s = .next t →
    t.cfg = s.cfg ∧ t.host = s.host ∧ t.fus.fa = s.fus.fa ∧ t.fus.fh = s.fus.fh ∧
    (i ≠ .elevation → t.fus.elev = s.fus.elev) ∧ (i ≠ .azimuth → t.fus.azim = s.fus.azim) ∧
    (i ≠ .release → (∀ bus a, i ≠ .create bus a) → t.handle = s.handle)

/-- Who writes the result registers (10_state.md R26 to R28), whatever the outcome. -/
def Obligations.ResultRegisterWriters : Prop :=
  ∀ (i : Instr) (s t : State), exec i s = .next t → resKept i s.res t.res

/-- Which stored registers an operation may change, whatever its outcome: those it writes and, while ticks can
happen, the shadow block, which the engine writes (10_state.md R34 to R46; 40_bank_selector.md R133; 43_aux_engine.md
R191, R193). That the shadow block is left alone by a DELAY too that starts in an open master window, in which no tick
falls because the window closes only when the delay ends, is log 17 (DEDUCED). -/
def Obligations.RegisterMemoryFrame : Prop :=
  ∀ (i : Instr) (s t : State), s.Inv → exec i s = .next t →
    ∀ a, a ∉ writtenAddrs s.cfg i → a ∉ engineAddrsDuring s i → t.reg a = s.reg a

/-- What an operation leaves of the device's hidden state and of the auxiliary bus, whatever its outcome: only RESET
opens the device window and only DELAY and AUXINIT close one, only AUXINIT opens the master window, only the
passthrough operations arm the channel, an armed channel is disarmed, but by RESET and AUXINIT, only when a transfer is
performed, so that with the engine off every other operation leaves the flag as it is, an operation without the bus
leaves BANKSEL and issues no transaction, and with the engine off no operation but AUXINIT sees a transfer
(10_state.md R48; 20_memory.md R72; 40_bank_selector.md R133; 43_aux_engine.md R191, R195). That this holds of a DELAY
too that starts in an open master window, in which no tick falls because the window closes only when the delay ends, is
log 17 (DEDUCED). -/
def Obligations.HiddenStateFrame : Prop :=
  ∀ (i : Instr) (s t : State), s.Inv → exec i s = .next t →
    (i ≠ .reset → t.dev.devSettling = true → s.dev.devSettling = true) ∧
    (i ≠ .auxInit → t.dev.mstSettling = true → s.dev.mstSettling = true) ∧
    (i ≠ .auxInit → (∀ r v, i ≠ .writeAux r v) → (∀ r n, i ≠ .readAux r n) → t.dev.auxArmed = true →
      s.dev.auxArmed = true) ∧
    (i ≠ .reset → i ≠ .auxInit → s.dev.auxArmed = true → t.dev.auxArmed = false → s.hist.length < t.hist.length) ∧
    (s.tickEnabled = false → i ≠ .reset → i ≠ .auxInit → (∀ r v, i ≠ .writeAux r v) → (∀ r n, i ≠ .readAux r n) →
      t.dev.auxArmed = s.dev.auxArmed) ∧
    ((∀ ms, i ≠ .delay ms) → i ≠ .reset → i ≠ .auxInit → t.dev.devSettling = s.dev.devSettling ∧
      t.dev.mstSettling = s.dev.mstSettling) ∧
    (usesBus i = false → t.dev.banksel = s.dev.banksel ∧ t.trace = s.trace ∧ t.env.txn = s.env.txn) ∧
    (s.tickEnabled = false → i ≠ .auxInit → t.hist = s.hist ∧ t.mag = s.mag ∧ t.dev.tickNo = s.dev.tickNo)

/-! ### Rejections and failures -/

/-- R232, the handle: without a handle every bus-using operation and RELEASE raise InvalidArgument(0, none) with an
empty trace and nothing else changed; so does CREATE with one (41_device_driver.md R140, R141). -/
def Obligations.MissingHandleIsRejected : Prop :=
  ∀ (i : Instr) (s : State),
    (s.handle.valid = false → (usesBus i = true ∨ i = .release) →
      exec i s = .next ((s.setStatus ⟨2#4, 0#8, none⟩).setActivity .idle)) ∧
    (s.handle.valid = true → ∀ bus a, i = .create bus a →
      exec i s = .next ((s.setStatus ⟨2#4, 0#8, none⟩).setActivity .idle))

/-- R232, the operands: out-of-range operands raise InvalidArgument(0, none) before any bus traffic: the trace of the
operation is empty and nothing but STATUS changes. -/
def Obligations.IllegalOperandsAreRejected : Prop :=
  ∀ (s : State) (x y : Byte) (i : Instr),
    (s.handle.valid = true ∧
      ((3#8 < x ∧ (i = .selectBank x ∨ i = .setGyroFs x ∨ i = .setAccelFs x)) ∨
       (1#8 < x ∧ (i = .enableDlpf x ∨ i = .setDlpf x y)) ∨ (7#8 < y ∧ i = .setDlpf x y))) ∨
    (s.handle.valid = false ∧ 0x7F#8 < y ∧ i = .create x y) →
    exec i s = .next ((s.setStatus ⟨2#4, 0#8, none⟩).setActivity .idle)

/-- READAUX with a length outside 1..8 is refused (42_aux_bridge.md R171); so is AUXINIT with a clashing
LP_CONFIG_OFFSET (10_state.md R36; that the refusal falls on AUXINIT is log 12). -/
def Obligations.UnadmittedOperandsAreRefused : Prop :=
  ∀ (s : State) (r n : Byte), s.handle.valid = true →
    ((n < 1#8 ∨ 8#8 < n) → exec (.readAux r n) s = .refused .readAuxLength) ∧
    (lpOffsetOk s.cfg = false → exec .auxInit s = .refused .lpOffsetClash)

/-- R262: while the device settle window is open every transaction is refused, so every admitted bus operation with a
handle is refused, while ticks do not happen and the operations without transactions go on. -/
def Obligations.SettleWindowRefusesTheBus : Prop :=
  ∀ (i : Instr) (s : State), s.dev.devSettling = true →
    (s.handle.valid = true → usesBus i = true → admitted s.cfg i = true → exec i s = .refused .settleWindow) ∧
    (usesBus i = false → ∃ t, exec i s = .next t) ∧ s.tickEnabled = false

/-- A bus operation whose first transaction fails, because the transport says so (20_memory.md R63) or because no
device answers at the handle's address (R84), raises BusTransactionFailure(1, e) with the transport's error e
unmodified; its only transaction is the failed select write, and no stored register, window, handle, result or driver
state changes. -/
def Obligations.FirstFailureAbortsTheOperation : Prop :=
  ∀ (i : Instr) (s : State), s.Inv → s.calm = true → usesBus i = true → admitted s.cfg i = true →
    s.handle.valid = true → s.dev.devSettling = false → s.txnFails = true →
    ∃ t v, exec i s = .next t ∧ t.status = ⟨1#4, 1#8, some s.txnAnswer.err⟩ ∧
      t.trace = s.trace ++ [.w s.handle.addr8 0x7F#8 v (some s.txnAnswer.err)] ∧
      t.dev.banksel = s.dev.banksel ∧ SameSequencer s t ∧ t.res = s.res ∧ t.drv = s.drv ∧ SameDeviceBut [] s t

/-- R233: when a step list raises, its first j steps succeeded, then step k + j failed with the transport's error e, and
the step list ends there: the error is PartialConfigurationFailure if some earlier step of the operation was a successful
write to an offset other than 0x7F, otherwise BusTransactionFailure, the stage is k + j and the cause is e; the failed
step left the device as it was and nothing but STATUS is written after it (60_exceptions.md R236). -/
def Obligations.FailureCodeTellsWhetherConfigured : Prop :=
  ∀ (op : Instr) (stages : List Stage) (k : Nat) (dirty : Bool) (rs : Reads) (s t : State),
    runStages op stages k dirty rs s = .raised t →
    ∃ j st e rs1 s1 s2 s3, stages[j]? = some st ∧
      runStages op (stages.take j) k dirty rs s = .done s1 rs1 ∧
      tickPoint (s1.setActivity (.busy op (k + j))) = .ok s2 ∧
      s2.txnFails = true ∧ e = s2.txnAnswer.err ∧ stageStep st rs1 s2 = .failed e s3 ∧ s3.dev = s2.dev ∧
      t = (s3.setStatus
        ⟨if (dirty || (stages.take j).any isConfigWrite) then 4#4 else 1#4, BitVec.ofNat 8 (k + j), some e⟩).setActivity
          .idle

/-- R236: an operation that raises leaves every result register as it was, but for RES_BYTE of GETDEVICEID, and HANDLE,
DRVSTATE and the fusion registers unchanged. -/
def Obligations.ErrorsLeaveResultsAlone : Prop :=
  ∀ (i : Instr) (s t : State), exec i s = .next t → t.status.code ≠ 0#4 →
    t.handle = s.handle ∧ t.drv = s.drv ∧ t.fus = s.fus ∧ t.activity = .idle ∧
    t.res = { s.res with resByte := t.res.resByte } ∧ (i ≠ .getDeviceId → t.res = s.res)

/-- R151: ENABLEDLPF whose step 4 fails raises PartialConfigurationFailure(4, e): the accelerometer's filter bit is
changed and not undone, the gyroscope's configuration is unchanged. -/
def Obligations.EnableDlpfFailsPartway : Prop :=
  ∀ (en : Byte) (s : State), en ≤ 1#8 → s.Inv → s.calm = true → s.ready 3 = true →
    s.afterTxn.afterTxn.afterTxn.txnFails = true →
    ∃ t e, exec (.enableDlpf en) s = .next t ∧ t.status = ⟨4#4, 4#8, some e⟩ ∧
      e = s.afterTxn.afterTxn.afterTxn.txnAnswer.err ∧
      t.reg aACCELCFG = (s.reg aACCELCFG &&& 0xFE#8) ||| en ∧ t.reg aGYROCFG = s.reg aGYROCFG ∧ t.drv = s.drv

/-- R170: WRITEAUX whose step 3 fails raises PartialConfigurationFailure(3, e); PT_ADDR is new, the other channel
registers are as before and the operation has not armed the channel (60_exceptions.md R233). With the engine off no
further condition on the channel is needed. -/
def Obligations.WriteAuxFailsPartway : Prop :=
  ∀ (r b : Byte) (s : State), s.Inv → s.calm = true → (s.tickEnabled = false ∨ s.writeTurnSafe = true) →
    s.ready 2 = true →
    s.afterTxn.afterTxn.txnFails = true →
    ∃ t, exec (.writeAux r b) s = .next t ∧
      t.status = ⟨4#4, 3#8, some s.afterTxn.afterTxn.txnAnswer.err⟩ ∧
      t.reg aPT_ADDR = s.cfg.magAddr7.setWidth 8 ∧ t.reg aPT_REG = s.reg aPT_REG ∧ t.reg aPT_DO = s.reg aPT_DO ∧
      t.reg aPT_CTRL = s.reg aPT_CTRL ∧ (t.dev.auxArmed = true → s.dev.auxArmed = true)

/-! ### Family 0 and the handle -/

/-- R132: SELECTBANK of a legal bank completes, issues exactly one write of `(bank << 4) & 0x30`, and the device's
current bank is the operand; without a handle or with a bank above 3 it raises InvalidArgument(0, none) with no traffic;
when the write fails with `e` it raises BusTransactionFailure(1, e) and the bank stays. -/
def Obligations.SelectBankSelects : Prop :=
  ∀ (bank : Byte) (s : State),
    (bank ≤ 3#8 → s.Inv → s.calm = true → s.ready 1 = true →
      ∃ t, exec (.selectBank bank) s = .next t ∧ t.status = ⟨0#4, 0#8, none⟩ ∧
        t.trace = s.trace ++ [s.okW 0x7F#8 ((bank <<< 4) &&& 0x30#8)] ∧
        t.dev.banksel = (bank <<< 4) &&& 0x30#8 ∧ t.bank = bank.setWidth 2 ∧
        SameSequencer s t ∧ t.res = s.res ∧ t.drv = s.drv ∧ SameDeviceBut [] s t) ∧
    (s.handle.valid = false ∨ 3#8 < bank →
      exec (.selectBank bank) s = .next ((s.setStatus ⟨2#4, 0#8, none⟩).setActivity .idle)) ∧
    (bank ≤ 3#8 → s.Inv → s.calm = true → s.handle.valid = true → s.dev.devSettling = false → s.txnFails = true →
      ∃ t, exec (.selectBank bank) s = .next t ∧ t.status = ⟨1#4, 1#8, some s.txnAnswer.err⟩ ∧
        t.trace = s.trace ++ [.w s.handle.addr8 0x7F#8 ((bank <<< 4) &&& 0x30#8) (some s.txnAnswer.err)] ∧
        t.dev.banksel = s.dev.banksel)

/-- R133: DELAY completes in every state in which no tick is refused, needs no handle, issues no transaction, closes
each settle window no longer than itself, and the engine takes at least the ticks 43_aux_engine.md R199 guarantees. That
a window closes only when the delay ends is log 17. -/
def Obligations.DelayWaits : Prop :=
  ∀ (ms : BitVec 16) (s : State), s.Inv → s.calm = true →
    ∃ t, exec (.delay ms) s = .next t ∧ t.status = ⟨0#4, 0#8, none⟩ ∧ t.trace = s.trace ∧
      t.dev.devSettling = (s.dev.devSettling && !decide (s.cfg.tResetSettleMs ≤ ms.toNat)) ∧
      t.dev.mstSettling = (s.dev.mstSettling && !decide (s.cfg.tMstSettleMs ≤ ms.toNat)) ∧
      (s.tickEnabled = true → s.asleep = false →
        s.dev.tickNo + ms.toNat * s.cfg.auxPeriodDen / s.cfg.auxPeriodNum ≤ t.dev.tickNo) ∧
      (s.tickEnabled = false → t.dev.tickNo = s.dev.tickNo) ∧
      SameSequencer s t ∧ t.res = s.res ∧ t.drv = s.drv ∧ t.dev.banksel = s.dev.banksel ∧
      (∀ a, a ∉ s.engineAddrs → t.reg a = s.reg a)

/-- R140: CREATE without a handle and with a 7-bit address completes with no transaction, and the address is stored
shifted left by one; with a handle, or with a larger address, it raises InvalidArgument(0, none). -/
def Obligations.CreateMakesTheHandle : Prop :=
  ∀ (bus addr7 : Byte) (s : State),
    (s.handle.valid = false → addr7 ≤ 0x7F#8 →
      ∃ t, exec (.create bus addr7) s = .next t ∧ t.handle = ⟨true, bus, (addr7 <<< 1) &&& 0xFE#8⟩ ∧
        t.handle.addr8.getLsbD 0 = false ∧ addr7Of t.handle.addr8 = addr7.setWidth 7 ∧
        t.status = ⟨0#4, 0#8, none⟩ ∧ t.drv = .unconfigured ∧ SameBus s t ∧ t.res = s.res ∧ t.fus = s.fus) ∧
    (s.handle.valid = true ∨ 0x7F#8 < addr7 →
      exec (.create bus addr7) s = .next ((s.setStatus ⟨2#4, 0#8, none⟩).setActivity .idle))

/-- R141: RELEASE with a handle completes with no transaction and leaves the device as it is; without one it raises
InvalidArgument(0, none). -/
def Obligations.ReleaseDestroysTheHandle : Prop :=
  ∀ s : State,
    (s.handle.valid = true →
      ∃ t, exec .release s = .next t ∧ t.handle = { s.handle with valid := false } ∧
        t.status = ⟨0#4, 0#8, none⟩ ∧ t.drv = .noHandle ∧ SameBus s t ∧ t.res = s.res ∧ t.fus = s.fus) ∧
    (s.handle.valid = false →
      exec .release s = .next ((s.setStatus ⟨2#4, 0#8, none⟩).setActivity .idle))

/-! ### Family 1 -/

/-- R142 with 70_reset_and_hazards.md R261: RESET writes the power-management byte back with bit 7 set; the device is
reset and its window opens: engine disabled, channel off, not armed, reset bits read 0; the sequencer is kept. -/
def Obligations.ResetResetsTheDevice : Prop :=
  ∀ s : State, s.Inv → s.calm = true → s.ready 3 = true →
    ∃ t, exec .reset s = .next t ∧ t.status = ⟨0#4, 0#8, none⟩ ∧ t.drv = .reset 0 ∧
      t.trace = s.trace ++ [s.okW 0x7F#8 0x00#8, s.okR 0x06#8 1 [s.reg aPWR], s.okW 0x06#8 (s.reg aPWR ||| 0x80#8)] ∧
      t.dev.devSettling = true ∧ t.dev.mstSettling = false ∧ t.dev.auxArmed = false ∧ t.mstEn = false ∧
      (t.reg aMSTCTL).getLsbD 1 = false ∧ (t.reg aPWR).getLsbD 7 = false ∧ t.reg aPT_CTRL = 0#8 ∧
      (s.tickEnabled = false → t.mag = s.mag ∧ t.hist = s.hist) ∧ SameSequencer s t ∧ t.res = s.res

/-- R143, R144: WAKE clears and SLEEP sets bit 6 of the power-management byte, keeping every other bit. -/
def Obligations.WakeAndSleepWriteTheSleepBit : Prop :=
  ∀ s : State, s.Inv → s.calm = true → s.ready 3 = true →
    (∃ t, exec .wake s = .next t ∧ t.status = ⟨0#4, 0#8, none⟩ ∧
      t.trace = s.trace ++ [s.okW 0x7F#8 0x00#8, s.okR 0x06#8 1 [s.reg aPWR], s.okW 0x06#8 (s.reg aPWR &&& 0xBF#8)] ∧
      t.reg aPWR = s.reg aPWR &&& 0xBF#8 ∧ t.dev.banksel = 0x00#8 ∧
      SameSequencer s t ∧ t.res = s.res ∧ SameDeviceBut [aPWR] s t) ∧
    (∃ t, exec .sleep s = .next t ∧ t.status = ⟨0#4, 0#8, none⟩ ∧
      t.trace = s.trace ++ [s.okW 0x7F#8 0x00#8, s.okR 0x06#8 1 [s.reg aPWR], s.okW 0x06#8 (s.reg aPWR ||| 0x40#8)] ∧
      t.reg aPWR = s.reg aPWR ||| 0x40#8 ∧ t.drv = s.drv ∧ t.dev.banksel = 0x00#8 ∧
      SameSequencer s t ∧ t.res = s.res ∧ SameDeviceBut [aPWR] s t)

/-- R145: GETDEVICEID reads the identity byte into RES_BYTE and compares it: code 0 when it is the expected constant,
IdentityMismatch(2, none) when it is not. Beside DRVSTATE (R157), the selector and what the engine does on its own
nothing else changes. -/
def Obligations.GetDeviceIdReadsAndCompares : Prop :=
  ∀ s : State, s.Inv → s.calm = true → s.ready 2 = true →
    ∃ t, exec .getDeviceId s = .next t ∧
      t.status = (if s.cfg.whoamiDevice = s.cfg.whoamiExpected then ⟨0#4, 0#8, none⟩ else ⟨3#4, 2#8, none⟩) ∧
      t.trace = s.trace ++ [s.okW 0x7F#8 0x00#8, s.okR 0x00#8 1 [s.cfg.whoamiDevice]] ∧
      t.res = { s.res with resByte := s.cfg.whoamiDevice } ∧ t.dev.banksel = 0x00#8 ∧
      SameSequencer s t ∧ SameDeviceBut [] s t

/-- R146, R148: SETGYROFS and SETACCELFS replace bits 2:1 of their configuration register and keep the others. -/
def Obligations.SetFullScaleWritesTheRange : Prop :=
  ∀ (fs : Byte) (s : State), fs ≤ 3#8 → s.Inv → s.calm = true → s.ready 3 = true →
    (∃ t, exec (.setGyroFs fs) s = .next t ∧ t.status = ⟨0#4, 0#8, none⟩ ∧
      t.trace = s.trace ++ [s.okW 0x7F#8 0x20#8, s.okR 0x01#8 1 [s.reg aGYROCFG],
        s.okW 0x01#8 ((s.reg aGYROCFG &&& 0xF9#8) ||| (fs <<< 1))] ∧
      t.reg aGYROCFG = (s.reg aGYROCFG &&& 0xF9#8) ||| (fs <<< 1) ∧ t.dev.banksel = 0x20#8 ∧
      SameSequencer s t ∧ t.res = s.res ∧ SameDeviceBut [aGYROCFG] s t) ∧
    (∃ t, exec (.setAccelFs fs) s = .next t ∧ t.status = ⟨0#4, 0#8, none⟩ ∧
      t.trace = s.trace ++ [s.okW 0x7F#8 0x20#8, s.okR 0x14#8 1 [s.reg aACCELCFG],
        s.okW 0x14#8 ((s.reg aACCELCFG &&& 0xF9#8) ||| (fs <<< 1))] ∧
      t.reg aACCELCFG = (s.reg aACCELCFG &&& 0xF9#8) ||| (fs <<< 1) ∧ t.dev.banksel = 0x20#8 ∧
      SameSequencer s t ∧ t.res = s.res ∧ SameDeviceBut [aACCELCFG] s t)

/-- R147, R149: GETGYROFS and GETACCELFS write bits 2:1 of their configuration register to RES_FS. -/
def Obligations.GetFullScaleReadsTheRange : Prop :=
  ∀ s : State, s.Inv → s.calm = true → s.ready 2 = true →
    (∃ t, exec .getGyroFs s = .next t ∧ t.status = ⟨0#4, 0#8, none⟩ ∧
      t.trace = s.trace ++ [s.okW 0x7F#8 0x20#8, s.okR 0x01#8 1 [s.reg aGYROCFG]] ∧
      t.res = { s.res with resFs := (s.reg aGYROCFG).extractLsb' 1 2 } ∧ t.dev.banksel = 0x20#8 ∧
      SameSequencer s t ∧ t.drv = s.drv ∧ SameDeviceBut [] s t) ∧
    (∃ t, exec .getAccelFs s = .next t ∧ t.status = ⟨0#4, 0#8, none⟩ ∧
      t.trace = s.trace ++ [s.okW 0x7F#8 0x20#8, s.okR 0x14#8 1 [s.reg aACCELCFG]] ∧
      t.res = { s.res with resFs := (s.reg aACCELCFG).extractLsb' 1 2 } ∧ t.dev.banksel = 0x20#8 ∧
      SameSequencer s t ∧ t.drv = s.drv ∧ SameDeviceBut [] s t)

/-- R150: SETDLPF replaces bits 5:3 of the configuration register its sensor operand selects, keeping the others. -/
def Obligations.SetDlpfWritesTheCutoff : Prop :=
  ∀ (sensor cutoff : Byte) (s : State), sensor ≤ 1#8 → cutoff ≤ 7#8 → s.Inv → s.calm = true → s.ready 3 = true →
    ∀ o a, (sensor = 0#8 ∧ o = 0x14#8 ∧ a = aACCELCFG) ∨ (sensor = 1#8 ∧ o = 0x01#8 ∧ a = aGYROCFG) →
    ∃ t, exec (.setDlpf sensor cutoff) s = .next t ∧ t.status = ⟨0#4, 0#8, none⟩ ∧
      t.trace = s.trace ++ [s.okW 0x7F#8 0x20#8, s.okR o 1 [s.reg a],
        s.okW o ((s.reg a &&& 0xC7#8) ||| (cutoff <<< 3))] ∧
      t.reg a = (s.reg a &&& 0xC7#8) ||| (cutoff <<< 3) ∧ t.dev.banksel = 0x20#8 ∧
      SameSequencer s t ∧ t.res = s.res ∧ t.drv = s.drv ∧ SameDeviceBut [a] s t

/-- R151: ENABLEDLPF sets bit 0 of both configuration registers to its operand, accelerometer first, keeping the
other bits. -/
def Obligations.EnableDlpfWritesBothBits : Prop :=
  ∀ (en : Byte) (s : State), en ≤ 1#8 → s.Inv → s.calm = true → s.ready 5 = true →
    ∃ t, exec (.enableDlpf en) s = .next t ∧ t.status = ⟨0#4, 0#8, none⟩ ∧
      t.trace = s.trace ++ [s.okW 0x7F#8 0x20#8, s.okR 0x14#8 1 [s.reg aACCELCFG],
        s.okW 0x14#8 ((s.reg aACCELCFG &&& 0xFE#8) ||| en), s.okR 0x01#8 1 [s.reg aGYROCFG],
        s.okW 0x01#8 ((s.reg aGYROCFG &&& 0xFE#8) ||| en)] ∧
      t.reg aACCELCFG = (s.reg aACCELCFG &&& 0xFE#8) ||| en ∧ t.reg aGYROCFG = (s.reg aGYROCFG &&& 0xFE#8) ||| en ∧
      t.dev.banksel = 0x20#8 ∧ SameSequencer s t ∧ t.res = s.res ∧ t.drv = s.drv ∧
      SameDeviceBut [aACCELCFG, aGYROCFG] s t

/-- R152, R153: GETRAWACCEL and GETRAWGYRO burst-read six bytes and decode them big-endian, X, Y, Z. -/
def Obligations.RawSensorReadsDecodeBigEndian : Prop :=
  ∀ s : State, s.Inv → s.calm = true → s.ready 2 = true →
    (0x2D#8 ≤ s.cfg.accelBase → s.cfg.accelBase ≤ 0x33#8 →
      ∃ t, exec .getRawAccel s = .next t ∧ t.status = ⟨0#4, 0#8, none⟩ ∧
        t.trace = s.trace ++ [s.okW 0x7F#8 0x00#8, s.okR s.cfg.accelBase 6 (s.sensBytes 6)] ∧
        t.res = { s.res with accRaw := beTriple (s.sensBytes 6) } ∧ t.dev.banksel = 0x00#8 ∧
        SameSequencer s t ∧ t.drv = s.drv ∧ SameDeviceBut [] s t) ∧
    (0x2D#8 ≤ s.cfg.gyroBase → s.cfg.gyroBase ≤ 0x33#8 →
      ∃ t, exec .getRawGyro s = .next t ∧ t.status = ⟨0#4, 0#8, none⟩ ∧
        t.trace = s.trace ++ [s.okW 0x7F#8 0x00#8, s.okR s.cfg.gyroBase 6 (s.sensBytes 6)] ∧
        t.res = { s.res with gyrRaw := beTriple (s.sensBytes 6) } ∧ t.dev.banksel = 0x00#8 ∧
        SameSequencer s t ∧ t.drv = s.drv ∧ SameDeviceBut [] s t)

/-- R154: GETACCEL reads the range from ACCELCFG and six sensor bytes, and divides each axis by the divisor of
R156. -/
def Obligations.GetAccelScalesTheSample : Prop :=
  ∀ s : State, s.Inv → s.calm = true → s.ready 5 = true → 0x2D#8 ≤ s.cfg.accelBase →
    s.cfg.accelBase ≤ 0x33#8 →
    ∀ (fs : BitVec 2) (raw : Vec3 I16) (d : Flt), fs = (s.reg aACCELCFG).extractLsb' 1 2 →
      raw = beTriple (s.sensBytes 6) →
      (fs = 0#2 → d = NUM.lit ⟨16384, 0⟩) → (fs = 1#2 → d = NUM.lit ⟨8192, 0⟩) →
      (fs = 2#2 → d = NUM.lit ⟨4096, 0⟩) → (fs = 3#2 → d = NUM.lit ⟨2048, 0⟩) →
    ∃ t, exec .getAccel s = .next t ∧ t.status = ⟨0#4, 0#8, none⟩ ∧
      t.trace = s.trace ++ [s.okW 0x7F#8 0x00#8, s.okW 0x7F#8 0x20#8, s.okR 0x14#8 1 [s.reg aACCELCFG],
        s.okW 0x7F#8 0x00#8, s.okR s.cfg.accelBase 6 (s.sensBytes 6)] ∧
      t.res = { s.res with
        resFs := fs
        accRaw := raw
        accSc := ⟨NUM.div (NUM.ofInt raw.x) d, NUM.div (NUM.ofInt raw.y) d, NUM.div (NUM.ofInt raw.z) d⟩ } ∧
      t.dev.banksel = 0x00#8 ∧ SameSequencer s t ∧ t.drv = s.drv ∧ SameDeviceBut [] s t

/-- R155: GETGYRO, the same with GYROCFG, GYRO_BASE and the divisors 131, 65.5, 32.8, 16.4. -/
def Obligations.GetGyroScalesTheSample : Prop :=
  ∀ s : State, s.Inv → s.calm = true → s.ready 5 = true → 0x2D#8 ≤ s.cfg.gyroBase →
    s.cfg.gyroBase ≤ 0x33#8 →
    ∀ (fs : BitVec 2) (raw : Vec3 I16) (d : Flt), fs = (s.reg aGYROCFG).extractLsb' 1 2 →
      raw = beTriple (s.sensBytes 6) →
      (fs = 0#2 → d = NUM.lit ⟨131, 0⟩) → (fs = 1#2 → d = NUM.lit ⟨655, 1⟩) →
      (fs = 2#2 → d = NUM.lit ⟨328, 1⟩) → (fs = 3#2 → d = NUM.lit ⟨164, 1⟩) →
    ∃ t, exec .getGyro s = .next t ∧ t.status = ⟨0#4, 0#8, none⟩ ∧
      t.trace = s.trace ++ [s.okW 0x7F#8 0x00#8, s.okW 0x7F#8 0x20#8, s.okR 0x01#8 1 [s.reg aGYROCFG],
        s.okW 0x7F#8 0x00#8, s.okR s.cfg.gyroBase 6 (s.sensBytes 6)] ∧
      t.res = { s.res with
        resFs := fs
        gyrRaw := raw
        gyrSc := ⟨NUM.div (NUM.ofInt raw.x) d, NUM.div (NUM.ofInt raw.y) d, NUM.div (NUM.ofInt raw.z) d⟩ } ∧
      t.dev.banksel = 0x00#8 ∧ SameSequencer s t ∧ t.drv = s.drv ∧ SameDeviceBut [] s t

/-! ### Family 2 and the engine -/

/-- R170: WRITEAUX writes target address, target register, payload and control byte in that order and arms the
transfer. With the engine off it does so whatever the channel was set to. -/
def Obligations.WriteAuxArmsTheWrite : Prop :=
  ∀ (r b : Byte) (s : State), s.Inv → s.calm = true → (s.tickEnabled = false ∨ s.writeTurnSafe = true) →
    s.ready 5 = true →
    ∃ t, exec (.writeAux r b) s = .next t ∧ t.status = ⟨0#4, 0#8, none⟩ ∧
      t.trace = s.trace ++ [s.okW 0x7F#8 0x30#8, s.okW 0x03#8 (s.cfg.magAddr7.setWidth 8), s.okW 0x04#8 r,
        s.okW 0x06#8 b, s.okW 0x05#8 0x81#8] ∧
      t.reg aPT_ADDR = s.cfg.magAddr7.setWidth 8 ∧ t.reg aPT_REG = r ∧ t.reg aPT_DO = b ∧ t.reg aPT_CTRL = 0x81#8 ∧
      t.dev.auxArmed = true ∧ t.dev.banksel = 0x30#8 ∧ SameSequencer s t ∧ t.res = s.res ∧ t.drv = s.drv ∧
      SameDeviceBut [aPT_ADDR, aPT_REG, aPT_DO, aPT_CTRL] s t

/-- R171: READAUX of a length of 1 to 8 writes target address with the read flag, target register and control byte in
that order, arms the channel, and returns no data. -/
def Obligations.ReadAuxArmsTheRead : Prop :=
  ∀ (r n : Byte) (s : State), 1#8 ≤ n → n ≤ 8#8 → s.Inv → s.calm = true → s.ready 4 = true →
    ∃ t, exec (.readAux r n) s = .next t ∧ t.status = ⟨0#4, 0#8, none⟩ ∧
      t.trace = s.trace ++ [s.okW 0x7F#8 0x30#8, s.okW 0x03#8 (s.cfg.magAddr7.setWidth 8 ||| 0x80#8), s.okW 0x04#8 r,
        s.okW 0x05#8 (0x80#8 ||| n)] ∧
      t.reg aPT_ADDR = s.cfg.magAddr7.setWidth 8 ||| 0x80#8 ∧ t.reg aPT_REG = r ∧ t.reg aPT_CTRL = 0x80#8 ||| n ∧
      t.dev.auxArmed = true ∧ t.dev.banksel = 0x30#8 ∧ SameSequencer s t ∧ t.res = s.res ∧ t.drv = s.drv ∧
      SameDeviceBut [aPT_ADDR, aPT_REG, aPT_CTRL] s t

/-- R172: GETRAWMAG reads the eight shadow bytes as they are, decodes X, Y, Z little-endian, and stores bytes 6 and 7
uninterpreted; it triggers nothing. -/
def Obligations.GetRawMagDecodesTheShadow : Prop :=
  ∀ s : State, s.Inv → s.calm = true → s.ready 2 = true →
    ∃ t, exec .getRawMag s = .next t ∧ t.status = ⟨0#4, 0#8, none⟩ ∧
      t.trace = s.trace ++ [s.okW 0x7F#8 0x00#8, s.okR 0x3B#8 8 t.shadow] ∧
      t.res = { s.res with
        magRaw := ⟨t.reg (aSHADOW + 1) ++ t.reg aSHADOW, t.reg (aSHADOW + 3) ++ t.reg (aSHADOW + 2),
          t.reg (aSHADOW + 5) ++ t.reg (aSHADOW + 4)⟩
        magStat6 := t.reg (aSHADOW + 6)
        magStat7 := t.reg (aSHADOW + 7) } ∧
      (s.tickEnabled = false → t.shadow = s.shadow) ∧
      t.dev.banksel = 0x00#8 ∧ SameSequencer s t ∧ t.drv = s.drv ∧ SameDeviceBut [] s t

/-- R173: AUXINIT completes under every schedule of ticks when its 26 transactions return ok; the trace is the list of
the rule, and the registers hold what program P3 of 95_test_vectors.md lists. If the device is awake and 100 ms holds a
tick, the magnetometer's soft-reset write has been delivered. -/
def Obligations.AuxInitBringsUpTheBridge : Prop :=
  ∀ s : State, s.Inv → s.calm = true → lpOffsetOk s.cfg = true → s.dev.mstSettling = false →
    (s.cfg.auxWriteRepeat = false ∨ s.ptEn = false ∨ s.ptLen = 1) → s.ready 26 = true →
    ∃ t, exec .auxInit s = .next t ∧ t.status = ⟨0#4, 0#8, none⟩ ∧
      t.trace = s.trace ++
        [s.okW 0x7F#8 0x00#8, s.okR 0x03#8 1 [s.reg aMSTCTL], s.okW 0x03#8 (s.reg aMSTCTL ||| 0x02#8),
         s.okW 0x7F#8 0x00#8, s.okR 0x03#8 1 [s.reg aMSTCTL], s.okW 0x03#8 (s.reg aMSTCTL ||| 0x20#8),
         s.okW 0x7F#8 0x30#8, s.okW 0x01#8 s.cfg.mstClkCode,
         s.okW 0x7F#8 0x00#8, s.okW s.cfg.lpConfigOffset s.cfg.lpConfigValue,
         s.okW 0x7F#8 0x30#8, s.okW 0x00#8 s.cfg.mstOdrCode,
         s.okW 0x7F#8 0x30#8, s.okW 0x03#8 (s.cfg.magAddr7.setWidth 8), s.okW 0x04#8 s.cfg.magRegSrst,
         s.okW 0x06#8 0x01#8, s.okW 0x05#8 0x81#8,
         s.okW 0x7F#8 0x30#8, s.okW 0x03#8 (s.cfg.magAddr7.setWidth 8), s.okW 0x04#8 s.cfg.magRegMode,
         s.okW 0x06#8 0x08#8, s.okW 0x05#8 0x81#8,
         s.okW 0x7F#8 0x30#8, s.okW 0x03#8 (s.cfg.magAddr7.setWidth 8 ||| 0x80#8), s.okW 0x04#8 s.cfg.magRegXl,
         s.okW 0x05#8 0x88#8] ∧
      t.reg aMSTCTL = s.reg aMSTCTL ||| 0x20#8 ∧ t.reg aAUXMCTL = s.cfg.mstClkCode ∧
      t.reg (aLPCFG s.cfg) = s.cfg.lpConfigValue ∧ t.reg aAUXODR = s.cfg.mstOdrCode ∧
      t.reg aPT_ADDR = s.cfg.magAddr7.setWidth 8 ||| 0x80#8 ∧ t.reg aPT_REG = s.cfg.magRegXl ∧
      t.reg aPT_DO = 0x08#8 ∧ t.reg aPT_CTRL = 0x88#8 ∧ t.dev.auxArmed = true ∧ t.dev.mstSettling = false ∧
      t.dev.devSettling = false ∧ t.dev.banksel = 0x30#8 ∧ SameSequencer s t ∧ t.res = s.res ∧
      (s.asleep = false → 1 ≤ guaranteedTicks s.cfg s.cfg.tMagResetMs →
        AuxEvent.auxW s.cfg.magAddr7 s.cfg.magRegSrst 0x01#8 ∈ t.hist)

/-- R193: a tick on a channel enabled for reading copies `len` bytes to the first `len` shadow bytes, leaves the
others, disarms, and records the transfer; with the test double of R198 the bytes are those of its array. -/
def Obligations.TickPerformsTheReadTransfer : Prop :=
  ∀ s : State, Memory.wf s.dev.regs = true → s.ptEn = true → s.ptRd = true → s.refusedConfig = false →
    ∃ t bytes, tick s = .ok t ∧ bytes.length = s.ptLen ∧ 1 ≤ s.ptLen ∧ s.ptLen ≤ 8 ∧
      (∀ i, i < s.ptLen → t.reg (aSHADOW + i) = bytes.getD i 0#8) ∧
      (∀ a, (∀ i, i < s.ptLen → a ≠ aSHADOW + i) → t.reg a = s.reg a) ∧
      t.dev.auxArmed = false ∧ t.hist = s.hist ++ [.auxR s.ptA7 (s.reg aPT_REG) s.ptLen bytes] ∧ t.mag = s.mag ∧
      (∀ i : Fin 8, t.dev.age[i] = if i.val < s.ptLen then some (s.dev.tickNo + 1) else s.dev.age[i]) ∧
      (∀ T, s.mag = .double T → s.ptA7 = s.cfg.magAddr7 → (s.reg aPT_REG).toNat + s.ptLen ≤ 256 →
        ∀ i, i < s.ptLen → bytes.getD i 0#8 = Memory.get T ((s.reg aPT_REG).toNat + i))

/-- R194: a tick on a channel enabled for writing delivers PT_DO once when a write is due, disarms and records it;
otherwise it does nothing but count. -/
def Obligations.TickPerformsTheWriteTransfer : Prop :=
  ∀ s : State, s.ptEn = true → s.ptRd = false → s.refusedConfig = false →
    ∃ t, tick s = .ok t ∧ t.dev.regs = s.dev.regs ∧ t.dev.banksel = s.dev.banksel ∧
      t.dev.tickNo = s.dev.tickNo + 1 ∧
      ((s.dev.auxArmed || s.cfg.auxWriteRepeat) = true →
        t.dev.auxArmed = false ∧ t.hist = s.hist ++ [.auxW s.ptA7 (s.reg aPT_REG) (s.reg aPT_DO)] ∧
        ∀ T, s.mag = .double T → s.ptA7 = s.cfg.magAddr7 →
          t.mag = .double (Memory.set T (s.reg aPT_REG).toNat (s.reg aPT_DO))) ∧
      ((s.dev.auxArmed || s.cfg.auxWriteRepeat) = false →
        t.dev.auxArmed = false ∧ t.hist = s.hist ∧ t.mag = s.mag)

/-- R192, R200: a tick does nothing when the channel is off, and is refused exactly on the listed configurations. -/
def Obligations.TickRefusesOddConfigurations : Prop :=
  ∀ s : State,
    (s.ptEn = false → tick s = .ok (countTick s)) ∧
    (s.ptEn = true →
      (tick s = .error .engineConfig ↔
        (s.reg aPT_CTRL).extractLsb' 4 3 ≠ 0#3 ∨
        (s.ptRd = true ∧ (s.ptLen = 0 ∨ 8 < s.ptLen)) ∨
        (s.ptRd = false ∧ (s.dev.auxArmed = true ∨ s.cfg.auxWriteRepeat = true) ∧ s.ptLen ≠ 1)))

/-- A delay of one period delivers an armed write (43_aux_engine.md R194, R199; 20_memory.md R79(b)): with the engine
enabled and awake, after a DELAY whose guarantee is at least one tick the armed write has been performed, once, with the
operands of the channel registers. -/
def Obligations.DelayDeliversTheArmedWrite : Prop :=
  ∀ (ms : BitVec 16) (s : State), s.Inv → s.tickEnabled = true → s.asleep = false →
    1 ≤ guaranteedTicks s.cfg ms.toNat → s.ptEn = true → s.ptRd = false → s.ptLen = 1 → s.dev.auxArmed = true →
    s.cfg.auxWriteRepeat = false →
    ∃ t, exec (.delay ms) s = .next t ∧ t.dev.auxArmed = false ∧
      t.hist = s.hist ++ [.auxW s.ptA7 (s.reg aPT_REG) (s.reg aPT_DO)] ∧
      (∀ T, s.mag = .double T → s.ptA7 = s.cfg.magAddr7 →
        t.mag = .double (Memory.set T (s.reg aPT_REG).toNat (s.reg aPT_DO)))

/-- 42_aux_bridge.md R175, the document's round trip: with the test double, the engine enabled and awake and one-shot
writes, WRITEAUX reg, b; DELAY d; READAUX reg, 1; DELAY d; GETRAWMAG with d at least one period leaves b in SHADOW[0] and
in the low byte of MAG_RAW.x, under every schedule of ticks. -/
def Obligations.BridgeRoundTrip : Prop :=
  ∀ (r b : Byte) (d : BitVec 16) (T : Memory) (s : State), s.Inv → s.calm = true → s.writeTurnSafe = true →
    s.ready 11 = true → s.tickEnabled = true → s.asleep = false → s.cfg.auxWriteRepeat = false →
    1 ≤ guaranteedTicks s.cfg d.toNat → s.mag = .double T →
    ∃ t1 t2 t3 t4 t5, exec (.writeAux r b) s = .next t1 ∧ exec (.delay d) t1 = .next t2 ∧
      exec (.readAux r 1#8) t2 = .next t3 ∧ exec (.delay d) t3 = .next t4 ∧ exec .getRawMag t4 = .next t5 ∧
      t5.reg aSHADOW = b ∧ t5.res.magRaw.x.extractLsb' 0 8 = b ∧ t5.status = ⟨0#4, 0#8, none⟩

/-! ### Family 3 -/

/-- R213 in the evaluation order of R212: ELEVATION completes in every state, with no handle and no transaction, and
writes the formula of the configured variant; for an input R214 leaves open it writes a drawn value. That the unary
minus applies to the arc tangent is the model's reading (log 10), and so is how such an input is told (log 9). -/
def Obligations.ElevationWritesTheFormula : Prop :=
  ∀ (s : State) (h x : Flt),
    h = NUM.sqrt (NUM.add (NUM.mul s.fus.fa.x s.fus.fa.x) (NUM.mul s.fus.fa.y s.fus.fa.y)) →
    (s.cfg.elevVariant = .formula → x = NUM.neg (NUM.atan2 s.fus.fa.z h)) →
    (s.cfg.elevVariant = .vectors → x = NUM.atan2 s.fus.fa.z h) →
    ∃ t, exec .elevation s = .next t ∧ t.status = ⟨0#4, 0#8, none⟩ ∧
      t.fus = { s.fus with
        elev := if elevDegenerate s.fus.fa then s.drawFlt
          else NUM.add (NUM.div (NUM.mul x (NUM.lit ⟨180, 0⟩)) NUM.pi) (NUM.lit ⟨90, 0⟩) } ∧
      SameBus s t ∧ t.res = s.res ∧ t.handle = s.handle ∧ t.drv = s.drv

/-- R216 in the evaluation order of R212: AZIMUTH completes in every state and writes acos of the dot product of the
cross vector C = A x H with the reference axis R over the product of their norms, in degrees; for an input R217 leaves
open (`azimDegenerate`, parallel A and H among them) it writes a drawn value; how such an input is told in machine
numbers is the model's choice (logs 9, 11). -/
def Obligations.AzimuthWritesTheNormalizedAngle : Prop :=
  ∀ (s : State) (A H R C : Vec3 Flt) (dd nC nR q : Flt), A = s.fus.fa → H = s.fus.fh →
    R = s.cfg.refAxis.map NUM.lit →
    C.x = NUM.sub (NUM.mul A.y H.z) (NUM.mul A.z H.y) → C.y = NUM.sub (NUM.mul A.z H.x) (NUM.mul A.x H.z) →
    C.z = NUM.sub (NUM.mul A.x H.y) (NUM.mul A.y H.x) →
    dd = NUM.add (NUM.add (NUM.mul C.x R.x) (NUM.mul C.y R.y)) (NUM.mul C.z R.z) →
    nC = NUM.sqrt (NUM.add (NUM.add (NUM.mul C.x C.x) (NUM.mul C.y C.y)) (NUM.mul C.z C.z)) →
    nR = NUM.sqrt (NUM.add (NUM.add (NUM.mul R.x R.x) (NUM.mul R.y R.y)) (NUM.mul R.z R.z)) →
    q = NUM.div dd (NUM.mul nC nR) →
    ∃ t, exec .azimuth s = .next t ∧ t.status = ⟨0#4, 0#8, none⟩ ∧
      t.fus = { s.fus with
        azim := if azimDegenerate s.cfg.refAxis A H then s.drawFlt
          else NUM.div (NUM.mul (NUM.acos q) (NUM.lit ⟨180, 0⟩)) NUM.pi } ∧
      SameBus s t ∧ t.res = s.res ∧ t.handle = s.handle ∧ t.drv = s.drv

/-! ### The device -/

/-- R84: a transaction whose address byte names another address than the device's reaches no device and fails, never ok;
one issued inside the reset settle window is refused. Where both apply, R84 allows either and the statement says
refused; a failing transaction at an undescribed offset fails: this order of judging is the model's, log 13 (DEDUCED). -/
def Obligations.TransactionsNeedTheDevice : Prop :=
  ∀ (o v : Byte) (n : Nat) (s : State),
    (s.dev.devSettling = true → memWrite o v s = .refused .settleWindow ∧ memRead o n s = .refused .settleWindow) ∧
    (s.dev.devSettling = false → addr7Of s.handle.addr8 ≠ s.cfg.devAddr7 →
      (∃ e t, memWrite o v s = .failed e t ∧ t.dev = s.dev ∧ t.mag = s.mag) ∧
      (∃ e t, memRead o n s = .failed e t ∧ t.dev = s.dev ∧ t.mag = s.mag))

/-- R65: a write to offset 0x7F sets the selector, whatever the bank, and changes nothing else in the state; the next
access uses the bank in bits 5:4. A read of 0x7F gives the byte back (R64, R32); that its bits outside 5:4 are stored is
decision D51 of the spec. The byte the sequencer writes (30_encoding.md R104) selects its operand. -/
def Obligations.SelectorWriteChangesOnlyTheBank : Prop :=
  ∀ (v : Byte) (s : State),
    (∃ t, devWrite 0x7F#8 v s = .ok t ∧ t = s.setDev { s.dev with banksel := v } ∧ t.bank = v.extractLsb' 4 2 ∧
      devRead 0x7F#8 1 t = .ok ([v], t)) ∧
    selByte v = (v <<< 4) &&& 0x30#8 ∧ (selByte v).extractLsb' 4 2 = v.setWidth 2

/-- R49: a read/write register without side effects holds the last byte written to it, in all eight bits, and the write
leaves every other register of every bank alone; so the same offset reaches a different register in each bank
(20_memory.md R64). -/
def Obligations.StoredRegisterHoldsTheLastByte : Prop :=
  ∀ (o v : Byte) (s : State) (n : RegName), Memory.wf s.dev.regs = true → regAt s.cfg s.bank o = some n →
    n ∈ [RegName.lpcfg, .gyrocfg, .accelcfg, .auxodr, .auxmctl, .ptAddr, .ptReg, .ptDo] →
    ∃ t, devWrite o v s = .ok t ∧ t.reg (s.bank.toNat * 128 + o.toNat) = v ∧ devRead o 1 t = .ok ([v], t) ∧
      (∀ a, a ≠ s.bank.toNat * 128 + o.toNat → t.reg a = s.reg a) ∧ t.dev.banksel = s.dev.banksel

/-- R261: what a device reset fixes and what it keeps. -/
def Obligations.DeviceResetEffects : Prop :=
  ∀ s : State, Memory.wf s.dev.regs = true →
    Memory.wf (deviceReset s).dev.regs = true ∧ (deviceReset s).mstEn = false ∧
    ((deviceReset s).reg aMSTCTL).getLsbD 1 = false ∧ ((deviceReset s).reg aPWR).getLsbD 7 = false ∧
    (deviceReset s).reg aPT_CTRL = 0#8 ∧ (deviceReset s).dev.auxArmed = false ∧
    (deviceReset s).dev.devSettling = true ∧ (deviceReset s).dev.mstSettling = false ∧
    (deviceReset s).tickEnabled = false ∧ (deviceReset s).handle = s.handle ∧ (deviceReset s).res = s.res ∧
    (deviceReset s).fus = s.fus ∧ (deviceReset s).mag = s.mag ∧ (deviceReset s).hist = s.hist ∧
    (∀ a, a ∉ resetAddrs s.cfg → (deviceReset s).reg a = s.reg a)

/-- 43_aux_engine.md R196: a write of MSTCTL with bit 1 set clears aux_armed, opens the master window, in which the
engine takes no tick, and keeps every other register; the rest of the byte is stored and bit 1 is not (log 14). -/
def Obligations.MasterResetEffects : Prop :=
  ∀ (v : Byte) (s : State), Memory.wf s.dev.regs = true → s.bank = 0#2 → v.getLsbD 1 = true →
    ∃ t, devWrite 0x03#8 v s = .ok t ∧ t.reg aMSTCTL = v &&& 0xFD#8 ∧ t.dev.auxArmed = false ∧
      t.dev.mstSettling = true ∧ t.tickEnabled = false ∧ t.dev.devSettling = s.dev.devSettling ∧
      t.dev.banksel = s.dev.banksel ∧ (∀ a, a ≠ aMSTCTL → t.reg a = s.reg a)

/-- R73, R74: a read has no side effect on the device; a write to IDENT, a sensor byte or a shadow byte and any access to
an undescribed offset are refused; a burst outside the two data blocks is refused. -/
def Obligations.ReadsHaveNoSideEffectAndOddAccessesAreRefused : Prop :=
  ∀ (o v : Byte) (n : Nat) (s : State),
    (∀ bytes t, devRead o n s = .ok (bytes, t) → t.dev = s.dev ∧ t.mag = s.mag ∧ t.hist = s.hist ∧ bytes.length = n) ∧
    (o ≠ 0x7F#8 → regAt s.cfg s.bank o = none →
      devWrite o v s = .error .undescribedRegister ∧ devRead o 1 s = .error .undescribedRegister) ∧
    (s.bank = 0#2 → (o = 0x00#8 ∨ (0x2D#8 ≤ o ∧ o ≤ 0x38#8) ∨ (0x3B#8 ≤ o ∧ o ≤ 0x42#8)) →
      devWrite o v s = .error .readOnlyRegister) ∧
    (s.bank = 1#2 → regAt s.cfg s.bank o = none) ∧
    (2 ≤ n → ¬(s.bank = 0#2 ∧ ((0x2D ≤ o.toNat ∧ o.toNat + n ≤ 0x39) ∨ (0x3B ≤ o.toNat ∧ o.toNat + n ≤ 0x43))) →
      devRead o n s = .error .burstOutsideBlock)

/-! ### Value assembly -/

/-- R113, R67, R68: sensor pairs are big-endian and shadow pairs little-endian two's-complement, in the order X, Y, Z,
with the document's examples. -/
def Obligations.SampleByteOrders : Prop :=
  (∀ h l : Byte, (be16 h l).toNat = h.toNat * 256 + l.toNat ∧ le16 l h = be16 h l) ∧
  (∀ a b c d e f : Byte, beTriple [a, b, c, d, e, f] = ⟨be16 a b, be16 c d, be16 e f⟩ ∧
    leTriple [a, b, c, d, e, f] = ⟨le16 a b, le16 c d, le16 e f⟩) ∧
  (be16 0x7F#8 0xFF#8).toInt = 32767 ∧ (be16 0x80#8 0x00#8).toInt = -32768 ∧ (le16 0xFF#8 0x7F#8).toInt = 32767

/-- R104 to R112: the bytes the sequencer assembles. Inserting a field sets its bits and no other; that the filter fields
too are inserted so, R109 and R110, are decisions D15 and D16 of the spec, so the statement is a derived one. -/
def Obligations.ValueAssemblyBytes : Prop :=
  ∀ (v x : Byte) (a7 : BitVec 7),
    (selByte x = (x <<< 4) &&& 0x30#8 ∧ handleAddr8 x = (x <<< 1) &&& 0xFE#8) ∧
    (ptAddrWrite a7 = a7.setWidth 8 ∧ (ptAddrWrite a7).getLsbD 7 = false ∧ ptAddrRead a7 = ptAddrWrite a7 ||| 0x80#8 ∧
      ptCtrlByte x = 0x80#8 ||| x) ∧
    (insFs v x &&& 0xF9#8 = v &&& 0xF9#8 ∧ extFs (insFs v x) = x.setWidth 2 ∧ extFs v = v.extractLsb' 1 2) ∧
    (insCut v x &&& 0xC7#8 = v &&& 0xC7#8 ∧ (insCut v x).extractLsb' 3 3 = x.setWidth 3) ∧
    (insEn v x &&& 0xFE#8 = v &&& 0xFE#8 ∧ (insEn v x).getLsbD 0 = x.getLsbD 0) ∧
    (pwrReset v = v ||| 0x80#8 ∧ pwrSleep v = v ||| 0x40#8 ∧ pwrWake v = v &&& 0xBF#8) ∧
    (mstReset v = v ||| 0x02#8 ∧ mstEnable v = v ||| 0x20#8)
end

