-- ==== Sys2Proof/Laws/State.lean ====
section
/-! SUPPORT. One lemma per field per named update of State (true by rfl), so that no proof unfolds a record
update; and two updates of one field in a row. -/

namespace Sys2Proof.Machine.State

@[simp] theorem setHost_cfg (s : State) (v : List HostAction) : (s.setHost v).cfg = s.cfg := rfl
@[simp] theorem setHost_host (s : State) (v : List HostAction) : (s.setHost v).host = v := rfl
@[simp] theorem setHost_activity (s : State) (v : List HostAction) : (s.setHost v).activity = s.activity := rfl
@[simp] theorem setHost_handle (s : State) (v : List HostAction) : (s.setHost v).handle = s.handle := rfl
@[simp] theorem setHost_drv (s : State) (v : List HostAction) : (s.setHost v).drv = s.drv := rfl
@[simp] theorem setHost_status (s : State) (v : List HostAction) : (s.setHost v).status = s.status := rfl
@[simp] theorem setHost_res (s : State) (v : List HostAction) : (s.setHost v).res = s.res := rfl
@[simp] theorem setHost_fus (s : State) (v : List HostAction) : (s.setHost v).fus = s.fus := rfl
@[simp] theorem setHost_dev (s : State) (v : List HostAction) : (s.setHost v).dev = s.dev := rfl
@[simp] theorem setHost_mag (s : State) (v : List HostAction) : (s.setHost v).mag = s.mag := rfl
@[simp] theorem setHost_env (s : State) (v : List HostAction) : (s.setHost v).env = s.env := rfl
@[simp] theorem setHost_trace (s : State) (v : List HostAction) : (s.setHost v).trace = s.trace := rfl
@[simp] theorem setHost_hist (s : State) (v : List HostAction) : (s.setHost v).hist = s.hist := rfl
@[simp] theorem setHost_setHost (s : State) (v w : List HostAction) : (s.setHost v).setHost w = s.setHost w := rfl
@[simp] theorem setHost_self (s : State) : s.setHost s.host = s := rfl

@[simp] theorem setActivity_cfg (s : State) (v : Activity) : (s.setActivity v).cfg = s.cfg := rfl
@[simp] theorem setActivity_host (s : State) (v : Activity) : (s.setActivity v).host = s.host := rfl
@[simp] theorem setActivity_activity (s : State) (v : Activity) : (s.setActivity v).activity = v := rfl
@[simp] theorem setActivity_handle (s : State) (v : Activity) : (s.setActivity v).handle = s.handle := rfl
@[simp] theorem setActivity_drv (s : State) (v : Activity) : (s.setActivity v).drv = s.drv := rfl
@[simp] theorem setActivity_status (s : State) (v : Activity) : (s.setActivity v).status = s.status := rfl
@[simp] theorem setActivity_res (s : State) (v : Activity) : (s.setActivity v).res = s.res := rfl
@[simp] theorem setActivity_fus (s : State) (v : Activity) : (s.setActivity v).fus = s.fus := rfl
@[simp] theorem setActivity_dev (s : State) (v : Activity) : (s.setActivity v).dev = s.dev := rfl
@[simp] theorem setActivity_mag (s : State) (v : Activity) : (s.setActivity v).mag = s.mag := rfl
@[simp] theorem setActivity_env (s : State) (v : Activity) : (s.setActivity v).env = s.env := rfl
@[simp] theorem setActivity_trace (s : State) (v : Activity) : (s.setActivity v).trace = s.trace := rfl
@[simp] theorem setActivity_hist (s : State) (v : Activity) : (s.setActivity v).hist = s.hist := rfl
@[simp] theorem setActivity_setActivity (s : State) (v w : Activity) : (s.setActivity v).setActivity w = s.setActivity w := rfl
@[simp] theorem setActivity_self (s : State) : s.setActivity s.activity = s := rfl

@[simp] theorem setHandle_cfg (s : State) (v : Handle) : (s.setHandle v).cfg = s.cfg := rfl
@[simp] theorem setHandle_host (s : State) (v : Handle) : (s.setHandle v).host = s.host := rfl
@[simp] theorem setHandle_activity (s : State) (v : Handle) : (s.setHandle v).activity = s.activity := rfl
@[simp] theorem setHandle_handle (s : State) (v : Handle) : (s.setHandle v).handle = v := rfl
@[simp] theorem setHandle_drv (s : State) (v : Handle) : (s.setHandle v).drv = s.drv := rfl
@[simp] theorem setHandle_status (s : State) (v : Handle) : (s.setHandle v).status = s.status := rfl
@[simp] theorem setHandle_res (s : State) (v : Handle) : (s.setHandle v).res = s.res := rfl
@[simp] theorem setHandle_fus (s : State) (v : Handle) : (s.setHandle v).fus = s.fus := rfl
@[simp] theorem setHandle_dev (s : State) (v : Handle) : (s.setHandle v).dev = s.dev := rfl
@[simp] theorem setHandle_mag (s : State) (v : Handle) : (s.setHandle v).mag = s.mag := rfl
@[simp] theorem setHandle_env (s : State) (v : Handle) : (s.setHandle v).env = s.env := rfl
@[simp] theorem setHandle_trace (s : State) (v : Handle) : (s.setHandle v).trace = s.trace := rfl
@[simp] theorem setHandle_hist (s : State) (v : Handle) : (s.setHandle v).hist = s.hist := rfl
@[simp] theorem setHandle_setHandle (s : State) (v w : Handle) : (s.setHandle v).setHandle w = s.setHandle w := rfl
@[simp] theorem setHandle_self (s : State) : s.setHandle s.handle = s := rfl

@[simp] theorem setDrv_cfg (s : State) (v : DrvState) : (s.setDrv v).cfg = s.cfg := rfl
@[simp] theorem setDrv_host (s : State) (v : DrvState) : (s.setDrv v).host = s.host := rfl
@[simp] theorem setDrv_activity (s : State) (v : DrvState) : (s.setDrv v).activity = s.activity := rfl
@[simp] theorem setDrv_handle (s : State) (v : DrvState) : (s.setDrv v).handle = s.handle := rfl
@[simp] theorem setDrv_drv (s : State) (v : DrvState) : (s.setDrv v).drv = v := rfl
@[simp] theorem setDrv_status (s : State) (v : DrvState) : (s.setDrv v).status = s.status := rfl
@[simp] theorem setDrv_res (s : State) (v : DrvState) : (s.setDrv v).res = s.res := rfl
@[simp] theorem setDrv_fus (s : State) (v : DrvState) : (s.setDrv v).fus = s.fus := rfl
@[simp] theorem setDrv_dev (s : State) (v : DrvState) : (s.setDrv v).dev = s.dev := rfl
@[simp] theorem setDrv_mag (s : State) (v : DrvState) : (s.setDrv v).mag = s.mag := rfl
@[simp] theorem setDrv_env (s : State) (v : DrvState) : (s.setDrv v).env = s.env := rfl
@[simp] theorem setDrv_trace (s : State) (v : DrvState) : (s.setDrv v).trace = s.trace := rfl
@[simp] theorem setDrv_hist (s : State) (v : DrvState) : (s.setDrv v).hist = s.hist := rfl
@[simp] theorem setDrv_setDrv (s : State) (v w : DrvState) : (s.setDrv v).setDrv w = s.setDrv w := rfl
@[simp] theorem setDrv_self (s : State) : s.setDrv s.drv = s := rfl

@[simp] theorem setStatus_cfg (s : State) (v : Status) : (s.setStatus v).cfg = s.cfg := rfl
@[simp] theorem setStatus_host (s : State) (v : Status) : (s.setStatus v).host = s.host := rfl
@[simp] theorem setStatus_activity (s : State) (v : Status) : (s.setStatus v).activity = s.activity := rfl
@[simp] theorem setStatus_handle (s : State) (v : Status) : (s.setStatus v).handle = s.handle := rfl
@[simp] theorem setStatus_drv (s : State) (v : Status) : (s.setStatus v).drv = s.drv := rfl
@[simp] theorem setStatus_status (s : State) (v : Status) : (s.setStatus v).status = v := rfl
@[simp] theorem setStatus_res (s : State) (v : Status) : (s.setStatus v).res = s.res := rfl
@[simp] theorem setStatus_fus (s : State) (v : Status) : (s.setStatus v).fus = s.fus := rfl
@[simp] theorem setStatus_dev (s : State) (v : Status) : (s.setStatus v).dev = s.dev := rfl
@[simp] theorem setStatus_mag (s : State) (v : Status) : (s.setStatus v).mag = s.mag := rfl
@[simp] theorem setStatus_env (s : State) (v : Status) : (s.setStatus v).env = s.env := rfl
@[simp] theorem setStatus_trace (s : State) (v : Status) : (s.setStatus v).trace = s.trace := rfl
@[simp] theorem setStatus_hist (s : State) (v : Status) : (s.setStatus v).hist = s.hist := rfl
@[simp] theorem setStatus_setStatus (s : State) (v w : Status) : (s.setStatus v).setStatus w = s.setStatus w := rfl
@[simp] theorem setStatus_self (s : State) : s.setStatus s.status = s := rfl

@[simp] theorem setRes_cfg (s : State) (v : Results) : (s.setRes v).cfg = s.cfg := rfl
@[simp] theorem setRes_host (s : State) (v : Results) : (s.setRes v).host = s.host := rfl
@[simp] theorem setRes_activity (s : State) (v : Results) : (s.setRes v).activity = s.activity := rfl
@[simp] theorem setRes_handle (s : State) (v : Results) : (s.setRes v).handle = s.handle := rfl
@[simp] theorem setRes_drv (s : State) (v : Results) : (s.setRes v).drv = s.drv := rfl
@[simp] theorem setRes_status (s : State) (v : Results) : (s.setRes v).status = s.status := rfl
@[simp] theorem setRes_res (s : State) (v : Results) : (s.setRes v).res = v := rfl
@[simp] theorem setRes_fus (s : State) (v : Results) : (s.setRes v).fus = s.fus := rfl
@[simp] theorem setRes_dev (s : State) (v : Results) : (s.setRes v).dev = s.dev := rfl
@[simp] theorem setRes_mag (s : State) (v : Results) : (s.setRes v).mag = s.mag := rfl
@[simp] theorem setRes_env (s : State) (v : Results) : (s.setRes v).env = s.env := rfl
@[simp] theorem setRes_trace (s : State) (v : Results) : (s.setRes v).trace = s.trace := rfl
@[simp] theorem setRes_hist (s : State) (v : Results) : (s.setRes v).hist = s.hist := rfl
@[simp] theorem setRes_setRes (s : State) (v w : Results) : (s.setRes v).setRes w = s.setRes w := rfl
@[simp] theorem setRes_self (s : State) : s.setRes s.res = s := rfl

@[simp] theorem setFus_cfg (s : State) (v : Fusion) : (s.setFus v).cfg = s.cfg := rfl
@[simp] theorem setFus_host (s : State) (v : Fusion) : (s.setFus v).host = s.host := rfl
@[simp] theorem setFus_activity (s : State) (v : Fusion) : (s.setFus v).activity = s.activity := rfl
@[simp] theorem setFus_handle (s : State) (v : Fusion) : (s.setFus v).handle = s.handle := rfl
@[simp] theorem setFus_drv (s : State) (v : Fusion) : (s.setFus v).drv = s.drv := rfl
@[simp] theorem setFus_status (s : State) (v : Fusion) : (s.setFus v).status = s.status := rfl
@[simp] theorem setFus_res (s : State) (v : Fusion) : (s.setFus v).res = s.res := rfl
@[simp] theorem setFus_fus (s : State) (v : Fusion) : (s.setFus v).fus = v := rfl
@[simp] theorem setFus_dev (s : State) (v : Fusion) : (s.setFus v).dev = s.dev := rfl
@[simp] theorem setFus_mag (s : State) (v : Fusion) : (s.setFus v).mag = s.mag := rfl
@[simp] theorem setFus_env (s : State) (v : Fusion) : (s.setFus v).env = s.env := rfl
@[simp] theorem setFus_trace (s : State) (v : Fusion) : (s.setFus v).trace = s.trace := rfl
@[simp] theorem setFus_hist (s : State) (v : Fusion) : (s.setFus v).hist = s.hist := rfl
@[simp] theorem setFus_setFus (s : State) (v w : Fusion) : (s.setFus v).setFus w = s.setFus w := rfl
@[simp] theorem setFus_self (s : State) : s.setFus s.fus = s := rfl

@[simp] theorem setDev_cfg (s : State) (v : Dev) : (s.setDev v).cfg = s.cfg := rfl
@[simp] theorem setDev_host (s : State) (v : Dev) : (s.setDev v).host = s.host := rfl
@[simp] theorem setDev_activity (s : State) (v : Dev) : (s.setDev v).activity = s.activity := rfl
@[simp] theorem setDev_handle (s : State) (v : Dev) : (s.setDev v).handle = s.handle := rfl
@[simp] theorem setDev_drv (s : State) (v : Dev) : (s.setDev v).drv = s.drv := rfl
@[simp] theorem setDev_status (s : State) (v : Dev) : (s.setDev v).status = s.status := rfl
@[simp] theorem setDev_res (s : State) (v : Dev) : (s.setDev v).res = s.res := rfl
@[simp] theorem setDev_fus (s : State) (v : Dev) : (s.setDev v).fus = s.fus := rfl
@[simp] theorem setDev_dev (s : State) (v : Dev) : (s.setDev v).dev = v := rfl
@[simp] theorem setDev_mag (s : State) (v : Dev) : (s.setDev v).mag = s.mag := rfl
@[simp] theorem setDev_env (s : State) (v : Dev) : (s.setDev v).env = s.env := rfl
@[simp] theorem setDev_trace (s : State) (v : Dev) : (s.setDev v).trace = s.trace := rfl
@[simp] theorem setDev_hist (s : State) (v : Dev) : (s.setDev v).hist = s.hist := rfl
@[simp] theorem setDev_setDev (s : State) (v w : Dev) : (s.setDev v).setDev w = s.setDev w := rfl
@[simp] theorem setDev_self (s : State) : s.setDev s.dev = s := rfl

@[simp] theorem setMag_cfg (s : State) (v : AuxTarget) : (s.setMag v).cfg = s.cfg := rfl
@[simp] theorem setMag_host (s : State) (v : AuxTarget) : (s.setMag v).host = s.host := rfl
@[simp] theorem setMag_activity (s : State) (v : AuxTarget) : (s.setMag v).activity = s.activity := rfl
@[simp] theorem setMag_handle (s : State) (v : AuxTarget) : (s.setMag v).handle = s.handle := rfl
@[simp] theorem setMag_drv (s : State) (v : AuxTarget) : (s.setMag v).drv = s.drv := rfl
@[simp] theorem setMag_status (s : State) (v : AuxTarget) : (s.setMag v).status = s.status := rfl
@[simp] theorem setMag_res (s : State) (v : AuxTarget) : (s.setMag v).res = s.res := rfl
@[simp] theorem setMag_fus (s : State) (v : AuxTarget) : (s.setMag v).fus = s.fus := rfl
@[simp] theorem setMag_dev (s : State) (v : AuxTarget) : (s.setMag v).dev = s.dev := rfl
@[simp] theorem setMag_mag (s : State) (v : AuxTarget) : (s.setMag v).mag = v := rfl
@[simp] theorem setMag_env (s : State) (v : AuxTarget) : (s.setMag v).env = s.env := rfl
@[simp] theorem setMag_trace (s : State) (v : AuxTarget) : (s.setMag v).trace = s.trace := rfl
@[simp] theorem setMag_hist (s : State) (v : AuxTarget) : (s.setMag v).hist = s.hist := rfl
@[simp] theorem setMag_setMag (s : State) (v w : AuxTarget) : (s.setMag v).setMag w = s.setMag w := rfl
@[simp] theorem setMag_self (s : State) : s.setMag s.mag = s := rfl

@[simp] theorem setEnv_cfg (s : State) (v : Env) : (s.setEnv v).cfg = s.cfg := rfl
@[simp] theorem setEnv_host (s : State) (v : Env) : (s.setEnv v).host = s.host := rfl
@[simp] theorem setEnv_activity (s : State) (v : Env) : (s.setEnv v).activity = s.activity := rfl
@[simp] theorem setEnv_handle (s : State) (v : Env) : (s.setEnv v).handle = s.handle := rfl
@[simp] theorem setEnv_drv (s : State) (v : Env) : (s.setEnv v).drv = s.drv := rfl
@[simp] theorem setEnv_status (s : State) (v : Env) : (s.setEnv v).status = s.status := rfl
@[simp] theorem setEnv_res (s : State) (v : Env) : (s.setEnv v).res = s.res := rfl
@[simp] theorem setEnv_fus (s : State) (v : Env) : (s.setEnv v).fus = s.fus := rfl
@[simp] theorem setEnv_dev (s : State) (v : Env) : (s.setEnv v).dev = s.dev := rfl
@[simp] theorem setEnv_mag (s : State) (v : Env) : (s.setEnv v).mag = s.mag := rfl
@[simp] theorem setEnv_env (s : State) (v : Env) : (s.setEnv v).env = v := rfl
@[simp] theorem setEnv_trace (s : State) (v : Env) : (s.setEnv v).trace = s.trace := rfl
@[simp] theorem setEnv_hist (s : State) (v : Env) : (s.setEnv v).hist = s.hist := rfl
@[simp] theorem setEnv_setEnv (s : State) (v w : Env) : (s.setEnv v).setEnv w = s.setEnv w := rfl
@[simp] theorem setEnv_self (s : State) : s.setEnv s.env = s := rfl

@[simp] theorem setTrace_cfg (s : State) (v : List Txn) : (s.setTrace v).cfg = s.cfg := rfl
@[simp] theorem setTrace_host (s : State) (v : List Txn) : (s.setTrace v).host = s.host := rfl
@[simp] theorem setTrace_activity (s : State) (v : List Txn) : (s.setTrace v).activity = s.activity := rfl
@[simp] theorem setTrace_handle (s : State) (v : List Txn) : (s.setTrace v).handle = s.handle := rfl
@[simp] theorem setTrace_drv (s : State) (v : List Txn) : (s.setTrace v).drv = s.drv := rfl
@[simp] theorem setTrace_status (s : State) (v : List Txn) : (s.setTrace v).status = s.status := rfl
@[simp] theorem setTrace_res (s : State) (v : List Txn) : (s.setTrace v).res = s.res := rfl
@[simp] theorem setTrace_fus (s : State) (v : List Txn) : (s.setTrace v).fus = s.fus := rfl
@[simp] theorem setTrace_dev (s : State) (v : List Txn) : (s.setTrace v).dev = s.dev := rfl
@[simp] theorem setTrace_mag (s : State) (v : List Txn) : (s.setTrace v).mag = s.mag := rfl
@[simp] theorem setTrace_env (s : State) (v : List Txn) : (s.setTrace v).env = s.env := rfl
@[simp] theorem setTrace_trace (s : State) (v : List Txn) : (s.setTrace v).trace = v := rfl
@[simp] theorem setTrace_hist (s : State) (v : List Txn) : (s.setTrace v).hist = s.hist := rfl
@[simp] theorem setTrace_setTrace (s : State) (v w : List Txn) : (s.setTrace v).setTrace w = s.setTrace w := rfl
@[simp] theorem setTrace_self (s : State) : s.setTrace s.trace = s := rfl

@[simp] theorem setHist_cfg (s : State) (v : List AuxEvent) : (s.setHist v).cfg = s.cfg := rfl
@[simp] theorem setHist_host (s : State) (v : List AuxEvent) : (s.setHist v).host = s.host := rfl
@[simp] theorem setHist_activity (s : State) (v : List AuxEvent) : (s.setHist v).activity = s.activity := rfl
@[simp] theorem setHist_handle (s : State) (v : List AuxEvent) : (s.setHist v).handle = s.handle := rfl
@[simp] theorem setHist_drv (s : State) (v : List AuxEvent) : (s.setHist v).drv = s.drv := rfl
@[simp] theorem setHist_status (s : State) (v : List AuxEvent) : (s.setHist v).status = s.status := rfl
@[simp] theorem setHist_res (s : State) (v : List AuxEvent) : (s.setHist v).res = s.res := rfl
@[simp] theorem setHist_fus (s : State) (v : List AuxEvent) : (s.setHist v).fus = s.fus := rfl
@[simp] theorem setHist_dev (s : State) (v : List AuxEvent) : (s.setHist v).dev = s.dev := rfl
@[simp] theorem setHist_mag (s : State) (v : List AuxEvent) : (s.setHist v).mag = s.mag := rfl
@[simp] theorem setHist_env (s : State) (v : List AuxEvent) : (s.setHist v).env = s.env := rfl
@[simp] theorem setHist_trace (s : State) (v : List AuxEvent) : (s.setHist v).trace = s.trace := rfl
@[simp] theorem setHist_hist (s : State) (v : List AuxEvent) : (s.setHist v).hist = v := rfl
@[simp] theorem setHist_setHist (s : State) (v w : List AuxEvent) : (s.setHist v).setHist w = s.setHist w := rfl
@[simp] theorem setHist_self (s : State) : s.setHist s.hist = s := rfl

end Sys2Proof.Machine.State
end

