-- ==== Sys2Proof/Laws/Memory.lean ====
section
/-! SUPPORT. Byte memories: a read after a write, and that every operation keeps the canonical form. -/

namespace Sys2Proof.Machine.Memory

theorem wfFrom_mono {lo lo' : Nat} (h : lo' ≤ lo) : ∀ {m : Memory}, wfFrom lo m = true → wfFrom lo' m = true
  | [], _ => rfl
  | (k, v) :: m, hm => by
    simp only [wfFrom, Bool.and_eq_true, decide_eq_true_eq] at hm ⊢
    exact ⟨⟨by omega, hm.1.2⟩, hm.2⟩

theorem get_of_wfFrom_lt {a : Nat} : ∀ {m : Memory} {lo : Nat}, wfFrom lo m = true → a < lo → get m a = unlisted
  | [], _, _, _ => rfl
  | (k, v) :: m, lo, hm, ha => by
    simp only [wfFrom, Bool.and_eq_true, decide_eq_true_eq] at hm
    have hk : a ≠ k := by omega
    simp only [get, if_neg hk]
    exact get_of_wfFrom_lt hm.2 (by omega)

theorem get_insert (a b : Nat) (v : Byte) : ∀ m : Memory, get (insert m a v) b = if b = a then v else get m b
  | [] => by simp [insert, get]
  | (k, w) :: m => by
    unfold insert
    split
    · simp [get]
    · split
      · rename_i _ h; subst h; by_cases hb : b = a <;> simp [get, hb]
      · rename_i h1 h2
        simp only [get, get_insert a b v m]
        by_cases hb : b = k
        · have : b ≠ a := by omega
          simp [hb, Ne.symm h2]
        · simp [hb]

theorem get_erase (a b : Nat) : ∀ {m : Memory} {lo : Nat}, wfFrom lo m = true →
    get (erase m a) b = if b = a then unlisted else get m b
  | [], _, _ => by simp [erase, get]
  | (k, w) :: m, lo, hm => by
    simp only [wfFrom, Bool.and_eq_true, decide_eq_true_eq] at hm
    unfold erase
    split
    · rename_i h; subst h
      by_cases hb : b = a
      · subst hb; simp [get_of_wfFrom_lt hm.2 (Nat.lt_succ_self _)]
      · simp [get, hb]
    · rename_i h
      simp only [get, get_erase a b hm.2]
      by_cases hb : b = k
      · have : k ≠ a := fun e => h e.symm
        simp [hb, this]
      · simp [hb]

/-- A read after a write. -/
theorem get_set {m : Memory} (hm : wf m = true) (a b : Nat) (v : Byte) :
    get (set m a v) b = if b = a then v else get m b := by
  unfold set
  split
  · rename_i h; subst h; exact get_erase a b hm
  · exact get_insert a b v m

@[simp] theorem get_set_same {m : Memory} (hm : wf m = true) (a : Nat) (v : Byte) : get (set m a v) a = v := by
  simp [get_set hm]

theorem get_set_other {m : Memory} (hm : wf m = true) {a b : Nat} (h : b ≠ a) (v : Byte) :
    get (set m a v) b = get m b := by
  simp [get_set hm, h]

theorem wfFrom_erase (a : Nat) : ∀ {m : Memory} {lo : Nat}, wfFrom lo m = true → wfFrom lo (erase m a) = true
  | [], _, _ => rfl
  | (k, w) :: m, lo, hm => by
    have hm' := hm
    simp only [wfFrom, Bool.and_eq_true, decide_eq_true_eq] at hm
    unfold erase
    split
    · exact wfFrom_mono (by omega) hm.2
    · simp only [wfFrom, Bool.and_eq_true, decide_eq_true_eq]
      exact ⟨hm.1, wfFrom_erase a hm.2⟩

theorem wfFrom_insert (a : Nat) {v : Byte} (hv : v ≠ unlisted) : ∀ {m : Memory} {lo : Nat}, lo ≤ a →
    wfFrom lo m = true → wfFrom lo (insert m a v) = true
  | [], lo, ha, _ => by simp [insert, wfFrom, hv, ha]
  | (k, w) :: m, lo, ha, hm => by
    simp only [wfFrom, Bool.and_eq_true, decide_eq_true_eq] at hm
    unfold insert
    split
    · rename_i h
      simp only [wfFrom, Bool.and_eq_true, decide_eq_true_eq]
      exact ⟨⟨ha, hv⟩, ⟨⟨by omega, hm.1.2⟩, hm.2⟩⟩
    · split
      · rename_i _ h; subst h
        simp only [wfFrom, Bool.and_eq_true, decide_eq_true_eq]
        exact ⟨⟨ha, hv⟩, hm.2⟩
      · rename_i h1 h2
        simp only [wfFrom, Bool.and_eq_true, decide_eq_true_eq]
        exact ⟨hm.1, wfFrom_insert a hv (by omega) hm.2⟩

/-- A write keeps the canonical form. -/
theorem wf_set {m : Memory} (hm : wf m = true) (a : Nat) (v : Byte) : wf (set m a v) = true := by
  unfold set
  split
  · exact wfFrom_erase a hm
  · rename_i h; exact wfFrom_insert a h (Nat.zero_le a) hm

theorem mem_erase {a : Nat} {c : Host.Cell} : ∀ {m : Memory}, c ∈ erase m a → c ∈ m
  | [], h => h
  | (k, w) :: m, h => by
    unfold erase at h
    split at h
    · exact List.mem_cons_of_mem _ h
    · rcases List.mem_cons.mp h with h | h
      · exact h ▸ List.mem_cons_self
      · exact List.mem_cons_of_mem _ (mem_erase h)

theorem mem_insert {a : Nat} {v : Byte} {c : Host.Cell} : ∀ {m : Memory}, c ∈ insert m a v → c = (a, v) ∨ c ∈ m
  | [], h => by simpa [insert] using h
  | (k, w) :: m, h => by
    unfold insert at h
    split at h
    · simpa using h
    · split at h
      · rcases List.mem_cons.mp h with h | h
        · exact .inl h
        · exact .inr (List.mem_cons_of_mem _ h)
      · rcases List.mem_cons.mp h with h | h
        · exact .inr (h ▸ List.mem_cons_self)
        · rcases mem_insert h with h | h
          · exact .inl h
          · exact .inr (List.mem_cons_of_mem _ h)

/-- A write lists no address but its own. -/
theorem mem_set {m : Memory} {a : Nat} {v : Byte} {c : Host.Cell} (h : c ∈ set m a v) : c.1 = a ∨ c ∈ m := by
  unfold set at h
  split at h
  · exact .inr (mem_erase h)
  · rcases mem_insert h with h | h
    · exact .inl (by simp [h])
    · exact .inr h

theorem wf_setRun : ∀ {bs : List Byte} {m : Memory} {a : Nat}, wf m = true → wf (setRun m a bs) = true
  | [], _, _, h => h
  | _ :: bs, _, _, h => wf_setRun (bs := bs) (wf_set h _ _)

/-- A read after a run of writes. -/
theorem get_setRun : ∀ {bs : List Byte} {m : Memory} {a b : Nat}, wf m = true →
    get (setRun m a bs) b = if a ≤ b ∧ b < a + bs.length then bs.getD (b - a) 0#8 else get m b
  | [], m, a, b, h => by
    have : ¬(a ≤ b ∧ b < a + ([] : List Byte).length) := by simp
    rw [if_neg this]; rfl
  | v :: bs, m, a, b, h => by
    simp only [setRun, get_setRun (bs := bs) (wf_set h a v), List.length_cons]
    by_cases h1 : a + 1 ≤ b ∧ b < a + 1 + bs.length
    · have h2 : a ≤ b ∧ b < a + (bs.length + 1) := by omega
      have h3 : b - a = (b - (a + 1)) + 1 := by omega
      simp only [if_pos h1, if_pos h2, h3, List.getD_cons_succ]
    · by_cases hb : b = a
      · subst hb
        have h2 : b ≤ b ∧ b < b + (bs.length + 1) := by omega
        simp only [if_neg h1, if_pos h2, get_set_same h, Nat.sub_self, List.getD_cons_zero]
      · have h2 : ¬(a ≤ b ∧ b < a + (bs.length + 1)) := by omega
        simp only [if_neg h1, if_neg h2, get_set_other h hb]

theorem get_setRun_outside {bs : List Byte} {m : Memory} {a b : Nat} (h : wf m = true)
    (hb : b < a ∨ a + bs.length ≤ b) : get (setRun m a bs) b = get m b := by
  rw [get_setRun h, if_neg (by omega)]

theorem mem_setRun {c : Host.Cell} : ∀ {bs : List Byte} {m : Memory} {a : Nat}, c ∈ setRun m a bs →
    (a ≤ c.1 ∧ c.1 < a + bs.length) ∨ c ∈ m
  | [], _, _, h => .inr h
  | _ :: bs, _, a, h => by
    rcases mem_setRun (bs := bs) h with h | h
    · left; simp only [List.length_cons]; omega
    · rcases mem_set h with h | h
      · left; simp only [List.length_cons]; omega
      · exact .inr h

@[simp] theorem length_getRun (m : Memory) : ∀ (n a : Nat), (getRun m a n).length = n
  | 0, _ => rfl
  | n + 1, a => by simp [getRun, length_getRun m n (a + 1)]

/-- The bytes of a run. -/
theorem getD_getRun (m : Memory) : ∀ (n a i : Nat), i < n → (getRun m a n).getD i 0#8 = get m (a + i)
  | n + 1, a, 0, _ => rfl
  | n + 1, a, i + 1, h => by
    simp only [getRun, List.getD_cons_succ]
    rw [getD_getRun m n (a + 1) i (by omega)]
    congr 1; omega

end Sys2Proof.Machine.Memory
end

