-- ==== Sys2Proof/Laws/Engine.lean ====
section
/-! SUPPORT. What the engine can do, said once: a tick, a run of ticks, a scheduling point and a delay change
only what belongs to the engine. -/

namespace Sys2Proof.Machine

/-! ### Oracles -/

@[simp] theorem Oracle.length_take {α : Type} (free : Nat → α) : ∀ (n : Nat) (o : Oracle α),
    (Oracle.take free n o).1.length = n
  | 0, _ => rfl
  | n + 1, o => by simp [Oracle.take, Oracle.length_take free n]

/-! ### The armed flag -/

theorem ArmedKept.refl (s : State) : ArmedKept s s := ⟨id, fun a b => by simp [a] at b⟩

/-- The armed flag is as before. -/
theorem ArmedKept.of_eq {s t : State} (h1 : t.dev.auxArmed = s.dev.auxArmed) : ArmedKept s t :=
  ⟨fun a => h1 ▸ a, fun a b => by simp [h1, a] at b⟩

theorem ArmedKept.trans {s t u : State} (h : ArmedKept s t) (k : ArmedKept t u) (h1 : s.hist.length ≤ t.hist.length)
    (k1 : t.hist.length ≤ u.hist.length) : ArmedKept s u :=
  ⟨fun a => h.arm (k.arm a), fun a b => by
    cases c : t.dev.auxArmed
    · exact (h.disarm a c).trans_le k1
    · exact h1.trans_lt (k.disarm c b)⟩

/-! ### The engine's own part of the state -/

/-- Everything of `t` that does not belong to the engine is as in `s`; the register memory stays canonical if it
was; the engine can only disarm, by a transfer, and only append to the history. -/
structure EngineRel (s t : State) : Prop where
  cfg : t.cfg = s.cfg
  host : t.host = s.host
  activity : t.activity = s.activity
  handle : t.handle = s.handle
  drv : t.drv = s.drv
  status : t.status = s.status
  res : t.res = s.res
  fus : t.fus = s.fus
  trace : t.trace = s.trace
  txn : t.env.txn = s.env.txn
  sens : t.env.sens = s.env.sens
  draw : t.env.draw = s.env.draw
  fdraw : t.env.fdraw = s.env.fdraw
  banksel : t.dev.banksel = s.dev.banksel
  devSettling : t.dev.devSettling = s.dev.devSettling
  mstSettling : t.dev.mstSettling = s.dev.mstSettling
  regsWf : Memory.wf s.dev.regs = true → Memory.wf t.dev.regs = true
  regs : Memory.wf s.dev.regs = true → ∀ a, a ∉ shadowAddrs → t.reg a = s.reg a
  listed : ∀ c ∈ t.dev.regs, c ∈ s.dev.regs ∨ c.1 ∈ shadowAddrs
  magWf : s.mag.wf = true → t.mag.wf = true
  kept : ArmedKept s t
  hist : s.hist <+: t.hist
  tickNo : s.dev.tickNo ≤ t.dev.tickNo

theorem EngineRel.refl (s : State) : EngineRel s s where
  cfg := rfl
  host := rfl
  activity := rfl
  handle := rfl
  drv := rfl
  status := rfl
  res := rfl
  fus := rfl
  trace := rfl
  txn := rfl
  sens := rfl
  draw := rfl
  fdraw := rfl
  banksel := rfl
  devSettling := rfl
  mstSettling := rfl
  regsWf := id
  regs := fun _ _ _ => rfl
  listed := fun _ h => .inl h
  magWf := id
  kept := .refl s
  hist := List.prefix_refl _
  tickNo := Nat.le_refl _

theorem EngineRel.trans {s t u : State} (h : EngineRel s t) (k : EngineRel t u) : EngineRel s u where
  cfg := k.cfg.trans h.cfg
  host := k.host.trans h.host
  activity := k.activity.trans h.activity
  handle := k.handle.trans h.handle
  drv := k.drv.trans h.drv
  status := k.status.trans h.status
  res := k.res.trans h.res
  fus := k.fus.trans h.fus
  trace := k.trace.trans h.trace
  txn := k.txn.trans h.txn
  sens := k.sens.trans h.sens
  draw := k.draw.trans h.draw
  fdraw := k.fdraw.trans h.fdraw
  banksel := k.banksel.trans h.banksel
  devSettling := k.devSettling.trans h.devSettling
  mstSettling := k.mstSettling.trans h.mstSettling
  regsWf := fun w => k.regsWf (h.regsWf w)
  regs := fun w a ha => (k.regs (h.regsWf w) a ha).trans (h.regs w a ha)
  listed := fun c hc => (k.listed c hc).elim (h.listed c) .inr
  magWf := fun w => k.magWf (h.magWf w)
  kept := h.kept.trans k.kept h.hist.length_le k.hist.length_le
  hist := h.hist.trans k.hist
  tickNo := h.tickNo.trans k.tickNo

theorem EngineRel.armed {s t : State} (h : EngineRel s t) : t.dev.auxArmed = true → s.dev.auxArmed = true := h.kept.arm

/-! ### One tick -/

theorem mem_shadowAddrs {a : Nat} : a ∈ shadowAddrs ↔ aSHADOW ≤ a ∧ a < aSHADOW + 8 := by
  simp only [shadowAddrs, aSHADOW, List.mem_cons, List.not_mem_nil, or_false]; omega

/-- An auxiliary read returns `n` bytes and takes at most answers of the MAG oracle. -/
theorem auxRead_spec (a7 : BitVec 7) (r : Byte) (n : Nat) (s : State) :
    (auxRead a7 r n s).1.length = n ∧
      ∃ o, (auxRead a7 r n s).2 = s.setEnv { s.env with aux := o } := by
  unfold auxRead
  split
  · exact ⟨by simp, _, rfl⟩
  · split
    · split
      · exact ⟨by simp, s.env.aux, rfl⟩
      · exact ⟨by simp, _, rfl⟩
    · exact ⟨by simp, s.env.aux, rfl⟩

theorem engineRel_readTransfer {s : State} (a7 : BitVec 7) (r : Byte) {n : Nat} (hn : n ≤ 8) :
    EngineRel s (readTransfer a7 r n s) := by
  obtain ⟨hlen, o, ho⟩ := auxRead_spec a7 r n s
  unfold readTransfer
  rw [ho]
  constructor <;> try rfl
  · exact fun w => Memory.wf_setRun w
  · intro w a ha
    rw [mem_shadowAddrs] at ha
    simp only [State.reg, State.setHist_dev, State.setDev_dev, State.setEnv_dev]
    exact Memory.get_setRun_outside w (by rw [hlen]; omega)
  · intro c hc
    simp only [State.setHist_dev, State.setDev_dev, State.setEnv_dev] at hc
    rcases Memory.mem_setRun hc with h | h
    · right; rw [mem_shadowAddrs]; rw [hlen] at h; omega
    · exact .inl h
  · exact id
  · exact ⟨fun h => by simp at h, fun _ _ => by simp⟩
  · exact ⟨_, rfl⟩

theorem AuxTarget.wf_write {m : AuxTarget} (h : m.wf = true) (x a7 : BitVec 7) (r v : Byte) :
    (m.write x a7 r v).wf = true := by
  cases m with
  | oracle => rfl
  | double t =>
    by_cases e : a7 = x
    · simpa [AuxTarget.write, AuxTarget.wf, e] using Memory.wf_set h _ _
    · simpa [AuxTarget.write, AuxTarget.wf, e] using h

theorem engineRel_writeTransfer {s : State} (a7 : BitVec 7) (r : Byte) : EngineRel s (writeTransfer a7 r s) := by
  unfold writeTransfer
  split
  · constructor <;> try rfl
    · exact id
    · exact fun _ _ _ => rfl
    · exact fun c hc => .inl hc
    · exact fun h => AuxTarget.wf_write h _ _ _ _
    · exact ⟨fun h => by simp at h, fun _ _ => by simp⟩
    · exact ⟨_, rfl⟩
  · exact .refl s

theorem engineRel_countTick (s : State) : EngineRel s (countTick s) := by
  constructor <;> try rfl
  · exact id
  · exact fun _ _ _ => rfl
  · exact fun c hc => .inl hc
  · exact id
  · exact .of_eq rfl
  · exact Nat.le_succ _

theorem ptLen_le_of_not_refused {s : State} (h : s.refusedConfig = false) (hr : s.ptRd = true) : s.ptLen ≤ 8 := by
  simp only [State.refusedConfig, hr, Bool.or_eq_false_iff, Bool.and_eq_false_iff, Bool.true_and,
    decide_eq_false_iff_not] at h
  omega

/-- A tick changes only what belongs to the engine. -/
theorem engineRel_tick {s t : State} (h : tick s = .ok t) : EngineRel s t := by
  unfold tick at h
  split at h
  · split at h
    · cases h
    · rename_i hr
      split at h
      · rename_i hrd
        cases h
        exact (engineRel_countTick s).trans
          (engineRel_readTransfer _ _ (ptLen_le_of_not_refused (by simpa using hr) hrd))
      · cases h
        exact (engineRel_countTick s).trans (engineRel_writeTransfer _ _)
  · cases h
    exact engineRel_countTick s

/-- A tick counts. -/
theorem tickNo_tick {s t : State} (h : tick s = .ok t) : t.dev.tickNo = s.dev.tickNo + 1 := by
  unfold tick at h
  split at h
  · split at h
    · cases h
    · split at h
      · cases h
        obtain ⟨_, o, ho⟩ := auxRead_spec s.ptA7 (s.reg aPT_REG) s.ptLen (countTick s)
        simp only [readTransfer, ho]
        rfl
      · cases h
        unfold writeTransfer
        split <;> simp [countTick]
  · cases h
    simp [countTick]

/-- A run of ticks changes only what belongs to the engine, and counts. -/
theorem engineRel_ticks : ∀ {n : Nat} {s t : State}, ticks n s = .ok t →
    EngineRel s t ∧ t.dev.tickNo = s.dev.tickNo + n
  | 0, s, t, h => by cases h; exact ⟨.refl s, rfl⟩
  | n + 1, s, t, h => by
    unfold ticks at h
    split at h
    · cases h
    · rename_i s1 h1
      obtain ⟨h2, h3⟩ := engineRel_ticks h
      exact ⟨(engineRel_tick h1).trans h2, by rw [h3, tickNo_tick h1]; omega⟩

theorem engineRel_afterSchedule (s : State) : EngineRel s s.afterSchedule := by
  constructor <;> try rfl
  · exact id
  · exact fun _ _ _ => rfl
  · exact fun c hc => .inl hc
  · exact id
  · exact .of_eq rfl

/-- A scheduling point changes only what belongs to the engine. -/
theorem engineRel_tickPoint {s t : State} (h : tickPoint s = .ok t) : EngineRel s t := by
  unfold tickPoint at h
  split at h
  · exact (engineRel_afterSchedule s).trans (engineRel_ticks h).1
  · cases h; exact .refl s

/-- With the engine off nothing happens at a scheduling point. -/
theorem tickPoint_off {s : State} (h : s.tickEnabled = false) : tickPoint s = .ok s := by
  simp [tickPoint, h]

/-! ### Which ticks are not refused -/

theorem EngineRel.tickEnabled {s t : State} (h : EngineRel s t) (w : Memory.wf s.dev.regs = true) :
    t.tickEnabled = s.tickEnabled := by
  simp only [State.tickEnabled, State.mstEn, h.devSettling, h.mstSettling,
    h.regs w aMSTCTL (by rw [mem_shadowAddrs]; decide)]

theorem EngineRel.ptCtrl {s t : State} (h : EngineRel s t) (w : Memory.wf s.dev.regs = true) :
    t.reg aPT_CTRL = s.reg aPT_CTRL := h.regs w _ (by rw [mem_shadowAddrs]; decide)

theorem EngineRel.ptAddr {s t : State} (h : EngineRel s t) (w : Memory.wf s.dev.regs = true) :
    t.reg aPT_ADDR = s.reg aPT_ADDR := h.regs w _ (by rw [mem_shadowAddrs]; decide)

theorem EngineRel.ptReg {s t : State} (h : EngineRel s t) (w : Memory.wf s.dev.regs = true) :
    t.reg aPT_REG = s.reg aPT_REG := h.regs w _ (by rw [mem_shadowAddrs]; decide)

theorem EngineRel.ptDo {s t : State} (h : EngineRel s t) (w : Memory.wf s.dev.regs = true) :
    t.reg aPT_DO = s.reg aPT_DO := h.regs w _ (by rw [mem_shadowAddrs]; decide)

theorem EngineRel.writeDue {s t : State} (h : EngineRel s t) (d : t.writeDue = true) : s.writeDue = true := by
  simp only [State.writeDue, Bool.or_eq_true, h.cfg] at d ⊢
  exact d.imp h.armed id

theorem EngineRel.refusedConfig {s t : State} (h : EngineRel s t) (w : Memory.wf s.dev.regs = true)
    (k : s.refusedConfig = false) : t.refusedConfig = false := by
  simp only [State.refusedConfig, State.ptLen, State.ptRd, h.ptCtrl w, h.ptAddr w, Bool.or_eq_false_iff] at k ⊢
  refine ⟨k.1, ?_⟩
  cases hd : t.writeDue
  · simp
  · simpa [h.writeDue hd] using k.2

/-- The engine cannot make its own next tick refused. -/
theorem EngineRel.calm {s t : State} (h : EngineRel s t) (w : Memory.wf s.dev.regs = true)
    (k : s.calm = true) : t.calm = true := by
  simp only [State.calm, h.tickEnabled w, State.ptEn, h.ptCtrl w, Bool.or_eq_true, Bool.not_eq_true'] at k ⊢
  exact k.imp id (h.refusedConfig w)

theorem tick_ok {s : State} (h : s.ptEn = false ∨ s.refusedConfig = false) : ∃ t, tick s = .ok t := by
  unfold tick
  split
  · rename_i he
    have hr : s.refusedConfig = false := h.resolve_left (by simp [he])
    rw [if_neg (by simp [hr])]
    split
    · exact ⟨_, rfl⟩
    · exact ⟨_, rfl⟩
  · exact ⟨_, rfl⟩

theorem ticks_ok : ∀ {n : Nat} {s : State}, Memory.wf s.dev.regs = true →
    (s.ptEn = false ∨ s.refusedConfig = false) → ∃ t, ticks n s = .ok t
  | 0, s, _, _ => ⟨s, rfl⟩
  | n + 1, s, w, h => by
    obtain ⟨t, ht⟩ := tick_ok h
    have r := engineRel_tick ht
    simp only [ticks, ht]
    exact ticks_ok (r.regsWf w)
      (h.imp (fun e => by simpa only [State.ptEn, r.ptCtrl w] using e) (r.refusedConfig w))

/-- From a calm state a scheduling point is passed, whatever the schedule, and the state stays calm. -/
theorem tickPoint_ok {s : State} (w : Memory.wf s.dev.regs = true) (h : s.calm = true) :
    ∃ t, tickPoint s = .ok t ∧ EngineRel s t ∧ t.calm = true := by
  cases he : s.tickEnabled
  · exact ⟨s, tickPoint_off he, .refl s, h⟩
  · have k : s.ptEn = false ∨ s.refusedConfig = false := by
      simpa [State.calm, he] using h
    obtain ⟨t, ht⟩ := ticks_ok (n := s.scheduled) (s := s.afterSchedule) w k
    have hp : tickPoint s = .ok t := by simp [tickPoint, he, ht]
    have r := engineRel_tickPoint hp
    exact ⟨t, hp, r, r.calm w h⟩

/-- From a calm state a delay is passed: at least its guaranteed ticks, then the windows close. -/
theorem delayStep_ok {ms : Nat} {s : State} (w : Memory.wf s.dev.regs = true) (h : s.calm = true) :
    ∃ u, delayStep ms s = .ok (closeWindows ms u) ∧ EngineRel s u ∧
    (s.tickEnabled = false → u = s) ∧
    (s.tickEnabled = true → ∃ n, s.delayTicks ms ≤ n ∧ ticks n s.afterSchedule = .ok u) := by
  cases he : s.tickEnabled
  · exact ⟨s, by simp [delayStep, he], .refl s, fun _ => rfl, nofun⟩
  · have k : s.ptEn = false ∨ s.refusedConfig = false := by simpa [State.calm, he] using h
    obtain ⟨t, ht⟩ := ticks_ok (n := s.delayTicks ms + s.scheduled) (s := s.afterSchedule) w k
    exact ⟨t, by simp [delayStep, he, ht], (engineRel_afterSchedule s).trans (engineRel_ticks ht).1, nofun,
      fun _ => ⟨_, Nat.le_add_right _ _, ht⟩⟩

/-! ### A channel that writes -/

/-- The channel is set to write one byte `v` to register `r` of the target at `a7`, once. -/
structure Writing (a7 : BitVec 7) (r v : Byte) (s : State) : Prop where
  wf : Memory.wf s.dev.regs = true
  en : s.ptEn = true
  rd : s.ptRd = false
  ok : s.refusedConfig = false
  a7 : s.ptA7 = a7
  reg : s.reg aPT_REG = r
  val : s.reg aPT_DO = v
  once : s.cfg.auxWriteRepeat = false

theorem Writing.engine {a7 : BitVec 7} {r v : Byte} {s t : State} (h : Writing a7 r v s) (e : EngineRel s t) :
    Writing a7 r v t where
  wf := e.regsWf h.wf
  en := by rw [State.ptEn, e.ptCtrl h.wf]; exact h.en
  rd := by rw [State.ptRd, e.ptAddr h.wf]; exact h.rd
  ok := e.refusedConfig h.wf h.ok
  a7 := by rw [State.ptA7, e.ptAddr h.wf]; exact h.a7
  reg := by rw [e.ptReg h.wf]; exact h.reg
  val := by rw [e.ptDo h.wf]; exact h.val
  once := by rw [e.cfg]; exact h.once

/-- A tick delivers the byte if the channel is armed, and disarms it. -/
theorem Writing.tick {a7 : BitVec 7} {r v : Byte} {s t : State} (h : Writing a7 r v s)
    (ht : Sys2Proof.Machine.tick s = .ok t) : t.dev.auxArmed = false ∧
    (t.hist = s.hist ++ if s.dev.auxArmed then [.auxW a7 r v] else []) ∧
    t.mag = if s.dev.auxArmed then s.mag.write s.cfg.magAddr7 a7 r v else s.mag := by
  simp only [Sys2Proof.Machine.tick, h.en, h.ok, h.rd] at ht
  simp at ht
  subst ht
  unfold writeTransfer
  have : (countTick s).writeDue = s.dev.auxArmed := by simp [State.writeDue, countTick, h.once]
  rw [this]
  cases ha : s.dev.auxArmed
  · simp [countTick, ha]
  · simp only [if_true, State.setHist_dev, State.setDev_dev, State.setHist_hist, State.setHist_mag, State.setDev_mag,
      State.setMag_mag, true_and]
    have e : (countTick s).reg aPT_DO = v := h.val
    rw [e, h.a7, h.reg]
    exact ⟨rfl, rfl⟩

/-- A run of ticks, if there is one, delivers the byte exactly once if the channel is armed, and disarms it. -/
theorem Writing.ticks {a7 : BitVec 7} {r v : Byte} : ∀ {n : Nat} {s t : State}, Writing a7 r v s →
    Sys2Proof.Machine.ticks n s = .ok t → (t.dev.auxArmed = if n = 0 then s.dev.auxArmed else false) ∧
    (t.hist = s.hist ++ if n ≠ 0 ∧ s.dev.auxArmed = true then [.auxW a7 r v] else []) ∧
    t.mag = if n ≠ 0 ∧ s.dev.auxArmed = true then s.mag.write s.cfg.magAddr7 a7 r v else s.mag
  | 0, s, t, h, ht => by cases ht; simp
  | n + 1, s, t, h, ht => by
    simp only [Sys2Proof.Machine.ticks] at ht
    split at ht
    · cases ht
    · rename_i s1 h1
      obtain ⟨a1, a2, a3⟩ := h.tick h1
      obtain ⟨b1, b2, b3⟩ := Writing.ticks (h.engine (engineRel_tick h1)) ht
      refine ⟨by simp [b1, a1], ?_, ?_⟩
      · rw [b2, a2, a1]; cases s.dev.auxArmed <;> simp
      · rw [b3, a3, a1]; cases s.dev.auxArmed <;> simp

end Sys2Proof.Machine
end

