-- ==== Sys2Proof/Laws/Bus.lean ====
section
/-! SUPPORT. What a transaction can do, said once: where the register of an address lies, what a device write and a
device read change, and how a transaction ends. -/

namespace Sys2Proof.Machine

/-! ### Taking an answer changes only the oracles; recording changes only the trace -/

section
variable (s : State) (t : Txn)

@[simp] theorem State.afterTxn_cfg : s.afterTxn.cfg = s.cfg := rfl
@[simp] theorem State.afterTxn_host : s.afterTxn.host = s.host := rfl
@[simp] theorem State.afterTxn_activity : s.afterTxn.activity = s.activity := rfl
@[simp] theorem State.afterTxn_handle : s.afterTxn.handle = s.handle := rfl
@[simp] theorem State.afterTxn_drv : s.afterTxn.drv = s.drv := rfl
@[simp] theorem State.afterTxn_status : s.afterTxn.status = s.status := rfl
@[simp] theorem State.afterTxn_res : s.afterTxn.res = s.res := rfl
@[simp] theorem State.afterTxn_fus : s.afterTxn.fus = s.fus := rfl
@[simp] theorem State.afterTxn_dev : s.afterTxn.dev = s.dev := rfl
@[simp] theorem State.afterTxn_mag : s.afterTxn.mag = s.mag := rfl
@[simp] theorem State.afterTxn_trace : s.afterTxn.trace = s.trace := rfl
@[simp] theorem State.afterTxn_hist : s.afterTxn.hist = s.hist := rfl
@[simp] theorem State.afterTxn_bank : s.afterTxn.bank = s.bank := rfl
@[simp] theorem State.afterTxn_sens : s.afterTxn.env.sens = s.env.sens := rfl
@[simp] theorem State.afterTxn_reg (a : Nat) : s.afterTxn.reg a = s.reg a := rfl
@[simp] theorem State.afterTxn_addressed : s.afterTxn.addressed = s.addressed := rfl

@[simp] theorem State.record_cfg : (s.record t).cfg = s.cfg := rfl
@[simp] theorem State.record_host : (s.record t).host = s.host := rfl
@[simp] theorem State.record_activity : (s.record t).activity = s.activity := rfl
@[simp] theorem State.record_handle : (s.record t).handle = s.handle := rfl
@[simp] theorem State.record_drv : (s.record t).drv = s.drv := rfl
@[simp] theorem State.record_status : (s.record t).status = s.status := rfl
@[simp] theorem State.record_res : (s.record t).res = s.res := rfl
@[simp] theorem State.record_fus : (s.record t).fus = s.fus := rfl
@[simp] theorem State.record_dev : (s.record t).dev = s.dev := rfl
@[simp] theorem State.record_mag : (s.record t).mag = s.mag := rfl
@[simp] theorem State.record_env : (s.record t).env = s.env := rfl
@[simp] theorem State.record_hist : (s.record t).hist = s.hist := rfl
@[simp] theorem State.record_trace : (s.record t).trace = s.trace ++ [t] := rfl
@[simp] theorem State.record_bank : (s.record t).bank = s.bank := rfl
@[simp] theorem State.record_reg (a : Nat) : (s.record t).reg a = s.reg a := rfl

end

/-! ### Addresses -/

/-- Two registers at one address are the same register, for offsets below 0x80. -/
theorem regAddr_inj {b b' : BitVec 2} {o o' : Byte} (h : o.toNat < 128) (h' : o'.toNat < 128)
    (e : regAddr b o = regAddr b' o') : b = b' ∧ o = o' := by
  unfold regAddr at e
  exact ⟨BitVec.eq_of_toNat_eq (by omega), BitVec.eq_of_toNat_eq (by omega)⟩

theorem bank_cases (b : BitVec 2) : b = 0#2 ∨ b = 1#2 ∨ b = 2#2 ∨ b = 3#2 := by revert b; decide

theorem bank_setDev (s : State) (d : Dev) : (s.setDev d).bank = d.banksel.extractLsb' 4 2 := rfl

/-! ### Writes that only store -/

/-- The registers a write only stores to (20_memory.md R72: "All other writes only store"). -/
def RegName.plain : RegName → Bool
  | .lpcfg => true
  | .gyrocfg => true
  | .accelcfg => true
  | .auxodr => true
  | .auxmctl => true
  | .ptAddr => true
  | .ptReg => true
  | .ptDo => true
  | .ident => false
  | .mstctl => false
  | .pwr => false
  | .sensor => false
  | .shadow => false
  | .ptCtrl => false

theorem devWrite_select (v : Byte) (s : State) :
    devWrite oBANKSEL v s = .ok (s.setDev { s.dev with banksel := v }) := by simp [devWrite]

theorem regAt_ne_banksel {c : Config} {b : BitVec 2} {o : Byte} {n : RegName} (h : regAt c b o = some n) :
    o ≠ oBANKSEL := by
  rintro rfl
  unfold regAt at h
  rcases bank_cases b with rfl | rfl | rfl | rfl
  · simp [oBANKSEL, oIDENT, oMSTCTL, oPWR] at h
  · simp at h
  · simp [oBANKSEL, oGYROCFG, oACCELCFG] at h
  · simp [oBANKSEL, oAUXODR, oAUXMCTL, oPT_ADDR, oPT_REG, oPT_CTRL, oPT_DO] at h

theorem devWrite_plain {o v : Byte} {s : State} {n : RegName} (h : regAt s.cfg s.bank o = some n)
    (hn : n.plain = true) : devWrite o v s = .ok (storeReg s.bank o v s) := by
  have hb := regAt_ne_banksel h
  cases n <;> simp_all [devWrite, RegName.plain]

/-- A described offset is below 0x7F. -/
theorem regAt_lt {c : Config} {b : BitVec 2} {o : Byte} {n : RegName} (h : regAt c b o = some n) :
    o.toNat < 127 := by
  unfold regAt at h
  rcases bank_cases b with rfl | rfl | rfl | rfl
  · simp only [↓reduceIte] at h
    split at h
    · rename_i e; subst e; decide
    · split at h
      · rename_i e; subst e; decide
      · split at h
        · rename_i e; subst e; decide
        · split at h
          · rename_i e; have := BitVec.le_def.mp e.2; simp at this; omega
          · split at h
            · rename_i e; have := BitVec.le_def.mp e.2; simp at this; omega
            · split at h
              · rename_i e; have := BitVec.lt_def.mp e.2; simp [oBANKSEL] at this; omega
              · cases h
  · simp at h
  · simp only [show (2#2 : BitVec 2) ≠ 0#2 by decide, ↓reduceIte] at h
    split at h
    · rename_i e; subst e; decide
    · split at h
      · rename_i e; subst e; decide
      · cases h
  · simp only [show (3#2 : BitVec 2) ≠ 0#2 by decide, show (3#2 : BitVec 2) ≠ 2#2 by decide, ↓reduceIte] at h
    repeat' split at h
    all_goals first | (rename_i e; subst e; decide) | cases h

/-- Where a register with one offset lies: its bank and offset. -/
def RegName.home (c : Config) : RegName → Option (BitVec 2 × Byte)
  | .ident => some (0#2, oIDENT)
  | .mstctl => some (0#2, oMSTCTL)
  | .pwr => some (0#2, oPWR)
  | .lpcfg => some (0#2, c.lpConfigOffset)
  | .sensor => none
  | .shadow => none
  | .gyrocfg => some (2#2, oGYROCFG)
  | .accelcfg => some (2#2, oACCELCFG)
  | .auxodr => some (3#2, oAUXODR)
  | .auxmctl => some (3#2, oAUXMCTL)
  | .ptAddr => some (3#2, oPT_ADDR)
  | .ptReg => some (3#2, oPT_REG)
  | .ptCtrl => some (3#2, oPT_CTRL)
  | .ptDo => some (3#2, oPT_DO)

/-- A register is found only where it lies. -/
theorem regAt_home {c : Config} {b : BitVec 2} {o : Byte} {n : RegName} {p : BitVec 2 × Byte}
    (h : regAt c b o = some n) (hp : n.home c = some p) : b = p.1 ∧ o = p.2 := by
  unfold regAt at h
  rcases bank_cases b with rfl | rfl | rfl | rfl
  · simp only [↓reduceIte] at h
    repeat' split at h
    all_goals first
      | (cases h; done)
      | (cases h; cases hp; exact ⟨rfl, by first | assumption | exact And.left (by assumption)⟩)
      | (cases h; simp [RegName.home] at hp)
  · simp at h
  · simp only [show (2#2 : BitVec 2) ≠ 0#2 by decide, ↓reduceIte] at h
    repeat' split at h
    all_goals first | (cases h; done) | (cases h; cases hp; exact ⟨rfl, by assumption⟩)
  · simp only [show (3#2 : BitVec 2) ≠ 0#2 by decide, show (3#2 : BitVec 2) ≠ 2#2 by decide, ↓reduceIte] at h
    repeat' split at h
    all_goals first | (cases h; done) | (cases h; cases hp; exact ⟨rfl, by assumption⟩)

@[simp] theorem storeReg_cfg (b : BitVec 2) (o v : Byte) (s : State) : (storeReg b o v s).cfg = s.cfg := rfl

theorem reg_storeReg {b : BitVec 2} {o v : Byte} {s : State} (w : Memory.wf s.dev.regs = true) (a : Nat) :
    (storeReg b o v s).reg a = if a = regAddr b o then v else s.reg a := Memory.get_set w _ _ _

theorem wf_storeReg {b : BitVec 2} {o v : Byte} {s : State} (w : Memory.wf s.dev.regs = true) :
    Memory.wf (storeReg b o v s).dev.regs = true := Memory.wf_set w _ _

/-! ### Device reset -/

theorem wf_redraw : ∀ {l : List Nat} {m : Memory} {o : Oracle Byte}, Memory.wf m = true →
    Memory.wf (redraw l m o).1 = true
  | [], _, _, h => h
  | _ :: l, _, _, h => wf_redraw (l := l) (Memory.wf_set h _ _)

theorem get_redraw_other : ∀ {l : List Nat} {m : Memory} {o : Oracle Byte} {a : Nat}, Memory.wf m = true → a ∉ l →
    Memory.get (redraw l m o).1 a = Memory.get m a
  | [], _, _, _, _, _ => rfl
  | b :: l, m, o, a, h, ha => by
    simp only [List.mem_cons, not_or] at ha
    simp only [redraw]
    rw [get_redraw_other (Memory.wf_set h _ _) ha.2, Memory.get_set_other h ha.1]

theorem mem_redraw {c : Host.Cell} : ∀ {l : List Nat} {m : Memory} {o : Oracle Byte},
    c ∈ (redraw l m o).1 → c.1 ∈ l ∨ c ∈ m
  | [], _, _, h => .inr h
  | b :: l, m, o, h => by
    rcases mem_redraw (l := l) h with h | h
    · exact .inl (List.mem_cons_of_mem _ h)
    · rcases Memory.mem_set h with h | h
      · exact .inl (h ▸ List.mem_cons_self)
      · exact .inr h

theorem wf_resetRegs {m : Memory} (h : Memory.wf m = true) : Memory.wf (resetRegs m) = true :=
  Memory.wf_set (Memory.wf_set (Memory.wf_set h _ _) _ _) _ _

/-- The registers after a device reset: the three fixed values, and drawn bytes. -/
theorem get_resetRegs {m : Memory} (h : Memory.wf m = true) (a : Nat) :
    Memory.get (resetRegs m) a =
      if a = aPT_CTRL then 0#8
      else if a = aPWR then Memory.get m aPWR &&& 0x7F#8
      else if a = aMSTCTL then Memory.get m aMSTCTL &&& 0xDD#8
      else Memory.get m a := by
  unfold resetRegs
  rw [Memory.get_set (Memory.wf_set (Memory.wf_set h _ _) _ _), Memory.get_set (Memory.wf_set h _ _), Memory.get_set h]

theorem mem_resetRegs {m : Memory} {c : Host.Cell} (h : c ∈ resetRegs m) :
    c.1 = aPT_CTRL ∨ c.1 = aPWR ∨ c.1 = aMSTCTL ∨ c ∈ m := by
  rcases Memory.mem_set h with h | h
  · exact .inl h
  · rcases Memory.mem_set h with h | h
    · exact .inr (.inl h)
    · rcases Memory.mem_set h with h | h
      · exact .inr (.inr (.inl h))
      · exact .inr (.inr (.inr h))

/-! ### Reads change only oracles -/

/-- A state that differs in the SENS oracle and the byte draws only. -/
def ReadRel (s t : State) : Prop := ∃ e, t = s.setEnv e ∧ e.txn = s.env.txn ∧ e.sched = s.env.sched ∧ e.aux = s.env.aux
  ∧ e.fdraw = s.env.fdraw

theorem ReadRel.refl (s : State) : ReadRel s s := ⟨s.env, rfl, rfl, rfl, rfl, rfl⟩

theorem ReadRel.trans {s t u : State} : ReadRel s t → ReadRel t u → ReadRel s u := by
  rintro ⟨e, rfl, h1, h2, h3, h4⟩ ⟨f, rfl, k1, k2, k3, k4⟩
  exact ⟨f, rfl, k1.trans h1, k2.trans h2, k3.trans h3, k4.trans h4⟩

theorem readRel_readReg (n : RegName) (a : Nat) (s : State) : ReadRel s (readReg n a s).2 := by
  cases n <;> simp only [readReg]
  all_goals first
    | exact .refl s
    | exact ⟨_, rfl, rfl, rfl, rfl, rfl⟩
    | (split <;> first | exact .refl s | exact ⟨_, rfl, rfl, rfl, rfl, rfl⟩)

theorem readRel_readByte {o : Byte} {s t : State} {v : Byte} (h : readByte o s = .ok (v, t)) : ReadRel s t := by
  unfold readByte at h
  split at h
  · cases h; exact .refl s
  · split at h
    · cases h
    · rename_i n _
      have e := congrArg Prod.snd (Except.ok.inj h)
      simp only at e
      exact e ▸ readRel_readReg n (regAddr s.bank o) s

theorem readRel_readRun : ∀ {n : Nat} {o : Byte} {s t : State} {bs : List Byte}, readRun n o s = .ok (bs, t) →
    ReadRel s t ∧ bs.length = n
  | 0, _, s, _, _, h => by cases h; exact ⟨.refl s, rfl⟩
  | n + 1, o, s, t, bs, h => by
    unfold readRun at h
    split at h
    · cases h
    · rename_i v s1 h1
      split at h
      · cases h
      · rename_i vs s2 h2
        cases h
        obtain ⟨r, l⟩ := readRel_readRun h2
        exact ⟨(readRel_readByte h1).trans r, by simp [l]⟩

/-- A device read returns the bytes asked for and changes only the oracles (20_memory.md R73). -/
theorem readRel_devRead {o : Byte} {n : Nat} {s t : State} {bs : List Byte} (h : devRead o n s = .ok (bs, t)) :
    ReadRel s t ∧ bs.length = n := by
  unfold devRead at h
  split at h
  · rename_i e; subst e; exact readRel_readRun h
  · split at h
    · exact readRel_readRun h
    · cases h

/-! ### Transactions -/

/-- How a write transaction ends. -/
theorem memWrite_cases (o v : Byte) (s : State) :
    (s.dev.devSettling = true ∧ memWrite o v s = .refused .settleWindow) ∨
    (s.dev.devSettling = false ∧ s.txnFails = true ∧
      memWrite o v s = .failed s.txnAnswer.err (s.afterTxn.record (.w s.handle.addr8 o v (some s.txnAnswer.err)))) ∨
    (s.dev.devSettling = false ∧ s.txnFails = false ∧ ∃ r, devWrite o v s.afterTxn = .error r ∧
      memWrite o v s = .refused r) ∨
    (s.dev.devSettling = false ∧ s.txnFails = false ∧ ∃ s1, devWrite o v s.afterTxn = .ok s1 ∧
      memWrite o v s = .ok () (s1.record (.w s.handle.addr8 o v none))) := by
  unfold memWrite
  cases hs : s.dev.devSettling
  · cases hf : s.txnFails
    · right; right
      cases hd : devWrite o v s.afterTxn with
      | error r => left; exact ⟨rfl, rfl, r, rfl, by simp⟩
      | ok s1 => right; exact ⟨rfl, rfl, s1, rfl, by simp⟩
    · right; left; exact ⟨rfl, rfl, by simp⟩
  · left; exact ⟨rfl, by simp⟩

/-- How a read transaction ends. -/
theorem memRead_cases (o : Byte) (n : Nat) (s : State) :
    (s.dev.devSettling = true ∧ memRead o n s = .refused .settleWindow) ∨
    (s.dev.devSettling = false ∧ s.txnFails = true ∧
      memRead o n s = .failed s.txnAnswer.err (s.afterTxn.record (.r s.handle.addr8 o n [] (some s.txnAnswer.err)))) ∨
    (s.dev.devSettling = false ∧ s.txnFails = false ∧ ∃ r, devRead o n s.afterTxn = .error r ∧
      memRead o n s = .refused r) ∨
    (s.dev.devSettling = false ∧ s.txnFails = false ∧ ∃ bs s1, devRead o n s.afterTxn = .ok (bs, s1) ∧
      memRead o n s = .ok bs (s1.record (.r s.handle.addr8 o n bs none))) := by
  unfold memRead
  cases hs : s.dev.devSettling
  · cases hf : s.txnFails
    · right; right
      cases hd : devRead o n s.afterTxn with
      | error r => left; exact ⟨rfl, rfl, r, rfl, by simp⟩
      | ok p => right; exact ⟨rfl, rfl, p.1, p.2, rfl, by simp⟩
    · right; left; exact ⟨rfl, rfl, by simp⟩
  · left; exact ⟨rfl, by simp⟩

theorem memWrite_ok {o v : Byte} {s s1 : State} (hs : s.dev.devSettling = false) (hf : s.txnFails = false)
    (hd : devWrite o v s.afterTxn = .ok s1) : memWrite o v s = .ok () (s1.record (.w s.handle.addr8 o v none)) := by
  simp [memWrite, hs, hf, hd]

theorem memRead_ok {o : Byte} {n : Nat} {s s1 : State} {bs : List Byte} (hs : s.dev.devSettling = false)
    (hf : s.txnFails = false) (hd : devRead o n s.afterTxn = .ok (bs, s1)) :
    memRead o n s = .ok bs (s1.record (.r s.handle.addr8 o n bs none)) := by
  simp [memRead, hs, hf, hd]

end Sys2Proof.Machine
end

