-- ==== Sys2Proof/Laws/Ops.lean ====
section
/-! SUPPORT. Step lists, said once: what raising and completing write, how a step list is run forward stage by stage,
and what a step list can do at most. -/

namespace Sys2Proof.Machine

/-! ### Raising and completing -/

section
variable (e : ErrKind) (k : Nat) (c : Option TErr) (d : DrvState → DrvState) (s : State)

@[simp] theorem raise_cfg : (raise e k c s).cfg = s.cfg := rfl
@[simp] theorem raise_host : (raise e k c s).host = s.host := rfl
@[simp] theorem raise_activity : (raise e k c s).activity = .idle := rfl
@[simp] theorem raise_handle : (raise e k c s).handle = s.handle := rfl
@[simp] theorem raise_drv : (raise e k c s).drv = s.drv := rfl
@[simp] theorem raise_status : (raise e k c s).status = Status.err e k c := rfl
@[simp] theorem raise_res : (raise e k c s).res = s.res := rfl
@[simp] theorem raise_fus : (raise e k c s).fus = s.fus := rfl
@[simp] theorem raise_dev : (raise e k c s).dev = s.dev := rfl
@[simp] theorem raise_mag : (raise e k c s).mag = s.mag := rfl
@[simp] theorem raise_env : (raise e k c s).env = s.env := rfl
@[simp] theorem raise_trace : (raise e k c s).trace = s.trace := rfl
@[simp] theorem raise_hist : (raise e k c s).hist = s.hist := rfl
@[simp] theorem raise_reg (a : Nat) : (raise e k c s).reg a = s.reg a := rfl

@[simp] theorem complete_cfg : (complete d s).cfg = s.cfg := rfl
@[simp] theorem complete_host : (complete d s).host = s.host := rfl
@[simp] theorem complete_activity : (complete d s).activity = .idle := rfl
@[simp] theorem complete_handle : (complete d s).handle = s.handle := rfl
@[simp] theorem complete_drv : (complete d s).drv = d s.drv := rfl
@[simp] theorem complete_status : (complete d s).status = Status.ok := rfl
@[simp] theorem complete_res : (complete d s).res = s.res := rfl
@[simp] theorem complete_fus : (complete d s).fus = s.fus := rfl
@[simp] theorem complete_dev : (complete d s).dev = s.dev := rfl
@[simp] theorem complete_mag : (complete d s).mag = s.mag := rfl
@[simp] theorem complete_env : (complete d s).env = s.env := rfl
@[simp] theorem complete_trace : (complete d s).trace = s.trace := rfl
@[simp] theorem complete_hist : (complete d s).hist = s.hist := rfl
@[simp] theorem complete_reg (a : Nat) : (complete d s).reg a = s.reg a := rfl

end

/-! ### One stage, and the list -/

theorem stageStep_write_ok {o : Byte} {v : Reads → Byte} {rs : Reads} {s s1 : State}
    (hs : s.dev.devSettling = false) (hf : s.txnFails = false) (hd : devWrite o (v rs) s.afterTxn = .ok s1) :
    stageStep (.write o v) rs s = .ok rs (s1.record (.w s.handle.addr8 o (v rs) none)) := by
  simp [stageStep, memWrite_ok hs hf hd]

theorem stageStep_read_ok {o : Byte} {n : Nat} {rs : Reads} {bs : List Byte} {s s1 : State}
    (hs : s.dev.devSettling = false) (hf : s.txnFails = false) (hd : devRead o n s.afterTxn = .ok (bs, s1)) :
    stageStep (.read o n) rs s = .ok (rs ++ [bs]) (s1.record (.r s.handle.addr8 o n bs none)) := by
  simp [stageStep, memRead_ok hs hf hd]

@[simp] theorem runStages_nil (op : Instr) (k : Nat) (d : Bool) (rs : Reads) (s : State) :
    runStages op [] k d rs s = .done s rs := rfl

theorem runStages_cons_ok {op : Instr} {st : Stage} {rest : List Stage} {k : Nat} {d : Bool} {rs rs1 : Reads}
    {s s1 s2 : State} (ht : tickPoint (s.setActivity (.busy op k)) = .ok s1) (hs : stageStep st rs s1 = .ok rs1 s2) :
    runStages op (st :: rest) k d rs s = runStages op rest (k + 1) (d || isConfigWrite st) rs1 s2 := by
  simp [runStages, ht, hs]

theorem runStages_cons_failed {op : Instr} {st : Stage} {rest : List Stage} {k : Nat} {d : Bool} {rs : Reads} {e : TErr}
    {s s1 s2 : State} (ht : tickPoint (s.setActivity (.busy op k)) = .ok s1) (hs : stageStep st rs s1 = .failed e s2) :
    runStages op (st :: rest) k d rs s = .raised (raise (busFail d) k (some e) s2) := by
  simp [runStages, ht, hs]

theorem runStages_cons_refused_tick {op : Instr} {st : Stage} {rest : List Stage} {k : Nat} {d : Bool} {rs : Reads}
    {r : Refusal} {s : State} (ht : tickPoint (s.setActivity (.busy op k)) = .error r) :
    runStages op (st :: rest) k d rs s = .refused r := by
  simp [runStages, ht]

theorem runStages_cons_refused {op : Instr} {st : Stage} {rest : List Stage} {k : Nat} {d : Bool} {rs : Reads}
    {r : Refusal} {s s1 : State} (ht : tickPoint (s.setActivity (.busy op k)) = .ok s1)
    (hs : stageStep st rs s1 = .refused r) : runStages op (st :: rest) k d rs s = .refused r := by
  simp [runStages, ht, hs]

/-! ### What a step list can do at most -/

/-- A property of the remaining list, the bytes read and the state that each successful stage carries on holds when the
list is done; when it raises, it held before the stage that failed. -/
theorem runStages_induction {op : Instr} {J : List Stage → Reads → State → Prop}
    (hstep : ∀ st rest rs s k s1 rs1 s2, J (st :: rest) rs s → tickPoint (s.setActivity (.busy op k)) = .ok s1 →
      stageStep st rs s1 = .ok rs1 s2 → J rest rs1 s2) :
    ∀ (stages : List Stage) (k : Nat) (d : Bool) (rs : Reads) (s : State), J stages rs s →
      (∀ t rs1, runStages op stages k d rs s = .done t rs1 → J [] rs1 t) ∧
      (∀ t, runStages op stages k d rs s = .raised t → ∃ st rest rs1 s1 s2 e s3 d1 j, J (st :: rest) rs1 s1 ∧
        tickPoint (s1.setActivity (.busy op j)) = .ok s2 ∧ stageStep st rs1 s2 = .failed e s3 ∧
        t = raise (busFail d1) j (some e) s3)
  | [], k, d, rs, s, h => by
    refine ⟨fun t rs1 e => ?_, fun t e => ?_⟩
    · rw [runStages_nil] at e
      injection e with e1 e2
      exact e1 ▸ e2 ▸ h
    · rw [runStages_nil] at e
      cases e
  | st :: rest, k, d, rs, s, h => by
    cases ht : tickPoint (s.setActivity (.busy op k)) with
    | error r => rw [runStages_cons_refused_tick ht]; exact ⟨by simp, by simp⟩
    | ok s1 =>
      cases hs : stageStep st rs s1 with
      | refused r => rw [runStages_cons_refused ht hs]; exact ⟨by simp, by simp⟩
      | failed e s2 =>
        rw [runStages_cons_failed ht hs]
        exact ⟨by simp, fun t ht' => ⟨st, rest, rs, s, s1, e, s2, d, k, h, ht, hs, (RunResult.raised.inj ht').symm⟩⟩
      | ok rs1 s2 =>
        rw [runStages_cons_ok ht hs]
        exact runStages_induction hstep rest (k + 1) _ rs1 s2 (hstep _ _ _ _ _ _ _ _ h ht hs)

/-- Every write of a step list that starts with bank `b` selected, but for the select writes, is of a byte `v` to an
offset `o` of a bank `c` with `P c o v`. A write of `PWR` may leave any bank selected (device reset). -/
def writesAll (P : BitVec 2 → Byte → Byte → Prop) : BitVec 2 → List Stage → Prop
  | _, [] => True
  | b, .write o v :: rest =>
    if o = oBANKSEL then ∀ rs, writesAll P ((v rs).extractLsb' 4 2) rest
    else (∀ rs, P b o (v rs)) ∧ ∀ c, c = b ∨ o = oPWR → writesAll P c rest
  | b, .read _ _ :: rest => writesAll P b rest
  | b, .delay _ :: rest => writesAll P b rest

/-- A device write leaves the bank, except a select and a write of `PWR`. -/
theorem bank_devWrite {o v : Byte} {s t : State} (h : devWrite o v s = .ok t) (ho : o ≠ oBANKSEL) :
    t.bank = s.bank ∨ o = oPWR := by
  unfold devWrite at h
  rw [if_neg ho] at h
  split at h
  all_goals first
    | (cases h; done)
    | (cases h; exact .inl rfl)
    | skip
  · cases h
    left
    unfold writeMstctl
    split <;> rfl
  · rename_i hr
    exact .inr (regAt_home hr rfl).2
  · cases h
    left
    unfold writePtCtrl
    split <;> rfl

theorem engineRel_delay {ms : Nat} {s t : State} (h : delayStep ms s = .ok t) :
    ∃ u, EngineRel s u ∧ t = closeWindows ms u := by
  unfold delayStep at h
  split at h
  · split at h
    · cases h
    · rename_i s1 h1
      cases h
      exact ⟨s1, (engineRel_afterSchedule s).trans (engineRel_ticks h1).1, rfl⟩
  · cases h
    exact ⟨s, .refl s, rfl⟩

/-- A property that the engine, reads, delays, the bookkeeping of transactions and the writes a step list makes all
keep, holds when the list is done; when it raises, the raised state is an error entry of a state that has it. -/
theorem runStages_keeps {op : Instr} {J : State → Prop} {P : BitVec 2 → Byte → Byte → Prop}
    (hact : ∀ s a, J s → J (s.setActivity a)) (heng : ∀ s t, EngineRel s t → J s → J t)
    (hread : ∀ s t, ReadRel s t → J s → J t) (htxn : ∀ s, J s → J s.afterTxn)
    (hrec : ∀ s x, J s → J (s.record x)) (hclose : ∀ ms s, J s → J (closeWindows ms s))
    (hsel : ∀ s v, J s → J (s.setDev { s.dev with banksel := v }))
    (hwr : ∀ o v s t, J s → P s.bank o v → o ≠ oBANKSEL → devWrite o v s = .ok t → J t)
    {stages : List Stage} {k : Nat} {d : Bool} {rs : Reads} {s : State}
    (hw : writesAll P s.bank stages) (hJ : J s) :
    (∀ t rs1, runStages op stages k d rs s = .done t rs1 → J t) ∧
    (∀ t, runStages op stages k d rs s = .raised t → ∃ d1 j e u, J u ∧ t = raise (busFail d1) j (some e) u) := by
  have key := runStages_induction (op := op) (J := fun l _ s => writesAll P s.bank l ∧ J s) ?_ stages k d rs s ⟨hw, hJ⟩
  · refine ⟨fun t rs1 h => (key.1 t rs1 h).2, fun t h => ?_⟩
    obtain ⟨st, rest, rs1, s1, s2, e, s3, d1, j, ⟨_, h1⟩, ht, hs, rfl⟩ := key.2 t h
    refine ⟨d1, j, e, s3, ?_, rfl⟩
    have h2 : J s2 := heng _ _ (engineRel_tickPoint ht) (hact _ _ h1)
    cases st with
    | write o v =>
      rcases memWrite_cases o (v rs1) s2 with ⟨_, h⟩ | ⟨_, _, h⟩ | ⟨_, _, r, _, h⟩ | ⟨_, _, u, _, h⟩ <;>
        simp [stageStep, h] at hs
      exact hs.2 ▸ hrec _ _ (htxn _ h2)
    | read o n =>
      rcases memRead_cases o n s2 with ⟨_, h⟩ | ⟨_, _, h⟩ | ⟨_, _, r, _, h⟩ | ⟨_, _, b, u, _, h⟩ <;>
        simp [stageStep, h] at hs
      exact hs.2 ▸ hrec _ _ (htxn _ h2)
    | delay ms =>
      simp only [stageStep] at hs
      split at hs <;> cases hs
  · rintro st rest rs s k s1 rs1 s2 ⟨hw, h⟩ ht hs
    have r := engineRel_tickPoint ht
    have h1 : J s1 := heng _ _ r (hact _ _ h)
    have hb : s1.bank = s.bank := by simp [State.bank, r.banksel]
    cases st with
    | write o v =>
      rcases memWrite_cases o (v rs) s1 with ⟨_, h⟩ | ⟨_, _, h⟩ | ⟨_, _, r, _, h⟩ | ⟨_, _, u, hd, h⟩ <;>
        simp [stageStep, h] at hs
      obtain ⟨rfl, rfl⟩ := hs
      simp only [writesAll] at hw
      split at hw
      · rename_i ho
        subst ho
        rw [devWrite_select] at hd
        cases hd
        exact ⟨hw rs, hrec _ _ (hsel _ _ (htxn _ h1))⟩
      · rename_i ho
        refine ⟨?_, hrec _ _ (hwr o (v rs) _ u (htxn _ h1) ?_ ho hd)⟩
        · rw [State.record_bank]
          refine hw.2 _ ((bank_devWrite hd ho).imp ?_ id)
          rw [State.afterTxn_bank, hb]; exact id
        · rw [State.afterTxn_bank, hb]; exact hw.1 rs
    | read o n =>
      rcases memRead_cases o n s1 with ⟨_, h⟩ | ⟨_, _, h⟩ | ⟨_, _, r, _, h⟩ | ⟨_, _, b, u, hd, h⟩ <;>
        simp [stageStep, h] at hs
      obtain ⟨rfl, rfl⟩ := hs
      obtain ⟨rr, _⟩ := readRel_devRead hd
      refine ⟨?_, hrec _ _ (hread _ _ rr (htxn _ h1))⟩
      obtain ⟨e, rfl, _⟩ := rr
      exact hb ▸ hw
    | delay ms =>
      simp only [stageStep] at hs
      split at hs
      · cases hs
      · rename_i u hd
        obtain ⟨w, r2, rfl⟩ := engineRel_delay hd
        cases hs
        refine ⟨?_, hclose _ _ (heng _ _ r2 h1)⟩
        have : (closeWindows ms w).bank = s.bank := by
          rw [← hb]; simp [closeWindows, State.bank, r2.banksel]
        exact this ▸ hw

end Sys2Proof.Machine
end

