-- ==== Sys2Proof/Laws/Forward.lean ====
section
/-! SUPPORT. Running a step list forward: from a state that is ready for its transactions and in which no tick is
refused, each kind of stage succeeds under every schedule, and changes this. -/

namespace Sys2Proof.Machine

/-! ### What a successful stage leaves -/

/-- The oracle after `n` answers, and after `m` more. -/
theorem Oracle.take_add {α : Type} (free : Nat → α) : ∀ (n m : Nat) (o : Oracle α),
    (Oracle.take free (n + m) o).2 = (Oracle.take free m (Oracle.take free n o).2).2
  | 0, m, o => by rw [Nat.zero_add]; rfl
  | n + 1, m, o => by
    rw [show n + 1 + m = n + m + 1 by omega]
    exact Oracle.take_add free n m (o.next free).2

/-- The sequencer's registers are as before, the trace has grown by `x` and the transport has given one answer for each
transaction of it, the device window is as before, and every
register outside `w` and `e` reads as before. -/
structure StageRel (e w : List Nat) (x : List Txn) (s t : State) : Prop where
  same : SameSequencer s t
  drv : t.drv = s.drv
  status : t.status = s.status
  res : t.res = s.res
  trace : t.trace = s.trace ++ x
  txn : t.env.txn = (Oracle.take Config.freeTxn x.length s.env.txn).2
  devSettling : t.dev.devSettling = s.dev.devSettling
  regs : ∀ a, a ∉ w → a ∉ e → t.reg a = s.reg a

/-- The engine's part: enabled as before, the master window as before, the history has only grown, and with the engine
off nothing happened. -/
structure EngineSame (s t : State) : Prop where
  tick : t.tickEnabled = s.tickEnabled
  mstSettling : t.dev.mstSettling = s.dev.mstSettling
  hist : s.hist <+: t.hist
  off : s.tickEnabled = false →
    t.hist = s.hist ∧ t.mag = s.mag ∧ t.dev.age = s.dev.age ∧ t.dev.tickNo = s.dev.tickNo

/-- Ready for `n` transactions, with canonical registers, and no tick is refused. -/
structure Go (n : Nat) (s : State) : Prop where
  wf : Memory.wf s.dev.regs = true
  calm : s.calm = true
  ready : s.ready n = true

theorem StageRel.trans {e w w' : List Nat} {x x' : List Txn} {s t u : State} (h : StageRel e w x s t)
    (k : StageRel e w' x' t u) : StageRel e (w ++ w') (x ++ x') s u where
  same := ⟨k.same.cfg.trans h.same.cfg, k.same.host.trans h.same.host, k.same.handle.trans h.same.handle,
    k.same.fus.trans h.same.fus⟩
  drv := k.drv.trans h.drv
  status := k.status.trans h.status
  res := k.res.trans h.res
  trace := by rw [k.trace, h.trace, List.append_assoc]
  txn := by rw [k.txn, h.txn, List.length_append, Oracle.take_add]
  devSettling := k.devSettling.trans h.devSettling
  regs := fun a hw he => by
    rw [List.mem_append, not_or] at hw
    rw [k.regs a hw.2 he, h.regs a hw.1 he]

theorem EngineSame.refl (s : State) : EngineSame s s := ⟨rfl, rfl, List.prefix_refl _, fun _ => ⟨rfl, rfl, rfl, rfl⟩⟩

theorem EngineSame.trans {s t u : State} (h : EngineSame s t) (k : EngineSame t u) : EngineSame s u where
  tick := k.tick.trans h.tick
  mstSettling := k.mstSettling.trans h.mstSettling
  hist := h.hist.trans k.hist
  off := fun o => by
    obtain ⟨a, b, c, d⟩ := h.off o
    obtain ⟨a', b', c', d'⟩ := k.off (h.tick.trans o)
    exact ⟨a'.trans a, b'.trans b, c'.trans c, d'.trans d⟩

theorem ArmedKept.next {s t u : State} (a : ArmedKept s t) (b : ArmedKept t u) (h : EngineSame s t)
    (k : EngineSame t u) : ArmedKept s u := a.trans b h.hist.length_le k.hist.length_le

theorem EngineSame.engineAddrs {s t : State} (h : EngineSame s t) : t.engineAddrs = s.engineAddrs := by
  simp [State.engineAddrs, h.tick]

theorem engineAddrs_subset {s : State} {a : Nat} (h : a ∉ shadowAddrs) : a ∉ s.engineAddrs := by
  unfold State.engineAddrs; split
  · exact h
  · simp

theorem StageRel.shadow {w : List Nat} {x : List Txn} {s s' t : State} (h : StageRel s'.engineAddrs w x s t) :
    StageRel shadowAddrs w x s t :=
  { h with regs := fun a hw he => h.regs a hw (engineAddrs_subset he) }

theorem StageRel.sameDevice {w : List Nat} {x : List Txn} {s t : State} (h : StageRel s.engineAddrs w x s t)
    (k : EngineSame s t) (a : aPT_CTRL ∉ w → ArmedKept s t) : SameDeviceBut w s t :=
  ⟨a, h.regs, h.devSettling, k.mstSettling, k.off⟩

/-! ### The ticks before a stage -/

theorem ready_succ {n : Nat} {s : State} (h : s.ready (n + 1) = true) :
    s.dev.devSettling = false ∧ s.txnFails = false ∧ s.handle.valid = true ∧ s.addressed = true ∧
      allOk n s.afterTxn.env.txn = true := by
  simp only [State.ready, allOk, Bool.and_eq_true, Bool.not_eq_true'] at h
  exact ⟨h.1.2, by simp [State.txnFails, State.txnAnswer, h.1.1.2, h.2.1], h.1.1.1, h.1.1.2, h.2.2⟩

theorem ready_of {n : Nat} {s t : State} (h : s.ready n = true) (h1 : t.handle = s.handle) (h2 : t.cfg = s.cfg)
    (h3 : t.dev.devSettling = s.dev.devSettling) (h4 : t.env.txn = s.env.txn) : t.ready n = true := by
  simpa [State.ready, State.addressed, h1, h2, h3, h4] using h

theorem ready_afterTxn {n : Nat} {s : State} (h : s.ready (n + 1) = true) : s.afterTxn.ready n = true := by
  obtain ⟨h1, _, h3, h4, h5⟩ := ready_succ h
  simp [State.ready, h1, h3, h4, h5]

/-- The ticks before a stage are taken, whatever the schedule. -/
theorem go_tick {n : Nat} {s : State} (h : Go n s) (a : Activity) : ∃ t, tickPoint (s.setActivity a) = .ok t ∧
    EngineRel (s.setActivity a) t ∧ StageRel s.engineAddrs [] [] s t ∧ EngineSame s t ∧ Go n t ∧
    t.env.sens = s.env.sens ∧ t.dev.banksel = s.dev.banksel := by
  obtain ⟨t, ht, r, hc⟩ := tickPoint_ok (s := s.setActivity a) h.wf h.calm
  have k : EngineSame s t := by
    refine ⟨r.tickEnabled h.wf, r.mstSettling, r.hist, fun o => ?_⟩
    rw [tickPoint_off (show (s.setActivity a).tickEnabled = false from o)] at ht
    cases ht
    exact ⟨rfl, rfl, rfl, rfl⟩
  refine ⟨t, ht, r, ⟨⟨r.cfg, r.host, r.handle, r.fus⟩, r.drv, r.status, r.res, by simp [r.trace], r.txn, r.devSettling, ?_⟩, k,
    ⟨r.regsWf h.wf, hc, ready_of h.ready r.handle r.cfg r.devSettling r.txn⟩, r.sens, r.banksel⟩
  intro b _ hb
  cases o : s.tickEnabled
  · rw [tickPoint_off (show (s.setActivity a).tickEnabled = false from o)] at ht
    cases ht
    rfl
  · exact r.regs h.wf b (by simpa [State.engineAddrs, o] using hb)

/-! ### The stages -/

theorem regAddr_ne {c : Config} {b b' : BitVec 2} {o o' : Byte} {nm nm' : RegName} (h : regAt c b o = some nm)
    (h' : regAt c b' o' = some nm') (e : nm ≠ nm') : regAddr b o ≠ regAddr b' o' := by
  intro k
  obtain ⟨rfl, rfl⟩ := regAddr_inj (by have := regAt_lt h; omega) (by have := regAt_lt h'; omega) k
  exact e (Option.some.inj (h.symm.trans h'))

theorem regAt_ptCtrl (c : Config) : regAt c 3#2 oPT_CTRL = some .ptCtrl := by
  simp [regAt, oPT_CTRL, oAUXODR, oAUXMCTL, oPT_ADDR, oPT_REG]

theorem regAt_ptAddr (c : Config) : regAt c 3#2 oPT_ADDR = some .ptAddr := by
  simp [regAt, oAUXODR, oAUXMCTL, oPT_ADDR]

/-- No tick is refused if none was and the registers the engine looks at are as before. -/
theorem calm_congr {s t : State} (h : s.calm = true) (h1 : t.tickEnabled = s.tickEnabled)
    (h2 : t.reg aPT_CTRL = s.reg aPT_CTRL) (h3 : t.reg aPT_ADDR = s.reg aPT_ADDR)
    (h4 : t.writeDue = true → s.writeDue = true) : t.calm = true := by
  simp only [State.calm, h1, State.ptEn, h2, State.refusedConfig, State.ptLen, State.ptRd, h3, Bool.or_eq_true] at h ⊢
  refine h.imp id ?_
  cases hd : t.writeDue
  · simp
    tauto
  · simp [h4 hd]

/-- A select write. -/
theorem go_select {op : Instr} {rest : List Stage} {k : Nat} {d : Bool} {rs : Reads} {n : Nat} {s : State}
    (bank : Byte) (h : Go (n + 1) s) : ∃ t,
    runStages op (selStage bank :: rest) k d rs s = runStages op rest (k + 1) d rs t ∧
    StageRel s.engineAddrs [] [s.okW 0x7F#8 (selByte bank)] s t ∧ EngineSame s t ∧ Go n t ∧
    t.dev.banksel = selByte bank ∧ t.env.sens = s.env.sens ∧
    ArmedKept s t := by
  obtain ⟨u, hu, r, sr, es, g, hs, hb⟩ := go_tick h (.busy op k)
  obtain ⟨h1, h2, h3, h4, h5⟩ := ready_succ g.ready
  refine ⟨(u.afterTxn.setDev { u.afterTxn.dev with banksel := selByte bank }).record
    (.w u.handle.addr8 oBANKSEL (selByte bank) none), ?_, ?_, ?_, ⟨g.wf, ?_, ?_⟩, rfl, hs, ⟨r.kept.arm, r.kept.disarm⟩⟩
  · rw [selStage, runStages_cons_ok hu (stageStep_write_ok h1 h2 (devWrite_select _ _))]
    simp [isConfigWrite]
  · exact { sr with
      same := ⟨sr.same.cfg, sr.same.host, sr.same.handle, sr.same.fus⟩
      trace := by simp [sr.trace, State.okW, oBANKSEL, sr.same.handle]
      txn := congrArg (fun o => (Oracle.next Config.freeTxn o).2) sr.txn }
  · exact ⟨es.tick, es.mstSettling, es.hist, es.off⟩
  · exact calm_congr g.calm rfl rfl rfl id
  · exact ready_of (ready_afterTxn g.ready) rfl rfl rfl rfl

/-- A store to a register the engine does not look at makes no tick refused. -/
theorem calm_store {s u : State} {o v : Byte} {nm : RegName} (w : Memory.wf s.dev.regs = true → Memory.wf u.dev.regs = true)
    (ws : Memory.wf s.dev.regs = true) (hr : regAt s.cfg s.bank o = some nm) (h1 : nm ≠ .mstctl) (h2 : nm ≠ .ptCtrl)
    (h3 : nm ≠ .ptAddr) (hc : u.calm = true) : (storeReg s.bank o v u).calm = true := by
  refine calm_congr hc ?_ ?_ ?_ id
  · have hm : aMSTCTL ≠ regAddr s.bank o :=
      regAddr_ne (c := s.cfg) (b := 0#2) (o := oMSTCTL) (nm := .mstctl) (by simp [regAt, oMSTCTL, oIDENT]) hr (Ne.symm h1)
    simp only [State.tickEnabled, State.mstEn]
    rw [reg_storeReg (w ws), if_neg hm]
    rfl
  · rw [reg_storeReg (w ws), if_neg (show aPT_CTRL ≠ regAddr s.bank o from regAddr_ne (regAt_ptCtrl s.cfg) hr (Ne.symm h2))]
  · rw [reg_storeReg (w ws), if_neg (show aPT_ADDR ≠ regAddr s.bank o from regAddr_ne (regAt_ptAddr s.cfg) hr (Ne.symm h3))]

/-- A write that only stores its byte. -/
theorem go_store {op : Instr} {rest : List Stage} {k : Nat} {d : Bool} {rs : Reads} {n : Nat} {s : State}
    {o : Byte} {v : Reads → Byte} {nm : RegName} (h : Go (n + 1) s) (hr : regAt s.cfg s.bank o = some nm)
    (hm : nm ≠ .mstctl)
    (hd : ∀ u : State, u.cfg = s.cfg → u.bank = s.bank → devWrite o (v rs) u = .ok (storeReg s.bank o (v rs) u))
    (hc : ∀ u, EngineRel (s.setActivity (.busy op k)) u → u.calm = true → (storeReg s.bank o (v rs) u).calm = true) :
    ∃ t, runStages op (.write o v :: rest) k d rs s = runStages op rest (k + 1) true rs t ∧
    StageRel s.engineAddrs [regAddr s.bank o] [s.okW o (v rs)] s t ∧ EngineSame s t ∧ Go n t ∧
    t.dev.banksel = s.dev.banksel ∧ t.reg (regAddr s.bank o) = v rs ∧ t.env.sens = s.env.sens ∧
    ArmedKept s t := by
  obtain ⟨u, hu, r, sr, es, g, hs, hb⟩ := go_tick h (.busy op k)
  obtain ⟨h1, h2, h3, h4, h5⟩ := ready_succ g.ready
  have hbank : u.bank = s.bank := by simp [State.bank, hb]
  have hd := hd u.afterTxn sr.same.cfg hbank
  have hm : aMSTCTL ≠ regAddr s.bank o := by
    refine regAddr_ne (c := s.cfg) (b := 0#2) (o := oMSTCTL) (nm := .mstctl) ?_ hr (Ne.symm hm)
    simp [regAt, oMSTCTL, oIDENT]
  have ht : ((storeReg s.bank o (v rs) u.afterTxn).record (.w u.handle.addr8 o (v rs) none)).tickEnabled =
      u.tickEnabled := by
    simp only [State.tickEnabled, State.mstEn, State.record_reg]
    rw [reg_storeReg (by exact g.wf), if_neg hm]
    rfl
  refine ⟨(storeReg s.bank o (v rs) u.afterTxn).record (.w u.handle.addr8 o (v rs) none), ?_, ?_, ?_,
    ⟨wf_storeReg (by exact g.wf), ?_, ?_⟩, hb, ?_, hs, ⟨r.kept.arm, r.kept.disarm⟩⟩
  · rw [runStages_cons_ok hu (stageStep_write_ok h1 h2 hd)]
    simp [isConfigWrite, regAt_ne_banksel hr]
  · refine { sr with
      same := ⟨sr.same.cfg, sr.same.host, sr.same.handle, sr.same.fus⟩
      trace := by simp [storeReg, sr.trace, State.okW, sr.same.handle]
      txn := congrArg (fun o => (Oracle.next Config.freeTxn o).2) sr.txn
      regs := ?_ }
    intro a hw he
    rw [State.record_reg, reg_storeReg (by exact g.wf), if_neg (by simpa using hw), State.afterTxn_reg]
    exact sr.regs a (by simp) he
  · exact ⟨ht.trans es.tick, es.mstSettling, es.hist, es.off⟩
  · have := hc u r g.calm
    exact this
  · exact ready_of (ready_afterTxn g.ready) rfl rfl rfl rfl
  · rw [State.record_reg, reg_storeReg (by exact g.wf), if_pos rfl]

/-- A write that only stores, to any register but `PT_ADDR`: no tick becomes refused. -/
theorem go_put {op : Instr} {rest : List Stage} {k : Nat} {d : Bool} {rs : Reads} {n : Nat} {s : State}
    {o : Byte} {v : Reads → Byte} {nm : RegName} (h : Go (n + 1) s) (hr : regAt s.cfg s.bank o = some nm)
    (hp : nm.plain = true) (ha : nm ≠ .ptAddr) :
    ∃ t, runStages op (.write o v :: rest) k d rs s = runStages op rest (k + 1) true rs t ∧
    StageRel s.engineAddrs [regAddr s.bank o] [s.okW o (v rs)] s t ∧ EngineSame s t ∧ Go n t ∧
    t.dev.banksel = s.dev.banksel ∧ t.reg (regAddr s.bank o) = v rs ∧ t.env.sens = s.env.sens ∧
    ArmedKept s t := by
  refine go_store h hr (by rintro rfl; simp [RegName.plain] at hp) (fun u hu hb => ?_)
    fun u r hc => calm_store r.regsWf h.wf hr (by rintro rfl; simp [RegName.plain] at hp)
      (by rintro rfl; simp [RegName.plain] at hp) ha hc
  rw [← hb]
  exact devWrite_plain (by rw [hu, hb]; exact hr) hp

/-- A read: it returns what the device read returns after the ticks before it. -/
theorem go_read {op : Instr} {rest : List Stage} {k : Nat} {d : Bool} {rs : Reads} {n m : Nat} {s : State} {o : Byte}
    (h : Go (n + 1) s)
    (hd : ∀ u, EngineRel (s.setActivity (.busy op k)) u → ∃ p, devRead o m u.afterTxn = .ok p) :
    ∃ u t v bs, EngineRel (s.setActivity (.busy op k)) u ∧ StageRel s.engineAddrs [] [] s u ∧
    devRead o m u.afterTxn = .ok (bs, v) ∧
    runStages op (.read o m :: rest) k d rs s = runStages op rest (k + 1) d (rs ++ [bs]) t ∧
    StageRel s.engineAddrs [] [s.okR o m bs] s t ∧ EngineSame s t ∧ Go n t ∧ t.dev = u.dev ∧
    t.dev.banksel = s.dev.banksel ∧ ArmedKept s t ∧ t.env.sens = v.env.sens := by
  obtain ⟨u, hu, r, sr, es, g, hs, hb⟩ := go_tick h (.busy op k)
  obtain ⟨h1, h2, h3, h4, h5⟩ := ready_succ g.ready
  obtain ⟨⟨bs, v⟩, hd⟩ := hd u r
  obtain ⟨⟨e, rfl, htx, hsc, hax, hfd⟩, hl⟩ := readRel_devRead hd
  refine ⟨u, (u.afterTxn.setEnv e).record (.r u.handle.addr8 o m bs none), _, bs, r, sr, hd, ?_, ?_,
    ⟨es.tick, es.mstSettling, es.hist, es.off⟩, ⟨g.wf, ?_, ?_⟩, rfl, hb, ⟨r.kept.arm, r.kept.disarm⟩, rfl⟩
  · rw [runStages_cons_ok hu (stageStep_read_ok h1 h2 hd)]
    simp [isConfigWrite]
  · exact { sr with
      same := ⟨sr.same.cfg, sr.same.host, sr.same.handle, sr.same.fus⟩
      trace := by simp [sr.trace, State.okR, sr.same.handle]
      txn := htx.trans (congrArg (fun o => (Oracle.next Config.freeTxn o).2) sr.txn) }
  · exact calm_congr g.calm rfl rfl rfl id
  · exact ready_of (ready_afterTxn g.ready) rfl rfl rfl htx

/-! ### Device reads -/

theorem devRead_of_readReg {o : Byte} {s : State} {nm : RegName} (h : regAt s.cfg s.bank o = some nm) :
    devRead o 1 s = .ok ([(readReg nm (regAddr s.bank o) s).1], (readReg nm (regAddr s.bank o) s).2) := by
  simp [devRead, readRun, readByte, regAt_ne_banksel h, h]

/-- Reading a stored register: the stored byte (20_memory.md R64). -/
theorem devRead_stored {o : Byte} {s : State} {nm : RegName} (h : regAt s.cfg s.bank o = some nm)
    (h1 : nm ≠ .ident) (h2 : nm ≠ .sensor) (h3 : nm = .mstctl → s.dev.mstSettling = false) :
    devRead o 1 s = .ok ([s.reg (regAddr s.bank o)], s) := by
  rw [devRead_of_readReg h]
  cases nm <;> simp_all [readReg]

/-- A read of one stored register by a step: the byte it held, when the engine does not write it. -/
theorem go_readReg {op : Instr} {rest : List Stage} {k : Nat} {d : Bool} {rs : Reads} {n : Nat} {s : State} {o : Byte}
    {nm : RegName} (h : Go (n + 1) s) (hr : regAt s.cfg s.bank o = some nm)
    (h1 : nm ≠ .ident) (h2 : nm ≠ .sensor) (h3 : nm = .mstctl → s.dev.mstSettling = false)
    (he : regAddr s.bank o ∉ s.engineAddrs) :
    ∃ t, runStages op (.read o 1 :: rest) k d rs s =
      runStages op rest (k + 1) d (rs ++ [[s.reg (regAddr s.bank o)]]) t ∧
    StageRel s.engineAddrs [] [s.okR o 1 [s.reg (regAddr s.bank o)]] s t ∧ EngineSame s t ∧ Go n t ∧
    t.dev.banksel = s.dev.banksel ∧ ArmedKept s t ∧ t.env.sens = s.env.sens := by
  have key : ∀ u, EngineRel (s.setActivity (.busy op k)) u →
      devRead o 1 u.afterTxn = .ok ([u.reg (regAddr s.bank o)], u.afterTxn) := by
    intro u r
    have hb : u.afterTxn.bank = s.bank := by simp [State.bank, r.banksel]
    have := devRead_stored (s := u.afterTxn) (o := o) (nm := nm) (by rw [hb]; simpa [r.cfg] using hr) h1 h2
      (fun e => by simpa [r.mstSettling] using h3 e)
    rwa [hb] at this
  obtain ⟨u, t, v, bs, r, sr, hd, e1, e2, e3, e4, _, e5, e6, e7⟩ :=
    go_read (rest := rest) (k := k) (d := d) (rs := rs) h fun u r => ⟨_, key u r⟩
  rw [key u r] at hd
  injection hd with hd
  injection hd with hd hv
  have : u.reg (regAddr s.bank o) = s.reg (regAddr s.bank o) := sr.regs _ (by simp) he
  rw [← hd, this] at e1 e2
  exact ⟨t, e1, e2, e3, e4, e5, e6, by rw [e7, ← hv]; exact r.sens⟩

/-- Read-modify-write of a register that a write only stores to, in the current bank. -/
theorem go_rmw {op : Instr} {rest : List Stage} {k : Nat} {d : Bool} {rs : Reads} {n : Nat} {s : State} {o : Byte}
    {f : Byte → Byte} {b : BitVec 2} {nm : RegName} (h : Go (n + 1 + 1) s) (hb : s.bank = b)
    (hr : regAt s.cfg b o = some nm)
    (h1 : nm ≠ .ident) (h2 : nm ≠ .sensor) (h3 : nm ≠ .mstctl) (h4 : nm ≠ .ptCtrl) (h5 : nm ≠ .ptAddr)
    (he : regAddr b o ∉ shadowAddrs)
    (hd : ∀ u : State, u.cfg = s.cfg → u.bank = b →
      devWrite o (f (s.reg (regAddr b o))) u = .ok (storeReg b o (f (s.reg (regAddr b o))) u)) :
    ∃ t, runStages op (rmwStages o rs.length f ++ rest) k d rs s =
      runStages op rest (k + 2) true (rs ++ [[s.reg (regAddr b o)]]) t ∧
    StageRel s.engineAddrs [regAddr b o] [s.okR o 1 [s.reg (regAddr b o)], s.okW o (f (s.reg (regAddr b o)))] s t ∧
    EngineSame s t ∧ Go n t ∧ t.dev.banksel = s.dev.banksel ∧ t.reg (regAddr b o) = f (s.reg (regAddr b o)) ∧
    ArmedKept s t := by
  subst hb
  obtain ⟨u, k1, k2, k3, k4, k5, k6, _⟩ := go_readReg (op := op) (k := k) (d := d) (rs := rs)
    (rest := (.write o fun rs' => f (readByteAt rs' rs.length)) :: rest) h hr h1 h2 (fun e => absurd e h3)
    (engineAddrs_subset he)
  have hv : f (readByteAt (rs ++ [[s.reg (regAddr s.bank o)]]) rs.length) = f (s.reg (regAddr s.bank o)) := by
    simp [readByteAt, readAt, byteAt]
  have hub : u.bank = s.bank := by simp [State.bank, k5]
  have hur : regAt u.cfg u.bank o = some nm := by rw [hub, k2.same.cfg]; exact hr
  obtain ⟨w, l1, l2, l3, l4, l5, l6, _, l7⟩ := go_store (op := op) (rest := rest) (k := k + 1) (d := d)
    (rs := rs ++ [[s.reg (regAddr s.bank o)]]) (v := fun rs' => f (readByteAt rs' rs.length)) k4 hur h3
    (fun x hx hxb => by
      rw [hv, hub]; exact hd x (hx.trans k2.same.cfg) (hxb.trans hub))
    (fun x r hc => calm_store r.regsWf k4.wf hur h3 h4 h5 hc)
  rw [hv] at l2 l6
  rw [hub] at l2 l6
  rw [k3.engineAddrs] at l2
  have tr := k2.trans l2
  simp only [List.nil_append, List.singleton_append, State.okW, k2.same.handle] at tr
  refine ⟨w, ?_, tr, k3.trans l3, l4, l5.trans k5, l6, k6.next l7 k3 l3⟩
  show runStages op (.read o 1 :: (.write o fun rs' => f (readByteAt rs' rs.length)) :: rest) k d rs s = _
  rw [k1, l1]

/-! ### A select write and what follows it -/

theorem bank_of_banksel {s : State} {b : Byte} (h : s.dev.banksel = b) : s.bank = b.extractLsb' 4 2 := by
  simp [State.bank, h]

/-- A register that only stores is written so, in every state with that configuration and bank. -/
theorem devWrite_plain_at {c : Config} {b : BitVec 2} {o : Byte} {nm : RegName} (hr : regAt c b o = some nm)
    (hp : nm.plain = true) (v : Byte) : ∀ u : State, u.cfg = c → u.bank = b →
      devWrite o v u = .ok (storeReg b o v u) := by
  rintro u rfl rfl
  exact devWrite_plain hr hp

/-- Select a bank, then read-modify-write a register that only stores its byte. -/
theorem go_selectRmw {op : Instr} {n : Nat} {s : State} {o : Byte} {f : Byte → Byte} {bank : Byte} {b : BitVec 2}
    {nm : RegName} (rest : List Stage) (g : Go (n + 3) s) (hb : (selByte bank).extractLsb' 4 2 = b)
    (hr : regAt s.cfg b o = some nm) (h1 : nm ≠ .ident) (h2 : nm ≠ .sensor) (h3 : nm ≠ .mstctl) (h4 : nm ≠ .ptCtrl)
    (h5 : nm ≠ .ptAddr) (he : regAddr b o ∉ shadowAddrs)
    (hd : ∀ u : State, u.cfg = s.cfg → u.bank = b →
      devWrite o (f (s.reg (regAddr b o))) u = .ok (storeReg b o (f (s.reg (regAddr b o))) u)) :
    ∃ t, runStages op (selStage bank :: (rmwStages o 0 f ++ rest)) 1 false [] s =
      runStages op rest 4 true [[s.reg (regAddr b o)]] t ∧
    StageRel s.engineAddrs [regAddr b o] [s.okW 0x7F#8 (selByte bank), s.okR o 1 [s.reg (regAddr b o)],
      s.okW o (f (s.reg (regAddr b o)))] s t ∧
    EngineSame s t ∧ Go n t ∧ t.dev.banksel = selByte bank ∧ t.reg (regAddr b o) = f (s.reg (regAddr b o)) ∧
    ArmedKept s t := by
  obtain ⟨t, k1, k2, k3, k4, k5, k6⟩ := go_select (op := op) (rest := rmwStages o 0 f ++ rest) (k := 1) (d := false)
    (rs := []) bank g
  have e1 : t.reg (regAddr b o) = s.reg (regAddr b o) := k2.regs _ (by simp) (engineAddrs_subset he)
  obtain ⟨u, l1, l2, l3, l4, l5, l6, l7⟩ := go_rmw (op := op) (rest := rest) (k := 2) (d := false) (rs := []) (f := f) k4
    ((bank_of_banksel k5).trans hb) (by rw [k2.same.cfg]; exact hr) h1 h2 h3 h4 h5 he
    (fun u hu hub => by rw [e1]; exact hd u (hu.trans k2.same.cfg) hub)
  rw [e1] at l1 l2 l6
  rw [k3.engineAddrs] at l2
  have tr := k2.trans l2
  refine ⟨u, ?_, ?_, k3.trans l3, l4, l5.trans k5, l6, k6.2.next l7 k3 l3⟩
  · rw [k1]; exact l1
  · simpa [State.okW, State.okR, k2.same.handle] using tr

/-- Select a bank, then read one stored register. -/
theorem go_selectRead {op : Instr} {n : Nat} {s : State} {o : Byte} {bank : Byte} {b : BitVec 2} {nm : RegName}
    (rest : List Stage) (g : Go (n + 2) s) (k : Nat) (rs : Reads) (hb : (selByte bank).extractLsb' 4 2 = b)
    (hr : regAt s.cfg b o = some nm) (h1 : nm ≠ .ident) (h2 : nm ≠ .sensor) (h3 : nm ≠ .mstctl)
    (he : regAddr b o ∉ shadowAddrs) :
    ∃ t, runStages op (selStage bank :: .read o 1 :: rest) k false rs s =
      runStages op rest (k + 2) false (rs ++ [[s.reg (regAddr b o)]]) t ∧
    StageRel s.engineAddrs [] [s.okW 0x7F#8 (selByte bank), s.okR o 1 [s.reg (regAddr b o)]] s t ∧
    EngineSame s t ∧ Go n t ∧ t.dev.banksel = selByte bank ∧ t.env.sens = s.env.sens ∧ ArmedKept s t := by
  obtain ⟨t, k1, k2, k3, k4, k5, k6⟩ := go_select (op := op) (rest := .read o 1 :: rest) (k := k) (d := false)
    (rs := rs) bank g
  have e1 : t.reg (regAddr b o) = s.reg (regAddr b o) := k2.regs _ (by simp) (engineAddrs_subset he)
  have tb : t.bank = b := (bank_of_banksel k5).trans hb
  obtain ⟨u, l1, l2, l3, l4, l5, l6, l7⟩ := go_readReg (op := op) (rest := rest) (k := k + 1) (d := false) (rs := rs)
    (o := o) k4 (by rw [k2.same.cfg, tb]; exact hr) h1 h2 (fun e => absurd e h3)
    (engineAddrs_subset (by rw [tb]; exact he))
  rw [tb, e1] at l1 l2
  rw [k3.engineAddrs] at l2
  have tr := k2.trans l2
  refine ⟨u, ?_, ?_, k3.trans l3, l4, l5.trans k5, l7.trans k6.1, k6.2.next l6 k3 l3⟩
  · rw [k1]; exact l1
  · simpa [State.okW, State.okR, k2.same.handle] using tr

/-- Reading sensor bytes takes the next answers of the SENS oracle (10_state.md R37). -/
theorem readRun_sensors : ∀ (n : Nat) (o : Byte) (s : State), s.bank = 0#2 → 0x2D#8 ≤ o → o.toNat + n ≤ 0x39 →
    ∃ t, readRun n o s = .ok ((s.env.sens.take Config.freeSens n).1, t)
  | 0, _, s, _, _, _ => ⟨s, rfl⟩
  | n + 1, o, s, hb, h1, h2 => by
    have hr : regAt s.cfg s.bank o = some .sensor := by
      rw [hb]
      unfold regAt
      have a1 : o ≠ oIDENT := by rintro rfl; revert h1; decide
      have a2 : o ≠ oMSTCTL := by rintro rfl; revert h1; decide
      have a3 : o ≠ oPWR := by rintro rfl; revert h1; decide
      rw [if_pos rfl, if_neg a1, if_neg a2, if_neg a3, if_pos]
      exact ⟨h1, by rw [BitVec.le_def]; show o.toNat ≤ 0x38; omega⟩
    have h1' : 45 ≤ o.toNat := by simpa [BitVec.le_def] using h1
    have e : (o + 1#8).toNat = o.toNat + 1 := by rw [BitVec.toNat_add]; simp; omega
    obtain ⟨t, ht⟩ := readRun_sensors n (o + 1#8) s.afterSens hb (by rw [BitVec.le_def, e]; simp; omega) (by omega)
    refine ⟨t, ?_⟩
    simp only [readRun, readByte, if_neg (regAt_ne_banksel hr), hr, readReg]
    rw [ht]
    rfl

/-- Select bank 0, then burst-read six sensor bytes. -/
theorem go_selectSensors {op : Instr} {n : Nat} {s : State} {o : Byte} (g : Go (n + 2) s) (k : Nat) (rs : Reads)
    (h1 : 0x2D#8 ≤ o) (h2 : o ≤ 0x33#8) :
    ∃ t, runStages op (selStage 0#8 :: .read o 6 :: []) k false rs s = .done t (rs ++ [s.sensBytes 6]) ∧
    StageRel s.engineAddrs [] [s.okW 0x7F#8 (selByte 0#8), s.okR o 6 (s.sensBytes 6)] s t ∧
    EngineSame s t ∧ Go n t ∧ t.dev.banksel = selByte 0#8 ∧ ArmedKept s t := by
  obtain ⟨t, k1, k2, k3, k4, k5, k6, k7⟩ := go_select (op := op) (rest := .read o 6 :: []) (k := k) (d := false)
    (rs := rs) 0#8 g
  have tb : t.bank = 0#2 := by rw [bank_of_banksel k5]; decide
  have h2' : o.toNat ≤ 51 := by simpa [BitVec.le_def] using h2
  have key : ∀ u, EngineRel (t.setActivity (.busy op (k + 1))) u →
      ∃ v, devRead o 6 u.afterTxn = .ok (s.sensBytes 6, v) := by
    intro u r
    have hb : u.afterTxn.bank = 0#2 := by rw [← tb]; simp [State.bank, r.banksel]
    obtain ⟨v, hv⟩ := readRun_sensors 6 o u.afterTxn hb h1 (by omega)
    refine ⟨v, ?_⟩
    have : burstOk u.afterTxn.bank o 6 = true := by simp [burstOk, hb, h1]; omega
    simp only [devRead, this]
    rw [if_neg (by decide), if_pos (by simp), hv]
    simp [State.sensBytes, r.sens, k6]
  obtain ⟨u, v, w, bs, r, sr, hd, l1, l2, l3, l4, _, l5, l6⟩ := go_read (op := op) (rest := []) (k := k + 1) (d := false)
    (rs := rs) (m := 6) (o := o) k4 (fun u r => ⟨_, (key u r).choose_spec⟩)
  obtain ⟨x, hx⟩ := key u r
  rw [hx] at hd
  injection hd with hd
  injection hd with hd _
  subst hd
  rw [k3.engineAddrs] at l2
  have tr := k2.trans l2
  refine ⟨v, ?_, ?_, k3.trans l3, l4, l5.trans k5, k7.next l6.1 k3 l3⟩
  · rw [k1, l1]; rfl
  · simpa [State.okW, State.okR, k2.same.handle] using tr

/-! ### A stage whose transaction fails -/

/-- The first transaction of what is left fails: the operation raises there, and nothing but the engine has acted. -/
theorem go_failed {op : Instr} {rest : List Stage} {k : Nat} {d : Bool} {rs : Reads} {s : State} {st : Stage}
    (w : Memory.wf s.dev.regs = true) (hc : s.calm = true) (hs : s.dev.devSettling = false) (hf : s.txnFails = true)
    (hst : ∀ ms, st ≠ .delay ms) : ∃ u x, EngineRel (s.setActivity (.busy op k)) u ∧ EngineSame s u ∧
    StageRel s.engineAddrs [] [] s u ∧
    runStages op (st :: rest) k d rs s =
      .raised (raise (busFail d) k (some s.txnAnswer.err) (u.afterTxn.record x)) ∧
    (∀ o v, st = .write o v → x = .w s.handle.addr8 o (v rs) (some s.txnAnswer.err)) ∧
    (∀ o n, st = .read o n → x = .r s.handle.addr8 o n [] (some s.txnAnswer.err)) := by
  obtain ⟨u, hu, r, hcu⟩ := tickPoint_ok (s := s.setActivity (.busy op k)) w hc
  have es : EngineSame s u := by
    refine ⟨r.tickEnabled w, r.mstSettling, r.hist, fun o => ?_⟩
    rw [tickPoint_off (show (s.setActivity (.busy op k)).tickEnabled = false from o)] at hu
    cases hu
    exact ⟨rfl, rfl, rfl, rfl⟩
  have sr : StageRel s.engineAddrs [] [] s u := by
    refine ⟨⟨r.cfg, r.host, r.handle, r.fus⟩, r.drv, r.status, r.res, by simp [r.trace], r.txn, r.devSettling, ?_⟩
    intro b _ hb
    cases o : s.tickEnabled
    · rw [tickPoint_off (show (s.setActivity (.busy op k)).tickEnabled = false from o)] at hu
      cases hu
      rfl
    · exact r.regs w b (by simpa [State.engineAddrs, o] using hb)
  have ha : u.txnAnswer = s.txnAnswer := by simp [State.txnAnswer, r.txn]
  have hfu : u.txnFails = true := by
    rw [State.txnFails, ha, State.addressed, r.handle, r.cfg]
    exact hf
  have hsu : u.dev.devSettling = false := by rw [r.devSettling]; exact hs
  cases st with
  | write o v =>
    refine ⟨u, .w s.handle.addr8 o (v rs) (some s.txnAnswer.err), r, es, sr, ?_, ?_, nofun⟩
    · refine runStages_cons_failed hu ?_
      simp [stageStep, memWrite, hsu, hfu, ha, r.handle]
    · intro o' v' e
      cases e
      rfl
  | read o n =>
    refine ⟨u, .r s.handle.addr8 o n [] (some s.txnAnswer.err), r, es, sr, ?_, nofun, ?_⟩
    · refine runStages_cons_failed hu ?_
      simp [stageStep, memRead, hsu, hfu, ha, r.handle]
    · intro o' n' e
      cases e
      rfl
  | delay ms => exact absurd rfl (hst ms)

/-! ### The whole operation -/

theorem runOp_done {op : Instr} {stages : List Stage} {fin : Reads → State → State} {s t : State} {rs : Reads}
    (h : runStages op stages 1 false [] s = .done t rs) : runOp op stages fin s = .next (fin rs t) := by
  simp [runOp, h]

theorem runOp_raised {op : Instr} {stages : List Stage} {fin : Reads → State → State} {s t : State}
    (h : runStages op stages 1 false [] s = .raised t) : runOp op stages fin s = .next t := by
  simp [runOp, h]

theorem busOp_run {op : Instr} {stages : List Stage} {fin : Reads → State → State} {s : State} {a : Bool}
    (h : s.handle.valid = true) (ha : a = true) : busOp op a stages fin s = runOp op stages fin s := by
  simp [busOp, h, ha]

theorem Go.of_ready {n : Nat} {s : State} (h : s.Inv) (hc : s.calm = true) (hr : s.ready n = true) : Go n s :=
  ⟨h.regsWf, hc, hr⟩

theorem Go.valid {n : Nat} {s : State} (h : Go n s) : s.handle.valid = true := by
  have := h.ready
  simp only [State.ready, Bool.and_eq_true] at this
  exact this.1.1.1

end Sys2Proof.Machine
end

