-- ==== Sys2Proof/Laws/Exec.lean ====
section
/-! SUPPORT. What an operation can do, said once: its step list and its end, the ways `exec` can answer a next state,
and what no step list touches. -/

namespace Sys2Proof.Machine

/-- `runStages_keeps` for a property that every device write keeps. -/
theorem runStages_keeps_all {op : Instr} {J : State → Prop}
    (hact : ∀ s a, J s → J (s.setActivity a)) (heng : ∀ s t, EngineRel s t → J s → J t)
    (hread : ∀ s t, ReadRel s t → J s → J t) (htxn : ∀ s, J s → J s.afterTxn)
    (hrec : ∀ s x, J s → J (s.record x)) (hclose : ∀ ms s, J s → J (closeWindows ms s))
    (hsel : ∀ s v, J s → J (s.setDev { s.dev with banksel := v }))
    (hwr : ∀ o v s t, J s → devWrite o v s = .ok t → J t)
    {stages : List Stage} {k : Nat} {d : Bool} {rs : Reads} {s : State} (hJ : J s) :
    (∀ t rs1, runStages op stages k d rs s = .done t rs1 → J t) ∧
    (∀ t, runStages op stages k d rs s = .raised t → ∃ d1 j e u, J u ∧ t = raise (busFail d1) j (some e) u) := by
  refine runStages_keeps (P := fun _ _ _ => True) hact heng hread htxn hrec hclose hsel
    (fun o v s t h _ _ => hwr o v s t h) ?_ hJ
  generalize s.bank = b
  clear hJ
  induction stages generalizing b with
  | nil => trivial
  | cons st rest ih =>
    cases st with
    | write o v =>
      simp only [writesAll]
      split
      · exact fun rs => ih _
      · exact ⟨fun _ => trivial, fun c _ => ih _⟩
    | read o n => exact ih _
    | delay ms => exact ih _

/-- What every step list keeps: the sequencer's registers, and the traces only grow. -/
structure SeqKept (s t : State) : Prop where
  cfg : t.cfg = s.cfg
  host : t.host = s.host
  handle : t.handle = s.handle
  fus : t.fus = s.fus
  res : t.res = s.res
  drv : t.drv = s.drv
  trace : s.trace <+: t.trace
  hist : s.hist <+: t.hist

theorem SeqKept.trans {s t u : State} (h : SeqKept s t) (k : SeqKept t u) : SeqKept s u :=
  ⟨k.1.trans h.1, k.2.trans h.2, k.3.trans h.3, k.4.trans h.4, k.5.trans h.5, k.6.trans h.6, h.7.trans k.7,
    h.8.trans k.8⟩

/-- A state with the same sequencer registers and traces. -/
theorem SeqKept.of_eq {s t : State} (h1 : t.cfg = s.cfg) (h2 : t.host = s.host) (h3 : t.handle = s.handle)
    (h4 : t.fus = s.fus) (h5 : t.res = s.res) (h6 : t.drv = s.drv) (h7 : t.trace = s.trace) (h8 : t.hist = s.hist) :
    SeqKept s t := ⟨h1, h2, h3, h4, h5, h6, h7 ▸ List.prefix_refl _, h8 ▸ List.prefix_refl _⟩

theorem SeqKept.refl (s : State) : SeqKept s s := .of_eq rfl rfl rfl rfl rfl rfl rfl rfl

theorem SeqKept.devWrite {o v : Byte} {s t : State} (h : Sys2Proof.Machine.devWrite o v s = .ok t) : SeqKept s t := by
  unfold Sys2Proof.Machine.devWrite at h
  split at h
  · cases h; exact .of_eq rfl rfl rfl rfl rfl rfl rfl rfl
  · split at h
    all_goals first
      | (cases h; done)
      | (cases h; exact .of_eq rfl rfl rfl rfl rfl rfl rfl rfl)
      | skip
    · cases h; unfold writeMstctl; split <;> exact .of_eq rfl rfl rfl rfl rfl rfl rfl rfl
    · cases h; unfold writePwr; split <;> exact .of_eq rfl rfl rfl rfl rfl rfl rfl rfl
    · cases h; unfold writePtCtrl; split <;> exact .of_eq rfl rfl rfl rfl rfl rfl rfl rfl

theorem SeqKept.run {op : Instr} {stages : List Stage} {k : Nat} {d : Bool} {rs : Reads} {s : State} :
    (∀ t rs1, runStages op stages k d rs s = .done t rs1 → SeqKept s t) ∧
    (∀ t, runStages op stages k d rs s = .raised t → ∃ d1 j e u, SeqKept s u ∧ t = raise (busFail d1) j (some e) u) := by
  refine runStages_keeps_all (J := SeqKept s) ?_ ?_ ?_ ?_ ?_ ?_ ?_ ?_ (SeqKept.refl s)
  · exact fun s a h => h.trans (.of_eq rfl rfl rfl rfl rfl rfl rfl rfl)
  · exact fun s t r h => h.trans ⟨r.cfg, r.host, r.handle, r.fus, r.res, r.drv, r.trace ▸ List.prefix_refl _, r.hist⟩
  · rintro s t ⟨e, rfl, _⟩ h; exact h.trans (.of_eq rfl rfl rfl rfl rfl rfl rfl rfl)
  · exact fun s h => h.trans (.of_eq rfl rfl rfl rfl rfl rfl rfl rfl)
  · exact fun s x h => h.trans ⟨rfl, rfl, rfl, rfl, rfl, rfl, ⟨[x], rfl⟩, List.prefix_refl _⟩
  · exact fun ms s h => h.trans (.of_eq rfl rfl rfl rfl rfl rfl rfl rfl)
  · exact fun s v h => h.trans (.of_eq rfl rfl rfl rfl rfl rfl rfl rfl)
  · exact fun o v s t h e => h.trans (SeqKept.devWrite e)

/-- How an operation of the template answers a next state. -/
theorem busOp_cases {op : Instr} {a : Bool} {stages : List Stage} {fin : Reads → State → State} {s t : State}
    (h : busOp op a stages fin s = .next t) :
    t = invalidArgument s ∨
    (∃ u rs, s.handle.valid = true ∧ a = true ∧ runStages op stages 1 false [] s = .done u rs ∧ t = fin rs u) ∨
    (s.handle.valid = true ∧ a = true ∧ runStages op stages 1 false [] s = .raised t) := by
  unfold busOp at h
  split at h
  · rename_i hh
    simp only [Bool.and_eq_true] at hh
    unfold runOp at h
    split at h
    · cases h; exact .inr (.inl ⟨_, _, hh.1, hh.2, ‹_›, rfl⟩)
    · cases h; exact .inr (.inr ⟨hh.1, hh.2, ‹_›⟩)
    · cases h
  · cases h; exact .inl rfl

/-- The step list of an operation; empty for the operations without one. -/
def stagesOf (c : Config) : Instr → List Stage
  | .selectBank bank => [selStage bank]
  | .delay ms => [.delay ms.toNat]
  | .create _ _ => []
  | .release => []
  | .reset => selStage 0#8 :: rmwStages oPWR 0 pwrReset
  | .wake => selStage 0#8 :: rmwStages oPWR 0 pwrWake
  | .sleep => selStage 0#8 :: rmwStages oPWR 0 pwrSleep
  | .getDeviceId => [selStage 0#8, .read oIDENT 1]
  | .setGyroFs fs => selStage 2#8 :: rmwStages oGYROCFG 0 fun v => insFs v fs
  | .getGyroFs => [selStage 2#8, .read oGYROCFG 1]
  | .setAccelFs fs => selStage 2#8 :: rmwStages oACCELCFG 0 fun v => insFs v fs
  | .getAccelFs => [selStage 2#8, .read oACCELCFG 1]
  | .setDlpf sensor cutoff => selStage 2#8 :: rmwStages (dlpfOffset sensor) 0 fun v => insCut v cutoff
  | .enableDlpf en =>
    selStage 2#8 :: (rmwStages oACCELCFG 0 (fun v => insEn v en) ++ rmwStages oGYROCFG 1 fun v => insEn v en)
  | .getRawAccel => [selStage 0#8, .read c.accelBase 6]
  | .getRawGyro => [selStage 0#8, .read c.gyroBase 6]
  | .getAccel => [selStage 0#8, selStage 2#8, .read oACCELCFG 1, selStage 0#8, .read c.accelBase 6]
  | .getGyro => [selStage 0#8, selStage 2#8, .read oGYROCFG 1, selStage 0#8, .read c.gyroBase 6]
  | .writeAux a b => writeAuxStages c a b
  | .readAux a b => readAuxStages c a b
  | .getRawMag => [selStage 0#8, .read oSHADOW 8]
  | .auxInit => auxInitStages c
  | .elevation => []
  | .azimuth => []

/-- How a done step list ends the operation. -/
def finishOf : Instr → Reads → State → State
  | .selectBank _ => fun _ => complete id
  | .delay _ => fun _ => complete id
  | .create _ _ => fun _ => id
  | .release => fun _ => id
  | .reset => fun _ => complete fun _ => .reset 0
  | .wake => fun _ => complete (drvAdvance [0] 1)
  | .sleep => fun _ => complete id
  | .getDeviceId => finDeviceId
  | .setGyroFs _ => fun _ => complete (drvAdvance [2, 3] 3)
  | .getGyroFs => finFs
  | .setAccelFs _ => fun _ => complete (drvAdvance [2, 3] 3)
  | .getAccelFs => finFs
  | .setDlpf _ _ => fun _ => complete id
  | .enableDlpf _ => fun _ => complete id
  | .getRawAccel => finRawAccel
  | .getRawGyro => finRawGyro
  | .getAccel => finAccel
  | .getGyro => finGyro
  | .writeAux _ _ => fun _ => complete id
  | .readAux _ _ => fun _ => complete id
  | .getRawMag => finRawMag
  | .auxInit => fun _ => complete drvConfigured
  | .elevation => fun _ => id
  | .azimuth => fun _ => id

/-- The operation runs its step list: an admitted bus operation with a handle, or DELAY. -/
def Runs (i : Instr) (s : State) : Prop :=
  (usesBus i = true ∧ admitted s.cfg i = true ∧ s.handle.valid = true) ∨ ∃ ms, i = .delay ms

/-- What the next state of `exec` can be: a rejection, one of the four operations without a step list, or the end of the
operation's step list. -/
theorem exec_next_cases {i : Instr} {s t : State} {R : State → Prop} (h : exec i s = .next t)
    (rejected : R (invalidArgument s))
    (create : ∀ bus a, i = .create bus a → s.handle.valid = false → addr7Ok a = true →
      R (complete (fun _ => .unconfigured) (s.setHandle ⟨true, bus, handleAddr8 a⟩)))
    (release : i = .release → s.handle.valid = true →
      R (complete (fun _ => .noHandle) (s.setHandle { s.handle with valid := false })))
    (elevation : ∀ x, i = .elevation → R (complete id (s.afterFdraw.setFus { s.fus with elev := x })))
    (azimuth : ∀ x, i = .azimuth → R (complete id (s.afterFdraw.setFus { s.fus with azim := x })))
    (run : Runs i s →
      (∀ u rs, runStages i (stagesOf s.cfg i) 1 false [] s = .done u rs → R (finishOf i rs u)) ∧
      (∀ u, runStages i (stagesOf s.cfg i) 1 false [] s = .raised u → R u)) : R t := by
  have bus : ∀ {a}, busOp i a (stagesOf s.cfg i) (finishOf i) s = .next t → usesBus i = true →
      (s.handle.valid = true → a = true → admitted s.cfg i = true) → R t := by
    intro a h hu ha
    rcases busOp_cases h with rfl | ⟨u, rs, hv, h1, hr, rfl⟩ | ⟨hv, h1, hr⟩
    · exact rejected
    · exact (run (.inl ⟨hu, ha hv h1, hv⟩)).1 u rs hr
    · exact (run (.inl ⟨hu, ha hv h1, hv⟩)).2 t hr
  cases i <;> simp only [exec] at h
  case elevation => cases h; exact elevation _ rfl
  case azimuth => cases h; exact azimuth _ rfl
  case create b a =>
    unfold execCreate at h; split at h <;> [skip; split at h] <;> cases h
    · exact rejected
    · exact create _ _ rfl (by simp_all) (by assumption)
    · exact rejected
  case release =>
    unfold execRelease at h; split at h <;> cases h
    · exact release rfl (by assumption)
    · exact rejected
  case delay ms =>
    unfold execDelay runOp at h
    split at h <;> cases h
    · exact (run (.inr ⟨ms, rfl⟩)).1 _ _ (by assumption)
    · exact (run (.inr ⟨ms, rfl⟩)).2 _ (by assumption)
  case readAux a n =>
    unfold execReadAux at h
    split at h
    · cases h
    · rename_i hn
      refine bus h rfl fun hv _ => ?_
      have : auxLenOk n = true := by
        cases hx : auxLenOk n
        · simp [hv, hx] at hn
        · rfl
      show (Instr.wf (.readAux a n) && true) = true
      rw [Bool.and_true]
      exact this
  case auxInit =>
    unfold execAuxInit at h
    split at h
    · cases h
    · rename_i hn
      exact bus h rfl fun hv _ => by simpa [hv, admitted, Instr.wf] using hn
  all_goals exact bus h rfl (by simp [admitted, Instr.wf, bankOk, fsOk, dlpfOk, enOk])

/-- An admitted operation of the template, with a handle, is its step list and its end. -/
theorem exec_eq_runOp {i : Instr} {s : State} (hu : usesBus i = true) (ha : admitted s.cfg i = true)
    (hv : s.handle.valid = true) : exec i s = runOp i (stagesOf s.cfg i) (finishOf i) s := by
  simp only [admitted, Bool.and_eq_true] at ha
  obtain ⟨hw, hl⟩ := ha
  cases i
  case readAux a n =>
    have : auxLenOk n = true := hw
    simp [exec, execReadAux, hv, this, busOp]
    rfl
  case auxInit =>
    have : lpOffsetOk s.cfg = true := by simpa using hl
    simp [exec, execAuxInit, hv, this, busOp]
    rfl
  all_goals first
    | (simp [usesBus] at hu; done)
    | (simp only [exec]; exact busOp_run hv hw)

end Sys2Proof.Machine
end

