-- ==== Sys2Proof/Laws/Channel.lean ====
section
/-! SUPPORT. The passthrough channel, said once: which writes of its registers cannot make a tick refused, and what the
step lists of WRITEAUX and READAUX leave, alone or inside AUXINIT. -/

namespace Sys2Proof.Machine

theorem regAt_ptReg (c : Config) : regAt c 3#2 oPT_REG = some .ptReg := by
  simp [regAt, oAUXODR, oAUXMCTL, oPT_ADDR, oPT_REG]

theorem regAt_ptDo (c : Config) : regAt c 3#2 oPT_DO = some .ptDo := by
  simp [regAt, oAUXODR, oAUXMCTL, oPT_ADDR, oPT_REG, oPT_CTRL, oPT_DO]

theorem channelLegal_bits {v : Byte} (h : channelLegal v = true) :
    v &&& 0x70#8 = 0#8 ∧ (v.getLsbD 7 = true → 1 ≤ (v &&& 0x0F#8).toNat ∧ (v &&& 0x0F#8).toNat ≤ 8) := by
  revert v; decide

theorem ptAddrWrite_bits (a7 : BitVec 7) : (ptAddrWrite a7).getLsbD 7 = false ∧ (ptAddrWrite a7).setWidth 7 = a7 := by
  revert a7; decide

theorem ptAddrRead_bits (a7 : BitVec 7) : (ptAddrRead a7).getLsbD 7 = true ∧ (ptAddrRead a7).setWidth 7 = a7 := by
  revert a7; decide

theorem ptCtrlByte_bits {n : Byte} (h1 : 1#8 ≤ n) (h2 : n ≤ 8#8) :
    channelLegal (ptCtrlByte n) = true ∧ (ptCtrlByte n).getLsbD 7 = true ∧
      (ptCtrlByte n &&& 0x0F#8).toNat = n.toNat := by
  revert n; decide

/-- Turning the channel to writing cannot make a tick refused when `writeTurnSafe` holds. -/
theorem calm_turnWrite {s : State} {v : Byte} (w : Memory.wf s.dev.regs = true)
    (hc : channelLegal (s.reg aPT_CTRL) = true) (ht : s.writeTurnSafe = true) (hv : v.getLsbD 7 = false) :
    (storeReg 3#2 oPT_ADDR v s).calm = true := by
  have e1 : (storeReg 3#2 oPT_ADDR v s).reg aPT_CTRL = s.reg aPT_CTRL := (reg_storeReg w _).trans (if_neg (by decide))
  have e2 : (storeReg 3#2 oPT_ADDR v s).reg aPT_ADDR = v := (reg_storeReg w _).trans (if_pos (by decide))
  have e3 : (storeReg 3#2 oPT_ADDR v s).writeDue = s.writeDue := rfl
  obtain ⟨h1, h2⟩ := channelLegal_bits hc
  simp only [State.writeTurnSafe, State.ptEn, State.ptLen] at ht
  simp only [State.calm, State.refusedConfig, State.ptEn, State.ptRd, State.ptLen, e1, e2, e3, hv, h1]
  cases he : (s.reg aPT_CTRL).getLsbD 7
  · simp
  · cases hd : s.writeDue
    · simp
    · simp only [he, hd] at ht
      simp at ht
      simp [ht]

/-- With the engine off no tick is refused. -/
theorem calm_of_off {s : State} (h : s.tickEnabled = false) : s.calm = true := by simp [State.calm, h]

/-- A write of `PT_ADDR` leaves the engine on or off. -/
theorem tickEnabled_putAddr {s : State} {v : Byte} (w : Memory.wf s.dev.regs = true) :
    (storeReg 3#2 oPT_ADDR v s).tickEnabled = s.tickEnabled := by
  simp only [State.tickEnabled, State.mstEn]
  rw [reg_storeReg w, if_neg (by decide)]
  rfl

theorem EngineRel.writeTurnSafe {s t : State} (h : EngineRel s t) (w : Memory.wf s.dev.regs = true)
    (k : s.writeTurnSafe = true) : t.writeTurnSafe = true := by
  simp only [State.writeTurnSafe, State.ptEn, State.ptLen, h.ptCtrl w] at k ⊢
  cases hd : t.writeDue
  · simp
  · simpa [h.writeDue hd] using k

theorem writeTurnSafe_of {s t : State} (k : s.writeTurnSafe = true) (h1 : t.reg aPT_CTRL = s.reg aPT_CTRL)
    (h2 : t.cfg = s.cfg) (h3 : t.dev.auxArmed = true → s.dev.auxArmed = true) : t.writeTurnSafe = true := by
  simp only [State.writeTurnSafe, State.ptEn, State.ptLen, h1, State.writeDue, h2] at k ⊢
  cases ha : t.dev.auxArmed
  · revert k; cases s.dev.auxArmed <;> simp; tauto
  · simpa [h3 ha] using k

/-- A legal channel that reads, or whose length is 1, makes no tick refused. -/
theorem calm_of_channel {s : State} (h : channelLegal (s.reg aPT_CTRL) = true) (k : s.ptRd = true ∨ s.ptLen = 1) :
    s.calm = true := by
  obtain ⟨h1, h2⟩ := channelLegal_bits h
  cases he : s.ptEn
  · simp [State.calm, he]
  · have h3 : 1 ≤ s.ptLen ∧ s.ptLen ≤ 8 := h2 he
    have n0 : decide (s.ptLen = 0) = false := decide_eq_false (by omega)
    have n8 : decide (8 < s.ptLen) = false := decide_eq_false (by omega)
    rcases k with k | k <;> simp [State.calm, State.refusedConfig, h1, k, n0, n8]

/-- Turning the channel to reading cannot make a tick refused. -/
theorem calm_turnRead {s : State} {v : Byte} (w : Memory.wf s.dev.regs = true)
    (hc : channelLegal (s.reg aPT_CTRL) = true) (hv : v.getLsbD 7 = true) : (storeReg 3#2 oPT_ADDR v s).calm = true := by
  have e1 : (storeReg 3#2 oPT_ADDR v s).reg aPT_CTRL = s.reg aPT_CTRL := (reg_storeReg w _).trans (if_neg (by decide))
  have e2 : (storeReg 3#2 oPT_ADDR v s).reg aPT_ADDR = v := (reg_storeReg w _).trans (if_pos (by decide))
  exact calm_of_channel (by rw [e1]; exact hc) (.inl (by rw [State.ptRd, e2]; exact hv))

/-- A write of `PT_CTRL` that enables the channel: it arms, and no tick is refused for a length of 1, or of 1 to 8 when
the channel reads. -/
theorem go_ptCtrl {op : Instr} {rest : List Stage} {k : Nat} {d : Bool} {rs : Reads} {n : Nat} {s : State} {m : Byte}
    (h : Go (n + 1) s) (hb : s.bank = 3#2) (h1 : 1#8 ≤ m) (h2 : m ≤ 8#8)
    (hm : (s.reg aPT_ADDR).getLsbD 7 = true ∨ m = 1#8) :
    ∃ t, runStages op (putStage oPT_CTRL (ptCtrlByte m) :: rest) k d rs s = runStages op rest (k + 1) true rs t ∧
    StageRel s.engineAddrs [aPT_CTRL] [s.okW oPT_CTRL (ptCtrlByte m)] s t ∧ EngineSame s t ∧ Go n t ∧
    t.dev.banksel = s.dev.banksel ∧ t.reg aPT_CTRL = ptCtrlByte m ∧ t.dev.auxArmed = true ∧
    t.env.sens = s.env.sens := by
  obtain ⟨u, hu, r, sr, es, g, hs, hbk⟩ := go_tick h (.busy op k)
  obtain ⟨k1, k2, k3, k4, k5⟩ := ready_succ g.ready
  have hbank : u.bank = 3#2 := by rw [← hb]; simp [State.bank, hbk]
  obtain ⟨c1, c2, c3⟩ := ptCtrlByte_bits h1 h2
  have hd : devWrite oPT_CTRL (ptCtrlByte m) u.afterTxn = .ok (writePtCtrl (ptCtrlByte m) u.afterTxn) := by
    unfold devWrite
    rw [if_neg (by decide), State.afterTxn_bank, hbank, regAt_ptCtrl]
  have hw : writePtCtrl (ptCtrlByte m) u.afterTxn =
      (storeReg 3#2 oPT_CTRL (ptCtrlByte m) u.afterTxn).setDev
        { (storeReg 3#2 oPT_CTRL (ptCtrlByte m) u.afterTxn).dev with auxArmed := true } := by
    simp only [writePtCtrl, c2, if_true]
  rw [hw] at hd
  have wu : Memory.wf u.afterTxn.dev.regs = true := g.wf
  have er : ∀ a, a ≠ aPT_CTRL → Memory.get (Memory.set u.dev.regs (regAddr 3#2 oPT_CTRL) (ptCtrlByte m)) a = u.reg a :=
    fun a ha => Memory.get_set_other g.wf ha _
  have ec : Memory.get (Memory.set u.dev.regs (regAddr 3#2 oPT_CTRL) (ptCtrlByte m)) aPT_CTRL = ptCtrlByte m :=
    Memory.get_set_same g.wf _ _
  have ht : (((storeReg 3#2 oPT_CTRL (ptCtrlByte m) u.afterTxn).setDev
        { (storeReg 3#2 oPT_CTRL (ptCtrlByte m) u.afterTxn).dev with auxArmed := true }).record
          (.w u.handle.addr8 oPT_CTRL (ptCtrlByte m) none)).tickEnabled = u.tickEnabled := by
    have := er aMSTCTL (by decide)
    simp only [State.tickEnabled, State.mstEn, State.reg, State.record_dev, State.setDev_dev, storeReg,
      State.afterTxn_dev] at this ⊢
    rw [this]
  refine ⟨_, ?_, ?_, ⟨ht.trans es.tick, es.mstSettling, es.hist, es.off⟩, ⟨?_, ?_, ?_⟩, hbk, ec, rfl, hs⟩
  · rw [putStage, runStages_cons_ok hu (stageStep_write_ok k1 k2 hd)]
    simp [isConfigWrite, show oPT_CTRL ≠ oBANKSEL by decide]
  · refine { sr with
      same := ⟨sr.same.cfg, sr.same.host, sr.same.handle, sr.same.fus⟩
      trace := by simp [storeReg, sr.trace, State.okW, sr.same.handle]
      txn := congrArg (fun o => (Oracle.next Config.freeTxn o).2) sr.txn
      regs := ?_ }
    intro a ha he
    exact (er a (by simpa using ha)).trans (sr.regs a (by simp) he)
  · exact Memory.wf_set g.wf _ _
  · have ea := er aPT_ADDR (by decide)
    have ea' : u.reg aPT_ADDR = s.reg aPT_ADDR := sr.regs _ (by simp) (engineAddrs_subset (by decide))
    refine calm_of_channel ?_ ?_
    · exact (congrArg channelLegal ec).trans c1
    · refine hm.imp (fun e => ?_) fun e => ?_
      · exact (congrArg (fun v : Byte => v.getLsbD 7) (ea.trans ea')).trans e
      · exact (congrArg (fun v : Byte => (v &&& 0x0F#8).toNat) ec).trans (c3.trans (by rw [e]; rfl))
  · exact ready_of (ready_afterTxn g.ready) rfl rfl rfl rfl

/-- A write of a constant to a channel register but `PT_CTRL` and `PT_ADDR`. -/
theorem go_putChannel {op : Instr} {rest : List Stage} {k : Nat} {d : Bool} {rs : Reads} {n : Nat} {s : State}
    {o v : Byte} {nm : RegName} (h : Go (n + 1) s) (hb : s.bank = 3#2) (hr : regAt s.cfg 3#2 o = some nm)
    (hp : nm.plain = true) (ha : nm ≠ .ptAddr) :
    ∃ t, runStages op (putStage o v :: rest) k d rs s = runStages op rest (k + 1) true rs t ∧
    StageRel s.engineAddrs [regAddr 3#2 o] [s.okW o v] s t ∧ EngineSame s t ∧ Go n t ∧
    t.dev.banksel = s.dev.banksel ∧ t.reg (regAddr 3#2 o) = v ∧ t.env.sens = s.env.sens ∧
    ArmedKept s t := by
  have := go_put (op := op) (rest := rest) (k := k) (d := d) (rs := rs) (v := fun _ => v) h (by rw [hb]; exact hr) hp ha
  rwa [hb] at this

/-- A write of a constant to `PT_ADDR`. -/
theorem go_putAddr {op : Instr} {rest : List Stage} {k : Nat} {d : Bool} {rs : Reads} {n : Nat} {s : State} {v : Byte}
    (h : Go (n + 1) s) (hb : s.bank = 3#2) (hc : channelLegal (s.reg aPT_CTRL) = true)
    (ht : v.getLsbD 7 = true ∨ s.tickEnabled = false ∨ s.writeTurnSafe = true) :
    ∃ t, runStages op (putStage oPT_ADDR v :: rest) k d rs s = runStages op rest (k + 1) true rs t ∧
    StageRel s.engineAddrs [aPT_ADDR] [s.okW oPT_ADDR v] s t ∧ EngineSame s t ∧ Go n t ∧
    t.dev.banksel = s.dev.banksel ∧ t.reg aPT_ADDR = v ∧ t.env.sens = s.env.sens ∧
    ArmedKept s t := by
  have hr : regAt s.cfg s.bank oPT_ADDR = some .ptAddr := by rw [hb]; exact regAt_ptAddr _
  have := go_store (op := op) (rest := rest) (k := k) (d := d) (rs := rs) (v := fun _ => v) h hr (by decide)
    (fun u hu hub => by rw [← hub]; exact devWrite_plain (by rw [hu, hub]; exact hr) rfl)
    (fun u r hcu => by
      have hcu' : channelLegal (u.reg aPT_CTRL) = true := by rw [r.ptCtrl h.wf]; exact hc
      rw [hb]
      cases hv : v.getLsbD 7
      · rcases ht.resolve_left (by rw [hv]; decide) with off | ts
        · exact calm_of_off ((tickEnabled_putAddr (r.regsWf h.wf)).trans ((r.tickEnabled h.wf).trans off))
        · exact calm_turnWrite (r.regsWf h.wf) hcu' (r.writeTurnSafe h.wf ts) hv
      · exact calm_turnRead (r.regsWf h.wf) hcu' hv)
  rwa [hb] at this

/-- The step list of WRITEAUX, alone or as a part of another one. -/
theorem go_writeAux {op : Instr} {rest : List Stage} {k : Nat} {d : Bool} {rs : Reads} {n : Nat} {s : State}
    (r b : Byte) (h : Go (n + 5) s) (hc : channelLegal (s.reg aPT_CTRL) = true) (ht : s.tickEnabled = false ∨ s.writeTurnSafe = true) :
    ∃ t, runStages op (writeAuxStages s.cfg r b ++ rest) k d rs s = runStages op rest (k + 5) true rs t ∧
    StageRel s.engineAddrs [aPT_ADDR, aPT_REG, aPT_DO, aPT_CTRL]
      [s.okW oBANKSEL 0x30#8, s.okW oPT_ADDR (ptAddrWrite s.cfg.magAddr7), s.okW oPT_REG r, s.okW oPT_DO b,
        s.okW oPT_CTRL 0x81#8] s t ∧
    EngineSame s t ∧ Go n t ∧ t.dev.banksel = 0x30#8 ∧ t.dev.auxArmed = true ∧
    t.reg aPT_ADDR = ptAddrWrite s.cfg.magAddr7 ∧ t.reg aPT_REG = r ∧ t.reg aPT_DO = b ∧ t.reg aPT_CTRL = 0x81#8 := by
  have ne : ∀ {x : State} {a : Nat}, a ∉ shadowAddrs → a ∉ x.engineAddrs := fun h => engineAddrs_subset h
  obtain ⟨s1, a1, a2, a3, a4, a5, a6⟩ := go_select (op := op) (k := k) (d := d) (rs := rs) (n := n + 4)
    (rest := [putStage oPT_ADDR (ptAddrWrite s.cfg.magAddr7), putStage oPT_REG r, putStage oPT_DO b,
      putStage oPT_CTRL (ptCtrlByte 1#8)] ++ rest) 3#8 h
  have b1 : s1.bank = 3#2 := by rw [bank_of_banksel a5]; decide
  have ts : s1.tickEnabled = false ∨ s1.writeTurnSafe = true := ht.imp a3.tick.trans fun k =>
    writeTurnSafe_of k (a2.regs aPT_CTRL (by simp) (ne (by decide))) a2.same.cfg a6.2.arm
  obtain ⟨s2, c1, c2, c3, c4, c5, c6, c7⟩ := go_putAddr (op := op) (k := k + 1) (d := d) (rs := rs) (n := n + 3)
    (rest := [putStage oPT_REG r, putStage oPT_DO b, putStage oPT_CTRL (ptCtrlByte 1#8)] ++ rest)
    (v := ptAddrWrite s.cfg.magAddr7) a4 b1 (by rw [a2.regs _ (by simp) (ne (by decide))]; exact hc) (.inr ts)
  have b2 : s2.bank = 3#2 := by rw [← b1]; simp [State.bank, c5]
  obtain ⟨s3, e1, e2, e3, e4, e5, e6, e7⟩ := go_putChannel (op := op) (k := k + 2) (d := true) (rs := rs) (n := n + 2)
    (rest := [putStage oPT_DO b, putStage oPT_CTRL (ptCtrlByte 1#8)] ++ rest) (v := r) c4 b2 (regAt_ptReg _) rfl
    (by decide)
  have b3 : s3.bank = 3#2 := by rw [← b2]; simp [State.bank, e5]
  obtain ⟨s4, f1, f2, f3, f4, f5, f6, f7⟩ := go_putChannel (op := op) (k := k + 3) (d := true) (rs := rs) (n := n + 1)
    (rest := [putStage oPT_CTRL (ptCtrlByte 1#8)] ++ rest) (v := b) e4 b3 (regAt_ptDo _) rfl (by decide)
  have b4 : s4.bank = 3#2 := by rw [← b3]; simp [State.bank, f5]
  obtain ⟨t, g1, g2, g3, g4, g5, g6, g7, _⟩ := go_ptCtrl (op := op) (k := k + 4) (d := true) (rs := rs) (n := n)
    (rest := rest) (m := 1#8) f4 b4 (by decide) (by decide) (.inr rfl)
  rw [a3.engineAddrs] at c2
  rw [c3.engineAddrs, a3.engineAddrs] at e2
  rw [e3.engineAddrs, c3.engineAddrs, a3.engineAddrs] at f2
  rw [f3.engineAddrs, e3.engineAddrs, c3.engineAddrs, a3.engineAddrs] at g2
  have tr := (((a2.trans c2).trans e2).trans f2).trans g2
  refine ⟨t, ?_, ?_, (((a3.trans c3).trans e3).trans f3).trans g3, g4, ?_, g7, ?_, ?_, ?_, g6⟩
  · exact a1.trans (c1.trans (e1.trans (f1.trans g1)))
  · simp only [State.okW, a2.same.handle, c2.same.handle, e2.same.handle, f2.same.handle] at tr
    exact tr
  · rw [g5, f5, e5, c5, a5]; decide
  · rw [g2.regs _ (by decide) (ne (by decide)), f2.regs _ (by decide) (ne (by decide)),
      e2.regs _ (by decide) (ne (by decide)), c6]
  · rw [g2.regs _ (by decide) (ne (by decide)), f2.regs _ (by decide) (ne (by decide))]; exact e6
  · rw [g2.regs _ (by decide) (ne (by decide))]; exact f6

/-- The step list of READAUX, alone or as a part of another one. -/
theorem go_readAux {op : Instr} {rest : List Stage} {k : Nat} {d : Bool} {rs : Reads} {n : Nat} {s : State}
    (r m : Byte) (h : Go (n + 4) s) (hc : channelLegal (s.reg aPT_CTRL) = true) (h1 : 1#8 ≤ m) (h2 : m ≤ 8#8) :
    ∃ t, runStages op (readAuxStages s.cfg r m ++ rest) k d rs s = runStages op rest (k + 4) true rs t ∧
    StageRel s.engineAddrs [aPT_ADDR, aPT_REG, aPT_CTRL]
      [s.okW oBANKSEL 0x30#8, s.okW oPT_ADDR (ptAddrRead s.cfg.magAddr7), s.okW oPT_REG r,
        s.okW oPT_CTRL (ptCtrlByte m)] s t ∧
    EngineSame s t ∧ Go n t ∧ t.dev.banksel = 0x30#8 ∧ t.dev.auxArmed = true ∧
    t.reg aPT_ADDR = ptAddrRead s.cfg.magAddr7 ∧ t.reg aPT_REG = r ∧ t.reg aPT_CTRL = ptCtrlByte m := by
  have ne : ∀ {x : State} {a : Nat}, a ∉ shadowAddrs → a ∉ x.engineAddrs := fun h => engineAddrs_subset h
  have hv := (ptAddrRead_bits s.cfg.magAddr7).1
  obtain ⟨s1, a1, a2, a3, a4, a5, a6⟩ := go_select (op := op) (k := k) (d := d) (rs := rs) (n := n + 3)
    (rest := [putStage oPT_ADDR (ptAddrRead s.cfg.magAddr7), putStage oPT_REG r,
      putStage oPT_CTRL (ptCtrlByte m)] ++ rest) 3#8 h
  have b1 : s1.bank = 3#2 := by rw [bank_of_banksel a5]; decide
  obtain ⟨s2, c1, c2, c3, c4, c5, c6, c7⟩ := go_putAddr (op := op) (k := k + 1) (d := d) (rs := rs) (n := n + 2)
    (rest := [putStage oPT_REG r, putStage oPT_CTRL (ptCtrlByte m)] ++ rest)
    (v := ptAddrRead s.cfg.magAddr7) a4 b1 (by rw [a2.regs _ (by simp) (ne (by decide))]; exact hc) (.inl hv)
  have b2 : s2.bank = 3#2 := by rw [← b1]; simp [State.bank, c5]
  obtain ⟨s3, e1, e2, e3, e4, e5, e6, e7⟩ := go_putChannel (op := op) (k := k + 2) (d := true) (rs := rs) (n := n + 1)
    (rest := [putStage oPT_CTRL (ptCtrlByte m)] ++ rest) (v := r) c4 b2 (regAt_ptReg _) rfl (by decide)
  have b3 : s3.bank = 3#2 := by rw [← b2]; simp [State.bank, e5]
  have ra : s3.reg aPT_ADDR = ptAddrRead s.cfg.magAddr7 := by rw [e2.regs _ (by decide) (ne (by decide)), c6]
  obtain ⟨t, g1, g2, g3, g4, g5, g6, g7, _⟩ := go_ptCtrl (op := op) (k := k + 3) (d := true) (rs := rs) (n := n)
    (rest := rest) (m := m) e4 b3 h1 h2 (.inl (by rw [ra]; exact hv))
  rw [a3.engineAddrs] at c2
  rw [c3.engineAddrs, a3.engineAddrs] at e2
  rw [e3.engineAddrs, c3.engineAddrs, a3.engineAddrs] at g2
  have tr := ((a2.trans c2).trans e2).trans g2
  refine ⟨t, ?_, ?_, ((a3.trans c3).trans e3).trans g3, g4, ?_, g7, ?_, ?_, g6⟩
  · exact a1.trans (c1.trans (e1.trans g1))
  · simp only [State.okW, a2.same.handle, c2.same.handle, e2.same.handle] at tr
    exact tr
  · rw [g5, e5, c5, a5]; decide
  · rw [g2.regs _ (by decide) (ne (by decide)), ra]
  · rw [g2.regs _ (by decide) (ne (by decide))]; exact e6

/-! ### The master-control register -/

theorem regAt_mstctl (c : Config) : regAt c 0#2 oMSTCTL = some .mstctl := by simp [regAt, oMSTCTL, oIDENT]

/-- A write of `MSTCTL` (43_aux_engine.md R196). -/
theorem go_mstctl {op : Instr} {rest : List Stage} {k : Nat} {d : Bool} {rs : Reads} {n : Nat} {s : State}
    {v : Reads → Byte} (h : Go (n + 1) s) (hb : s.bank = 0#2)
    (hc : ∀ u, EngineRel (s.setActivity (.busy op k)) u → (writeMstctl (v rs) u).calm = true) :
    ∃ t, runStages op (.write oMSTCTL v :: rest) k d rs s = runStages op rest (k + 1) true rs t ∧
    StageRel shadowAddrs [aMSTCTL] [s.okW oMSTCTL (v rs)] s t ∧ Go n t ∧ t.dev.banksel = s.dev.banksel ∧
    t.reg aMSTCTL = v rs &&& 0xFD#8 ∧
    t.dev.mstSettling = ((v rs).getLsbD 1 || s.dev.mstSettling) ∧
    (t.dev.auxArmed = true → s.dev.auxArmed = true) ∧ ((v rs).getLsbD 1 = true → t.dev.auxArmed = false) ∧
    s.hist <+: t.hist := by
  obtain ⟨u, hu, r, sr, es, g, hs, hbk⟩ := go_tick h (.busy op k)
  obtain ⟨k1, k2, k3, k4, k5⟩ := ready_succ g.ready
  have hbank : u.bank = 0#2 := by rw [← hb]; simp [State.bank, hbk]
  have hd : devWrite oMSTCTL (v rs) u.afterTxn = .ok (writeMstctl (v rs) u.afterTxn) := by
    unfold devWrite
    rw [if_neg (by decide), State.afterTxn_bank, hbank, regAt_mstctl]
  have wu : Memory.wf u.afterTxn.dev.regs = true := g.wf
  have hcalm : (writeMstctl (v rs) u.afterTxn).calm = true := by
    have := hc u r
    revert this
    simp only [writeMstctl]
    split <;> exact id
  have er : ∀ a, (writeMstctl (v rs) u.afterTxn).reg a = if a = aMSTCTL then v rs &&& 0xFD#8 else u.reg a := by
    intro a
    simp only [writeMstctl]
    split <;> exact reg_storeReg (b := 0#2) (o := oMSTCTL) wu a
  have rest' : (writeMstctl (v rs) u.afterTxn).cfg = u.cfg ∧ (writeMstctl (v rs) u.afterTxn).host = u.host ∧
      (writeMstctl (v rs) u.afterTxn).handle = u.handle ∧ (writeMstctl (v rs) u.afterTxn).fus = u.fus ∧
      (writeMstctl (v rs) u.afterTxn).drv = u.drv ∧ (writeMstctl (v rs) u.afterTxn).status = u.status ∧
      (writeMstctl (v rs) u.afterTxn).res = u.res ∧ (writeMstctl (v rs) u.afterTxn).trace = u.trace ∧
      (writeMstctl (v rs) u.afterTxn).hist = u.hist ∧
      (writeMstctl (v rs) u.afterTxn).env = u.afterTxn.env ∧
      (writeMstctl (v rs) u.afterTxn).dev.devSettling = u.dev.devSettling ∧
      (writeMstctl (v rs) u.afterTxn).dev.banksel = u.dev.banksel ∧
      Memory.wf (writeMstctl (v rs) u.afterTxn).dev.regs = true := by
    simp only [writeMstctl]
    split <;> exact ⟨rfl, rfl, rfl, rfl, rfl, rfl, rfl, rfl, rfl, rfl, rfl, rfl, Memory.wf_set wu _ _⟩
  obtain ⟨r1, r2, r3, r4, r5, r6, r7, r8, r9, r10, r11, r12, r13⟩ := rest'
  refine ⟨(writeMstctl (v rs) u.afterTxn).record (.w u.handle.addr8 oMSTCTL (v rs) none), ?_, ?_, ⟨r13, hcalm, ?_⟩,
    r12.trans hbk, (er aMSTCTL).trans (if_pos rfl), ?_, ?_, ?_, ?_⟩
  · rw [runStages_cons_ok hu (stageStep_write_ok k1 k2 hd)]
    simp [isConfigWrite, show oMSTCTL ≠ oBANKSEL by decide]
  · refine ⟨⟨r1.trans sr.same.cfg, r2.trans sr.same.host, r3.trans sr.same.handle, r4.trans sr.same.fus⟩,
      r5.trans sr.drv, r6.trans sr.status, r7.trans sr.res, ?_,
      (congrArg Env.txn r10).trans (congrArg (fun o => (Oracle.next Config.freeTxn o).2) sr.txn), r11.trans sr.devSettling, fun a ha he => ?_⟩
    · rw [State.record_trace, r8, sr.trace, sr.same.handle, List.append_nil]; rfl
    · rw [State.record_reg, er, if_neg (by simpa using ha)]
      exact sr.regs a (by simp) (engineAddrs_subset he)
  · exact ready_of (ready_afterTxn g.ready) r3 r1 r11 (congrArg Env.txn r10)
  · rw [← es.mstSettling]
    simp only [writeMstctl]
    cases hv : (v rs).getLsbD 1 <;> rfl
  · intro ha
    refine r.armed ?_
    revert ha
    simp only [writeMstctl]
    split
    · exact fun e => by simp at e
    · exact id
  · intro hv
    simp only [writeMstctl, hv]
    rfl
  · rw [State.record_hist, r9]; exact r.hist

/-- A legal channel on which no turn to writing is dangerous refuses no tick. -/
theorem calm_of_turnSafe {s : State} (h : channelLegal (s.reg aPT_CTRL) = true) (k : s.writeTurnSafe = true) :
    s.calm = true := by
  obtain ⟨h1, h2⟩ := channelLegal_bits h
  cases he : s.ptEn
  · simp [State.calm, he]
  · have h3 : 1 ≤ s.ptLen ∧ s.ptLen ≤ 8 := h2 he
    have n0 : decide (s.ptLen = 0) = false := decide_eq_false (by omega)
    have n8 : decide (8 < s.ptLen) = false := decide_eq_false (by omega)
    simp [State.writeTurnSafe, he] at k
    rcases k with k | k <;> simp [State.calm, State.refusedConfig, h1, k, n0, n8]

/-- A `Delay` stage: it always succeeds when no tick is refused, and what it leaves. -/
theorem go_delay {op : Instr} {rest : List Stage} {k : Nat} {d : Bool} {rs : Reads} {n : Nat} {s : State} {ms : Nat}
    (h : Go n s)
    (hc : ∀ u, EngineRel (s.setActivity (.busy op k)) u → (closeWindows ms u).calm = true) :
    ∃ t u v, runStages op (.delay ms :: rest) k d rs s = runStages op rest (k + 1) d rs t ∧
      tickPoint (s.setActivity (.busy op k)) = .ok u ∧ EngineRel (s.setActivity (.busy op k)) u ∧
      EngineRel u v ∧ t = closeWindows ms v ∧ (u.tickEnabled = false → v = u) ∧
      (u.tickEnabled = true → ∃ m, u.delayTicks ms ≤ m ∧ ticks m u.afterSchedule = .ok v) ∧
      StageRel shadowAddrs [] [] s t ∧ t.dev.banksel = s.dev.banksel ∧
      (t.dev.auxArmed = true → s.dev.auxArmed = true) ∧ Go n t := by
  obtain ⟨u, hu, r, -, -, g, -, -⟩ := go_tick h (.busy op k)
  obtain ⟨v, hv, r2, hoff, hon⟩ := delayStep_ok (ms := ms) g.wf g.calm
  have r3 := r.trans r2
  have hds : s.dev.devSettling = false := by
    have hr := h.ready
    simp [State.ready] at hr
    exact hr.1.2
  have h3 := r3.devSettling
  simp only [State.setActivity_dev] at h3
  refine ⟨closeWindows ms v, u, v, ?_, hu, r, r2, rfl, hoff, hon, ?_, r3.banksel, r3.armed, r3.regsWf h.wf, hc v r3, ?_⟩
  · rw [runStages_cons_ok hu (s2 := closeWindows ms v) (rs1 := rs)]
    · simp [isConfigWrite]
    · simp [stageStep, hv]
  · refine ⟨⟨r3.cfg, r3.host, r3.handle, r3.fus⟩, r3.drv, r3.status, r3.res, by rw [List.append_nil]; exact r3.trace, r3.txn, ?_,
      fun a _ ha => r3.regs h.wf a ha⟩
    simp [closeWindows, h3, hds]
  · refine ready_of h.ready r3.handle r3.cfg ?_ r3.txn
    simp [closeWindows, h3, hds]

theorem regAt_lpcfg {c : Config} (h : lpOffsetOk c = true) : regAt c 0#2 c.lpConfigOffset = some .lpcfg := by
  simp only [lpOffsetOk, Bool.and_eq_true, decide_eq_true_eq, Bool.not_eq_true', ← Bool.decide_and,
    decide_eq_false_iff_not] at h
  obtain ⟨⟨⟨⟨⟨h1, h2⟩, h3⟩, h4⟩, h5⟩, h6⟩ := h
  unfold regAt
  rw [if_pos rfl, if_neg h2, if_neg h3, if_neg h4, if_neg h5, if_neg h6, if_pos ⟨rfl, h1⟩]

end Sys2Proof.Machine
end

