-- ==== Sys2Proof/Laws/Fusion.lean ====
section
/-! SUPPORT. The numerics of the fusion unit: `NUM.ofInt` is exact, and which pairs of vectors have no azimuth. -/

namespace Sys2Proof

/-- `NUM.ofInt` is exact (44_fusion.md R211): the number of the image is the integer. -/
@[simp] theorem NUM.ofInt_exact (v : I16) : (NUM.ofInt v).value? = some (v.toInt : ℚ) := rfl

/-- Distinct integers have distinct images, since their numbers differ. -/
theorem NUM.ofInt_injective : Function.Injective NUM.ofInt := fun v w h => by
  have := congrArg Flt.value? h
  simp only [NUM.ofInt_exact, Option.some.injEq, Int.cast_inj] at this
  exact BitVec.eq_of_toInt_eq this

namespace Machine

/-- The numbers of the image of a raw sample are its integers. -/
@[simp] theorem Vec3.values?_ofInt (u : Vec3 I16) :
    Vec3.values? (u.map NUM.ofInt) = some (u.map fun v => (v.toInt : ℚ)) := rfl

/-- The exact cross product is zero exactly for parallel vectors, a zero vector being parallel to every vector
(R217(e)). -/
theorem exactCross_eq_zero {u v : Vec3 ℚ} :
    exactCross u v = ⟨0, 0, 0⟩ ↔ u = ⟨0, 0, 0⟩ ∨ ∃ k : ℚ, v = u.map (k * ·) := by
  obtain ⟨a, b, c⟩ := u
  obtain ⟨x, y, z⟩ := v
  simp only [exactCross, Vec3.map, Vec3.mk.injEq]
  constructor
  · rintro ⟨h1, h2, h3⟩
    by_cases ha : a = 0
    · by_cases hb : b = 0
      · by_cases hc : c = 0
        · exact .inl ⟨ha, hb, hc⟩
        · exact .inr ⟨z / c, by field_simp; linarith, by field_simp; linarith, by field_simp⟩
      · exact .inr ⟨y / b, by field_simp; linarith, by field_simp, by field_simp; linarith⟩
    · exact .inr ⟨x / a, by field_simp, by field_simp; linarith, by field_simp; linarith⟩
  · rintro (⟨rfl, rfl, rfl⟩ | ⟨k, rfl, rfl, rfl⟩)
    · simp
    · exact ⟨by ring, by ring, by ring⟩

/-- Vectors whose exact cross product is zero have no azimuth: the result is a draw (R217(e)). -/
theorem azimDegenerate_of_parallel {axis : Vec3 Dec} {a h : Vec3 Flt} {p q : Vec3 ℚ} (ha : Vec3.values? a = some p)
    (hh : Vec3.values? h = some q) (e : exactCross p q = ⟨0, 0, 0⟩) : azimDegenerate axis a h = true := by
  simp [azimDegenerate, ha, hh, azimUndefined, e]

end Machine

end Sys2Proof
end

