-- ==== Sys2Proof/Laws/PerInstr.lean ====
section
/-! SUPPORT. The family TableRow: every operation's encoding selects the row of the opcode table that carries its
mnemonic (30_encoding.md R114), one lemma per constructor. -/

namespace Sys2Proof.Laws.TableRow

/-- The word of the operation selects a row of the opcode table with the operation's mnemonic. -/
def Statement (i : Instr) : Prop :=
  ∃ r, r ∈ opcodeTable ∧ r.mnemonic = i.mnemonic ∧ r.matches (encode i) = true

theorem mkWord_and (op a b x y z : Byte) :
    mkWord op a b &&& mkWord x y z = mkWord (op &&& x) (a &&& y) (b &&& z) := by
  simp only [mkWord, ← BitVec.and_append]

/-- A row that fixes only the field `op`. -/
theorem matches_op (m : String) (op a b : Byte) :
    OpRow.matches ⟨m, 0xFF0000#24, mkWord op 0#8 0#8⟩ (mkWord op a b) = true := by
  have h : op &&& 0xFF#8 = op := BitVec.and_allOnes (x := op)
  simp [OpRow.matches, show (0xFF0000#24 : CmdWord) = mkWord 0xFF#8 0#8 0#8 by decide, mkWord_and, h]

/-- A row that fixes the fields `op` and `b`. -/
theorem matches_opB (m : String) (op a : Byte) :
    OpRow.matches ⟨m, 0xFF00FF#24, mkWord op 0#8 0#8⟩ (mkWord op a 0#8) = true := by
  have h : op &&& 0xFF#8 = op := BitVec.and_allOnes (x := op)
  simp [OpRow.matches, show (0xFF00FF#24 : CmdWord) = mkWord 0xFF#8 0#8 0xFF#8 by decide, mkWord_and, h]

theorem selectBank (bank : Byte) : Statement (.selectBank bank) :=
  ⟨⟨"SELECTBANK", 0xFF00FF#24, 0x010000#24⟩, by decide, rfl, matches_opB _ 0x01#8 _⟩

theorem delay (ms : BitVec 16) : Statement (.delay ms) :=
  ⟨⟨"DELAY", 0xFF0000#24, 0x020000#24⟩, by decide, rfl, matches_op _ 0x02#8 _ _⟩

theorem create (bus addr7 : Byte) : Statement (.create bus addr7) :=
  ⟨⟨"CREATE", 0xFF0000#24, 0x100000#24⟩, by decide, rfl, matches_op _ 0x10#8 _ _⟩

theorem release : Statement .release :=
  ⟨⟨"RELEASE", 0xFFFFFF#24, 0x110000#24⟩, by decide, rfl, by decide⟩

theorem reset : Statement .reset :=
  ⟨⟨"RESET", 0xFFFFFF#24, 0x120000#24⟩, by decide, rfl, by decide⟩

theorem wake : Statement .wake :=
  ⟨⟨"WAKE", 0xFFFFFF#24, 0x130000#24⟩, by decide, rfl, by decide⟩

theorem sleep : Statement .sleep :=
  ⟨⟨"SLEEP", 0xFFFFFF#24, 0x140000#24⟩, by decide, rfl, by decide⟩

theorem getDeviceId : Statement .getDeviceId :=
  ⟨⟨"GETDEVICEID", 0xFFFFFF#24, 0x150000#24⟩, by decide, rfl, by decide⟩

theorem setGyroFs (fs : Byte) : Statement (.setGyroFs fs) :=
  ⟨⟨"SETGYROFS", 0xFF00FF#24, 0x160000#24⟩, by decide, rfl, matches_opB _ 0x16#8 _⟩

theorem getGyroFs : Statement .getGyroFs :=
  ⟨⟨"GETGYROFS", 0xFFFFFF#24, 0x170000#24⟩, by decide, rfl, by decide⟩

theorem setAccelFs (fs : Byte) : Statement (.setAccelFs fs) :=
  ⟨⟨"SETACCELFS", 0xFF00FF#24, 0x180000#24⟩, by decide, rfl, matches_opB _ 0x18#8 _⟩

theorem getAccelFs : Statement .getAccelFs :=
  ⟨⟨"GETACCELFS", 0xFFFFFF#24, 0x190000#24⟩, by decide, rfl, by decide⟩

theorem setDlpf (sensor cutoff : Byte) : Statement (.setDlpf sensor cutoff) :=
  ⟨⟨"SETDLPF", 0xFF0000#24, 0x1A0000#24⟩, by decide, rfl, matches_op _ 0x1A#8 _ _⟩

theorem enableDlpf (en : Byte) : Statement (.enableDlpf en) :=
  ⟨⟨"ENABLEDLPF", 0xFF00FF#24, 0x1B0000#24⟩, by decide, rfl, matches_opB _ 0x1B#8 _⟩

theorem getRawAccel : Statement .getRawAccel :=
  ⟨⟨"GETRAWACCEL", 0xFFFFFF#24, 0x1C0000#24⟩, by decide, rfl, by decide⟩

theorem getRawGyro : Statement .getRawGyro :=
  ⟨⟨"GETRAWGYRO", 0xFFFFFF#24, 0x1D0000#24⟩, by decide, rfl, by decide⟩

theorem getAccel : Statement .getAccel :=
  ⟨⟨"GETACCEL", 0xFFFFFF#24, 0x1E0000#24⟩, by decide, rfl, by decide⟩

theorem getGyro : Statement .getGyro :=
  ⟨⟨"GETGYRO", 0xFFFFFF#24, 0x1F0000#24⟩, by decide, rfl, by decide⟩

theorem writeAux (target byte : Byte) : Statement (.writeAux target byte) :=
  ⟨⟨"WRITEAUX", 0xFF0000#24, 0x200000#24⟩, by decide, rfl, matches_op _ 0x20#8 _ _⟩

theorem readAux (target length : Byte) : Statement (.readAux target length) :=
  ⟨⟨"READAUX", 0xFF0000#24, 0x210000#24⟩, by decide, rfl, matches_op _ 0x21#8 _ _⟩

theorem getRawMag : Statement .getRawMag :=
  ⟨⟨"GETRAWMAG", 0xFFFFFF#24, 0x220000#24⟩, by decide, rfl, by decide⟩

theorem auxInit : Statement .auxInit :=
  ⟨⟨"AUXINIT", 0xFFFFFF#24, 0x230000#24⟩, by decide, rfl, by decide⟩

theorem elevation : Statement .elevation :=
  ⟨⟨"ELEVATION", 0xFFFFFF#24, 0x300000#24⟩, by decide, rfl, by decide⟩

theorem azimuth : Statement .azimuth :=
  ⟨⟨"AZIMUTH", 0xFFFFFF#24, 0x310000#24⟩, by decide, rfl, by decide⟩

end Sys2Proof.Laws.TableRow
end

