-- ==== Sys2Proof/Tests/Slice0.lean ====
section
/-! SUPPORT. The model's own tests. Expected values are those of 95_test_vectors.md (cited as §), of the encodings of
30_encoding.md R114, and of the rules named; and the witnesses of the obligations' hypotheses. -/

namespace Sys2Proof.Tests

open Sys2Proof.Machine

/-! ### States and outcomes -/

/-- The start of the vectors: a handle for device 0x68, the given registers, a transport that answers ok, a schedule
without extra ticks. -/
def device (regs : List (Nat × Byte)) : State :=
  (((State.reset.setHandle ⟨true, 0#8, 0xD0#8⟩).setDrv .unconfigured).setDev
    { State.reset.dev with regs := regs.foldl (fun m c => Memory.set m c.1 c.2) [] }).setEnv
    { State.reset.env with
      txn := ⟨List.replicate 26 ⟨false, .timeout⟩, 0⟩
      sched := ⟨List.replicate 40 0, 0⟩ }

/-- The state with the sensor bytes that come next. -/
def sensing (bytes : List Byte) (s : State) : State := s.setEnv { s.env with sens := ⟨bytes, 0⟩ }

/-- The transport answers ok `n` times, then fails with error `other 7`. -/
def failingAfter (n : Nat) (s : State) : State :=
  s.setEnv { s.env with txn := ⟨List.replicate n ⟨false, .timeout⟩ ++ [⟨true, .other 7⟩], 0⟩ }

/-- The device settle window is open. -/
def settling (s : State) : State := s.setDev { s.dev with devSettling := true }

/-- The channel is armed. -/
def armed (s : State) : State := s.setDev { s.dev with auxArmed := true }

/-- The auxiliary target is the test double with the given array. -/
def withDouble (t : List (Nat × Byte)) (s : State) : State :=
  s.setMag (.double (t.foldl (fun m c => Memory.set m c.1 c.2) []))

/-- The next state has the property. -/
def ends (r : Host.Outcome State Fault Refusal) (f : State → Bool) : Bool :=
  match r with
  | .next t => f t
  | .fault _ => false
  | .refused _ => false

/-- The run is refused for this reason. -/
def refuses (r : Host.Outcome State Fault Refusal) (e : Refusal) : Bool :=
  match r with
  | .next _ => false
  | .fault _ => false
  | .refused e' => decide (e' = e)

def wr (o v : Byte) : Txn := .w 0xD0#8 o v none
def rd (o : Byte) (n : Nat) (bytes : List Byte) : Txn := .r 0xD0#8 o n bytes none

/-! ### Well-formedness: one ill-formed term for each check, refused -/

theorem test_wf_selectBank : (Instr.selectBank 4#8).wf = false := by decide
theorem test_wf_create : (Instr.create 0#8 0x80#8).wf = false := by decide
theorem test_wf_setGyroFs : (Instr.setGyroFs 4#8).wf = false := by decide
theorem test_wf_setAccelFs : (Instr.setAccelFs 4#8).wf = false := by decide
theorem test_wf_setDlpf_sensor : (Instr.setDlpf 2#8 0#8).wf = false := by decide
theorem test_wf_setDlpf_cutoff : (Instr.setDlpf 0#8 8#8).wf = false := by decide
theorem test_wf_enableDlpf : (Instr.enableDlpf 2#8).wf = false := by decide
theorem test_wf_readAux_zero : (Instr.readAux 0x11#8 0#8).wf = false := by decide
theorem test_wf_readAux_nine : (Instr.readAux 0x11#8 9#8).wf = false := by decide

/-! ### Decoding: words written out from R114, and the words of §2.1 -/

theorem test_decode_family0 : decode 0b000000010000001000000000#24 = .ok (.selectBank 2#8) ∧
    decode 0x02FFFF#24 = .ok (.delay 65535#16) ∧ decode 0b000000100000000100000010#24 = .ok (.delay 0x0102#16) := by decide

theorem test_decode_handle : decode 0b000100000000000101101000#24 = .ok (.create 1#8 0x68#8) ∧
    decode 0x110000#24 = .ok .release := by decide

theorem test_decode_power : decode 0x120000#24 = .ok .reset ∧ decode 0x130000#24 = .ok .wake ∧
    decode 0x140000#24 = .ok .sleep ∧ decode 0x150000#24 = .ok .getDeviceId := by decide

theorem test_decode_config : decode 0x16FF00#24 = .ok (.setGyroFs 255#8) ∧ decode 0x170000#24 = .ok .getGyroFs ∧
    decode 0x180300#24 = .ok (.setAccelFs 3#8) ∧ decode 0x190000#24 = .ok .getAccelFs ∧
    decode 0x1A0103#24 = .ok (.setDlpf 1#8 3#8) ∧ decode 0x1B0200#24 = .ok (.enableDlpf 2#8) := by decide

theorem test_decode_sensors : decode 0x1C0000#24 = .ok .getRawAccel ∧ decode 0x1D0000#24 = .ok .getRawGyro ∧
    decode 0x1E0000#24 = .ok .getAccel ∧ decode 0x1F0000#24 = .ok .getGyro := by decide

theorem test_decode_bridge : decode 0x203108#24 = .ok (.writeAux 0x31#8 8#8) ∧
    decode 0x211001#24 = .ok (.readAux 0x10#8 1#8) ∧ decode 0x220000#24 = .ok .getRawMag ∧
    decode 0x230000#24 = .ok .auxInit := by decide

theorem test_decode_fusion : decode 0x300000#24 = .ok .elevation ∧ decode 0x310000#24 = .ok .azimuth := by decide

theorem test_decode_undefined : decode 0x000000#24 = .error (.undefinedOpcode 0#8) ∧
    decode 0x030000#24 = .error (.undefinedOpcode 3#8) ∧ decode 0x120001#24 = .error (.nonzeroUnusedField 0x12#8) ∧
    decode 0x300100#24 = .error (.nonzeroUnusedField 0x30#8) ∧
    decode 0x320000#24 = .error (.undefinedOpcode 0x32#8) := by decide

theorem test_fetch_word : decodeTableWord 24 0x100068 = some (.create 0#8 0x68#8) ∧
    ends (step (State.reset.withFetchWord 24 0x100068)) (fun t => decide (t.handle = ⟨true, 0#8, 0xD0#8⟩)) = true := by
  decide

/-! ### Family 0 and the handle (§2.2) -/

theorem test_selectBank : ends (exec (.selectBank 2#8) (device []))
    (fun t => decide (t.trace = [wr 0x7F#8 0x20#8]) && decide (t.bank = 2#2)) = true := by decide

theorem test_selectBank_failed : ends (exec (.selectBank 3#8) (failingAfter 0 (device [])))
    (fun t => decide (t.status = ⟨1#4, 1#8, some (.other 7)⟩) && decide (t.dev.banksel = 0#8)) = true := by decide

theorem test_delay_window : ends (exec (.delay 9#16) (settling (device []))) (fun t => t.dev.devSettling) = true ∧
    ends (exec (.delay 10#16) (settling (device []))) (fun t => !t.dev.devSettling) = true := by decide

theorem test_delay_ticks : ends (exec (.delay 100#16) (device [(aMSTCTL, 0x20#8)]))
    (fun t => decide (t.dev.tickNo = 13)) = true := by decide

theorem test_create : ends (exec (.create 1#8 0x7F#8) State.reset)
    (fun t => decide (t.handle = ⟨true, 1#8, 0xFE#8⟩)) = true := by decide

theorem test_create_twice : ends (exec (.create 0#8 0x69#8) (device []))
    (fun t => decide (t.status = ⟨2#4, 0#8, none⟩) && decide (t.handle.addr8 = 0xD0#8)) = true := by decide

theorem test_release : ends (exec .release (device []))
    (fun t => !t.handle.valid && decide (t.status = ⟨0#4, 0#8, none⟩)) = true := by decide

/-! ### Family 1 (§2.3, §2.5, §2.7) -/

theorem test_reset : ends (exec .reset (device [(aPWR, 0x41#8)]))
    (fun t => decide (t.trace = [wr 0x7F#8 0#8, rd 6#8 1 [0x41#8], wr 6#8 0xC1#8]) && t.dev.devSettling) = true := by decide

theorem test_settle_window_refuses : refuses (exec .wake (settling (device []))) .settleWindow = true := by decide

theorem test_wake : ends (exec .wake (device [(aPWR, 0x7F#8)])) (fun t => decide (t.reg aPWR = 0x3F#8)) = true := by decide

theorem test_sleep : ends (exec .sleep (device [(aPWR, 0x3F#8)])) (fun t => decide (t.reg aPWR = 0x7F#8)) = true := by decide

theorem test_getDeviceId_mismatch : ends (exec .getDeviceId
      { device [] with cfg := { Config.suggested with whoamiDevice := 0#8 }, res := { State.reset.res with resByte := 9#8 } })
    (fun t => decide (t.res.resByte = 0#8) && decide (t.status = ⟨3#4, 2#8, none⟩)) = true := by decide

theorem test_setGyroFs : ends (exec (.setGyroFs 2#8) (device [(aGYROCFG, 0x19#8)]))
    (fun t => decide (t.trace = [wr 0x7F#8 0x20#8, rd 1#8 1 [0x19#8], wr 1#8 0x1D#8])) = true := by decide

theorem test_getGyroFs : ends (exec .getGyroFs (device [(aGYROCFG, 0xF9#8)])) (fun t => decide (t.res.resFs = 0#2)) = true ∧
    ends (exec .getGyroFs (device [(aGYROCFG, 0xFF#8)])) (fun t => decide (t.res.resFs = 3#2)) = true := by decide

theorem test_setAccelFs : ends (exec (.setAccelFs 3#8) (device [(aACCELCFG, 0x39#8)]))
    (fun t => decide (t.reg aACCELCFG = 0x3F#8)) = true := by decide

theorem test_getAccelFs : ends (exec .getAccelFs (device [(aACCELCFG, 0x04#8)]))
    (fun t => decide (t.res.resFs = 2#2)) = true := by decide

theorem test_setDlpf_accel : ends (exec (.setDlpf 0#8 7#8) (device []))
    (fun t => decide (t.reg aACCELCFG = 0x38#8) && decide (t.reg aGYROCFG = 0#8)) = true := by decide

theorem test_setDlpf_gyro : ends (exec (.setDlpf 1#8 3#8) (device [(aGYROCFG, 0x05#8)]))
    (fun t => decide (t.reg aGYROCFG = 0x1D#8)) = true := by decide

theorem test_enableDlpf : ends (exec (.enableDlpf 1#8) (device [(aACCELCFG, 6#8), (aGYROCFG, 0x1C#8)]))
    (fun t => decide (t.trace = [wr 0x7F#8 0x20#8, rd 0x14#8 1 [6#8], wr 0x14#8 7#8, rd 1#8 1 [0x1C#8],
      wr 1#8 0x1D#8])) = true := by decide

theorem test_enableDlpf_partway : ends (exec (.enableDlpf 1#8) (failingAfter 3 (device [(aACCELCFG, 6#8), (aGYROCFG, 0x1C#8)])))
    (fun t => decide (t.status = ⟨4#4, 4#8, some (.other 7)⟩) && decide (t.reg aACCELCFG = 7#8)
      && decide (t.reg aGYROCFG = 0x1C#8)) = true := by decide

theorem test_getRawAccel : ends (exec .getRawAccel (sensing [0x7F#8, 0xFF#8, 0x80#8, 0#8, 0xFF#8, 0xFF#8] (device [])))
    (fun t => decide (t.res.accRaw.x.toInt = 32767) && decide (t.res.accRaw.y.toInt = -32768)
      && decide (t.res.accRaw.z.toInt = -1)) = true := by decide

theorem test_getRawGyro : ends (exec .getRawGyro (sensing [0#8, 1#8, 0xFF#8, 0xFE#8, 0x12#8, 0x34#8] (device [])))
    (fun t => decide (t.trace = [wr 0x7F#8 0#8, rd 0x33#8 6 [0#8, 1#8, 0xFF#8, 0xFE#8, 0x12#8, 0x34#8]])
      && decide (t.res.gyrRaw.y.toInt = -2)) = true := by decide

theorem test_getAccel : ends (exec .getAccel (sensing [8#8, 0#8, 0xF8#8, 0#8, 0#8, 0#8] (device [(aACCELCFG, 6#8)])))
    (fun t => decide (t.res.resFs = 3#2) && decide (t.res.accRaw.y.toInt = -2048)
      && decide (t.trace = [wr 0x7F#8 0#8, wr 0x7F#8 0x20#8, rd 0x14#8 1 [6#8], wr 0x7F#8 0#8,
        rd 0x2D#8 6 [8#8, 0#8, 0xF8#8, 0#8, 0#8, 0#8]])) = true := by decide

theorem test_getGyro : ends (exec .getGyro
      (sensing [0#8, 0x83#8, 2#8, 0x8F#8, 0xFF#8, 0x7D#8] (device [(aGYROCFG, 2#8)])))
    (fun t => decide (t.res.resFs = 1#2) && decide (t.res.gyrRaw.x.toInt = 131) && decide (t.res.gyrRaw.y.toInt = 655)
      && decide (t.res.gyrRaw.z.toInt = -131)) = true := by decide

theorem test_divisors : gyroDiv 1#2 = ⟨655, 1⟩ ∧ gyroDiv 3#2 = ⟨164, 1⟩ ∧ accelDiv 0#2 = ⟨16384, 0⟩ ∧
    accelDiv 3#2 = ⟨2048, 0⟩ := by decide

/-! ### Family 2 (§2.4, §2.5, §3 P3) -/

theorem test_writeAux : ends (exec (.writeAux 0x31#8 8#8) (device []))
    (fun t => decide (t.trace = [wr 0x7F#8 0x30#8, wr 3#8 0x0C#8, wr 4#8 0x31#8, wr 6#8 8#8, wr 5#8 0x81#8])
      && t.dev.auxArmed) = true := by decide

theorem test_writeAux_partway : ends (exec (.writeAux 0x31#8 8#8) (failingAfter 4 (device [])))
    (fun t => decide (t.status = ⟨4#4, 5#8, some (.other 7)⟩) && decide (t.reg aPT_DO = 8#8)
      && decide (t.reg aPT_CTRL = 0#8) && !t.dev.auxArmed) = true := by decide

theorem test_readAux : ends (exec (.readAux 0x11#8 8#8) (device []))
    (fun t => decide (t.trace = [wr 0x7F#8 0x30#8, wr 3#8 0x8C#8, wr 4#8 0x11#8, wr 5#8 0x88#8])) = true := by decide

theorem test_readAux_length : refuses (exec (.readAux 0x11#8 0#8) (device [])) .readAuxLength = true ∧
    refuses (exec (.readAux 0x11#8 9#8) (device [])) .readAuxLength = true := by decide

theorem test_getRawMag : ends (exec .getRawMag (device [(aSHADOW, 0xFF#8), (aSHADOW + 1, 0x7F#8), (aSHADOW + 3, 0x80#8),
      (aSHADOW + 4, 1#8), (aSHADOW + 6, 0x10#8)]))
    (fun t => decide (t.res.magRaw.x.toInt = 32767) && decide (t.res.magRaw.y.toInt = -32768)
      && decide (t.res.magRaw.z.toInt = 1) && decide (t.res.magStat6 = 0x10#8) && decide (t.res.magStat7 = 0#8)) = true := by
  decide

theorem test_auxInit : ends (exec .auxInit (withDouble [] (device [])))
    (fun t => decide (t.trace.length = 26) && decide (t.reg aMSTCTL = 0x20#8) && decide (t.reg (aLPCFG t.cfg) = 0x40#8)
      && decide (t.reg aPT_CTRL = 0x88#8) && decide (t.hist = [.auxW 0x0C#7 0x32#8 1#8])) = true := by decide

theorem test_auxInit_partway : ends (exec .auxInit (failingAfter 7 (device [])))
    (fun t => decide (t.status = ⟨4#4, 9#8, some (.other 7)⟩) && decide (t.reg aMSTCTL = 0x20#8)
      && decide (t.reg aAUXMCTL = 0#8)) = true := by decide

/-! ### The engine (§2.6) -/

/-- The outcome of a tick. -/
def ticked (r : Except Refusal State) (f : State → Bool) : Bool :=
  match r with
  | .ok t => f t
  | .error _ => false

theorem test_tick_read : ticked (tick (withDouble [(0x20, 0x11#8), (0x21, 0x22#8), (0x22, 0x33#8)]
      (device [(aPT_ADDR, 0x8C#8), (aPT_REG, 0x20#8), (aPT_CTRL, 0x83#8), (aSHADOW + 2, 0xAA#8), (aSHADOW + 3, 0xAA#8)])))
    (fun t => decide (t.shadow = [0x11#8, 0x22#8, 0x33#8, 0xAA#8, 0#8, 0#8, 0#8, 0#8])
      && decide (t.hist = [.auxR 0x0C#7 0x20#8 3 [0x11#8, 0x22#8, 0x33#8]])) = true := by decide

theorem test_tick_write : ticked (tick (armed (withDouble []
      (device [(aPT_ADDR, 0x0C#8), (aPT_REG, 0x31#8), (aPT_DO, 8#8), (aPT_CTRL, 0x81#8)]))))
    (fun t => decide (t.mag = .double [(0x31, 8#8)]) && !t.dev.auxArmed) = true := by decide

theorem test_tick_refused : tick (device [(aPT_CTRL, 0x90#8)]) = .error .engineConfig ∧
    tick (device [(aPT_ADDR, 0x8C#8), (aPT_CTRL, 0x89#8)]) = .error .engineConfig ∧
    tick (armed (device [(aPT_ADDR, 0x0C#8), (aPT_CTRL, 0x88#8)])) = .error .engineConfig := by decide

/-! ### Family 3 (§3 P5): the operations need no handle and issue no transaction -/

theorem test_elevation : ends (exec .elevation State.reset)
    (fun t => decide (t.status = ⟨0#4, 0#8, none⟩) && decide (t.trace = [])) = true := by decide

theorem test_azimuth : ends (exec .azimuth State.reset)
    (fun t => decide (t.status = ⟨0#4, 0#8, none⟩) && decide (t.trace = [])) = true := by decide

/-- A parallel pair of raw vectors has no azimuth (44_fusion.md R217(e)): the result is the drawn value. -/
theorem test_azimuth_parallel :
    let s := (device []).setEnv { (device []).env with fdraw := ⟨[.int 7#16], 0⟩ }
    ∃ t, exec .azimuth (s.setFus { s.fus with
      fa := ⟨.int 1#16, .int 2#16, .int 0xFFFD#16⟩
      fh := ⟨.int 0xFFFE#16, .int 0xFFFC#16, .int 6#16⟩ }) = .next t ∧ t.fus.azim = .int 7#16 := by
  refine ⟨_, rfl, if_pos ?_⟩
  exact azimDegenerate_of_parallel (p := ⟨1, 2, -3⟩) (q := ⟨-2, -4, 6⟩) rfl rfl (by norm_num [exactCross])

theorem test_fusion_port : ends (step (State.reset.setHost [.writeFH ⟨.int 1#16, .int 2#16, .other 3⟩]))
    (fun t => decide (t.fus.fh = ⟨.int 1#16, .int 2#16, .other 3⟩) && decide (t.host = [])) = true := by decide

/-! ### Witnesses: for each obligation with hypotheses, states and operands that meet them all -/

theorem device_inv : (device []).Inv := by constructor <;> decide

/-- The engine is enabled and the channel is set to write one byte, armed; the target is the test double. -/
def bridging : State := withDouble [] (armed (device
  [(aMSTCTL, 0x20#8), (aPT_ADDR, 0x0C#8), (aPT_REG, 0x31#8), (aPT_DO, 8#8), (aPT_CTRL, 0x81#8)]))

theorem bridging_inv : bridging.Inv := by constructor <;> decide

/-- The next transaction fails. -/
def failing : State := failingAfter 0 (device [])

theorem failing_inv : failing.Inv := by constructor <;> decide

/-- `e` ends in a next state that meets the hypothesis. -/
theorem next_of_ends {r : Host.Outcome State Fault Refusal} {f : State → Bool} (h : ends r f = true) :
    ∃ t, r = .next t ∧ f t = true := by
  cases r with
  | next t => exact ⟨t, rfl, h⟩
  | fault e => cases e
  | refused e => cases h

theorem witness_EncodeOfDecodeIsIdentity : decode 0x1A0103#24 = .ok (.setDlpf 1#8 3#8) := by decide

theorem witness_DecodingFollowsTheOpcodeTable : (∃ r, r ∈ opcodeTable ∧ r.matches 0x31FF00#24 = false) ∧
    (∀ r, r ∈ opcodeTable → r.matches 0x310001#24 = false) ∧
    ∃ r, r ∈ opcodeTable ∧ r.matches 0x02FFFF#24 = true := by decide

theorem witness_StepRunsDecodedInstruction :
    ((device []).setHost [.command 0x130000#24]).activity = .idle ∧
    ((device []).setHost [.command 0x130000#24]).host = [.command 0x130000#24] ∧
    decode 0x130000#24 = .ok .wake := by decide

theorem witness_StepTakesOtherHostActions :
    (State.reset.setHost [.writeFA ⟨.int 1#16, .int 2#16, .other 3⟩]).activity = .idle ∧
    (State.reset.setHost [.writeFH ⟨.int 1#16, .int 2#16, .other 3⟩]).activity = .idle ∧
    State.reset.activity = .idle ∧ State.reset.host = [] ∧
    (State.reset.setActivity (.busy .wake 2)).activity = .busy .wake 2 := by decide

theorem witness_EveryStepKeepsTheInvariant : (device []).Inv ∧ ∃ t, step (device []) = .next t :=
  ⟨device_inv, (next_of_ends (f := fun _ => true) (by decide)).imp fun _ h => h.1⟩

theorem witness_EveryStepKeepsConfigAndPast : ∃ t, step (bridging.setHost [.command 0x220000#24]) = .next t :=
  (next_of_ends (f := fun _ => true) (by decide)).imp fun _ h => h.1

/-- A next state of an operation: the hypothesis of EveryOperationEndsIdleWithTableStatus, DriverStateTransitions,
SequencerRegisterWriters, ResultRegisterWriters, and the first clause of DriverStateChangesNothing. -/
theorem witness_EveryOperationEndsIdleWithTableStatus : ∃ t, exec .getGyroFs (device []) = .next t :=
  (next_of_ends (f := fun _ => true) (by decide)).imp fun _ h => h.1

theorem witness_DriverStateTransitions : (∃ t, exec .wake ((device []).setDrv (.reset 0)) = .next t) ∧
    exec .sleep (settling (device [])) = .refused .settleWindow :=
  ⟨(next_of_ends (f := fun _ => true) (by decide)).imp fun _ h => h.1, rfl⟩

theorem witness_SequencerRegisterWriters : ∃ t, exec (.readAux 0x11#8 8#8) (device []) = .next t :=
  (next_of_ends (f := fun _ => true) (by decide)).imp fun _ h => h.1

theorem witness_ResultRegisterWriters : ∃ t, exec .getRawMag (device []) = .next t :=
  (next_of_ends (f := fun _ => true) (by decide)).imp fun _ h => h.1

theorem witness_StartingBankDoesNotMatter : usesBus .getRawMag = true ∧ admitted (device []).cfg .getRawMag = true ∧
    (device []).handle.valid = true ∧ (device []).txnFails = false := by decide

theorem witness_RegisterMemoryFrame : (device []).Inv ∧ (∃ t, exec .wake (device []) = .next t) ∧
    aPT_CTRL ∉ writtenAddrs (device []).cfg .wake ∧ aPT_CTRL ∉ engineAddrsDuring (device []) .wake :=
  ⟨device_inv, (next_of_ends (f := fun _ => true) (by decide)).imp fun _ h => h.1, by decide, by decide⟩

theorem witness_HiddenStateFrame : bridging.Inv ∧ (∃ t, exec .getRawMag bridging = .next t) ∧
    (bridging.dev.auxArmed = true ∧ ∃ t, exec (.delay 8#16) bridging = .next t ∧ t.dev.auxArmed = false) ∧
    (device []).Inv ∧ (device []).tickEnabled = false ∧ ∃ t, exec (.delay 5#16) (device []) = .next t :=
  ⟨bridging_inv, (next_of_ends (f := fun _ => true) (by decide)).imp fun _ h => h.1,
    ⟨by decide, (next_of_ends (f := fun t => !t.dev.auxArmed) (by decide)).imp fun _ h => ⟨h.1, by simpa using h.2⟩⟩,
    device_inv, by decide, (next_of_ends (f := fun _ => true) (by decide)).imp fun _ h => h.1⟩

theorem witness_MissingHandleIsRejected : State.reset.handle.valid = false ∧ usesBus .auxInit = true ∧
    (device []).handle.valid = true := by decide

theorem witness_IllegalOperandsAreRejected : (device []).handle.valid = true ∧ 3#8 < 4#8 ∧ 1#8 < 2#8 ∧ 7#8 < 8#8 ∧
    State.reset.handle.valid = false ∧ 0x7F#8 < 0x80#8 := by decide

theorem witness_UnadmittedOperandsAreRefused : (device []).handle.valid = true ∧ 0#8 < 1#8 ∧ 8#8 < 9#8 ∧
    lpOffsetOk { Config.suggested with lpConfigOffset := 0x06#8 } = false := by decide

theorem witness_SettleWindowRefusesTheBus : (settling (device [])).dev.devSettling = true ∧
    (settling (device [])).handle.valid = true ∧ usesBus .wake = true ∧ admitted (device []).cfg .wake = true ∧
    usesBus (.delay 10#16) = false := by decide

theorem witness_FirstFailureAbortsTheOperation : failing.Inv ∧ failing.calm = true ∧ usesBus .wake = true ∧
    admitted failing.cfg .wake = true ∧ failing.handle.valid = true ∧ failing.dev.devSettling = false ∧
    failing.txnFails = true ∧ ((device []).setHandle ⟨true, 0#8, 0x20#8⟩).txnFails = true :=
  ⟨failing_inv, by decide, by decide, by decide, by decide, by decide, by decide, by decide⟩

/-- The step list raises. -/
def raises : RunResult → Bool
  | .done _ _ => false
  | .raised _ => true
  | .refused _ => false

theorem raised_of {r : RunResult} (h : raises r = true) : ∃ t, r = .raised t := by
  cases r with
  | done t rs => cases h
  | raised t => exact ⟨t, rfl⟩
  | refused r => cases h

/-- The first step fails; the third step fails after a write to `PWR`. -/
theorem witness_FailureCodeTellsWhetherConfigured :
    (∃ t, runStages .wake [selStage 0#8, putStage oPWR 0#8] 1 true [] failing = .raised t) ∧
    ∃ t, runStages .wake [selStage 0#8, putStage oPWR 0#8, .read oPWR 1] 1 false [] (failingAfter 2 (device [])) =
      .raised t := ⟨raised_of (by decide), raised_of (by decide)⟩

theorem witness_ErrorsLeaveResultsAlone : ∃ t, exec .getRawMag failing = .next t ∧ t.status.code ≠ 0#4 :=
  (next_of_ends (f := fun t => decide (t.status.code ≠ 0#4)) (by decide)).imp fun _ h => ⟨h.1, by simpa using h.2⟩

theorem witness_EnableDlpfFailsPartway : (1#8 : Byte) ≤ 1#8 ∧ (failingAfter 3 (device [])).Inv ∧
    (failingAfter 3 (device [])).calm = true ∧ (failingAfter 3 (device [])).ready 3 = true ∧
    (failingAfter 3 (device [])).afterTxn.afterTxn.afterTxn.txnFails = true :=
  ⟨by decide, by constructor <;> decide, by decide, by decide, by decide⟩

/-- The channel is armed for a read of eight bytes, and the engine is off. -/
def readPending : State := armed (device [(aPT_ADDR, 0x8C#8), (aPT_CTRL, 0x88#8)])

theorem readPending_inv : readPending.Inv := by constructor <;> decide

/-- In the second state a write is not safe to turn to, and the engine is off. -/
theorem witness_WriteAuxFailsPartway :
    ((failingAfter 2 bridging).Inv ∧ (failingAfter 2 bridging).calm = true ∧
      (failingAfter 2 bridging).writeTurnSafe = true ∧ (failingAfter 2 bridging).ready 2 = true ∧
      (failingAfter 2 bridging).afterTxn.afterTxn.txnFails = true) ∧
    ((failingAfter 2 readPending).Inv ∧ (failingAfter 2 readPending).calm = true ∧
      (failingAfter 2 readPending).tickEnabled = false ∧ (failingAfter 2 readPending).writeTurnSafe = false ∧
      (failingAfter 2 readPending).ready 2 = true ∧ (failingAfter 2 readPending).afterTxn.afterTxn.txnFails = true) :=
  ⟨⟨by constructor <;> decide, by decide, by decide, by decide, by decide⟩,
    ⟨by constructor <;> decide, by decide, by decide, by decide, by decide, by decide⟩⟩

/-- The hypotheses on the state of every completion statement of an operation with up to 26 transactions, with the
engine off; SelectBankSelects, DelayWaits, ResetResetsTheDevice, WakeAndSleepWriteTheSleepBit,
GetDeviceIdReadsAndCompares, GetFullScaleReadsTheRange and GetRawMagDecodesTheShadow have no others. -/
theorem witness_completion_off : (device []).Inv ∧ (device []).calm = true ∧ (device []).ready 26 = true ∧
    (device []).ready 1 = true ∧ (device []).ready 2 = true ∧ (device []).ready 3 = true ∧ (device []).ready 4 = true ∧
    (device []).ready 5 = true :=
  ⟨device_inv, by decide, by decide, by decide, by decide, by decide, by decide, by decide⟩

/-- The same with the engine on and a write due. -/
theorem witness_completion_on : bridging.Inv ∧ bridging.calm = true ∧ bridging.ready 26 = true ∧
    bridging.tickEnabled = true ∧ bridging.ready 1 = true ∧ bridging.ready 2 = true ∧ bridging.ready 3 = true ∧
    bridging.ready 4 = true ∧ bridging.ready 5 = true :=
  ⟨bridging_inv, by decide, by decide, by decide, by decide, by decide, by decide, by decide, by decide⟩

theorem witness_SelectBankSelects : ((0#8 : Byte) ≤ 3#8 ∧ (3#8 : Byte) ≤ 3#8 ∧ (device []).Inv ∧
    (device []).calm = true ∧ (device []).ready 1 = true) ∧
    (State.reset.handle.valid = false ∧ (3#8 : Byte) < 4#8) ∧
    (failing.Inv ∧ failing.calm = true ∧ failing.handle.valid = true ∧ failing.dev.devSettling = false ∧
      failing.txnFails = true) :=
  ⟨⟨by decide, by decide, device_inv, by decide, by decide⟩, by decide, failing_inv, by decide, by decide, by decide,
    by decide⟩

theorem witness_CreateMakesTheHandle : State.reset.handle.valid = false ∧ (0x7F#8 : Byte) ≤ 0x7F#8 ∧
    (device []).handle.valid = true ∧ (0x7F#8 : Byte) < 0x80#8 := by decide

theorem witness_ReleaseDestroysTheHandle : (device []).handle.valid = true ∧ State.reset.handle.valid = false := by decide

theorem witness_SetFullScaleWritesTheRange : (3#8 : Byte) ≤ 3#8 ∧ bridging.Inv ∧ bridging.calm = true ∧
    bridging.ready 3 = true := ⟨by decide, bridging_inv, by decide, by decide⟩

theorem witness_SetDlpfWritesTheCutoff : (0#8 : Byte) ≤ 1#8 ∧ (1#8 : Byte) ≤ 1#8 ∧ (7#8 : Byte) ≤ 7#8 ∧
    (device []).Inv ∧ (device []).calm = true ∧ (device []).ready 3 = true :=
  ⟨by decide, by decide, by decide, device_inv, by decide, by decide⟩

theorem witness_EnableDlpfWritesBothBits : (1#8 : Byte) ≤ 1#8 ∧ (device []).Inv ∧ (device []).calm = true ∧
    (device []).ready 5 = true := ⟨by decide, device_inv, by decide, by decide⟩

theorem witness_RawSensorReadsDecodeBigEndian : (device []).Inv ∧ (device []).calm = true ∧
    (device []).ready 2 = true ∧ 0x2D#8 ≤ (device []).cfg.accelBase ∧ (device []).cfg.accelBase ≤ 0x33#8 ∧
    0x2D#8 ≤ (device []).cfg.gyroBase ∧ (device []).cfg.gyroBase ≤ 0x33#8 :=
  ⟨device_inv, by decide, by decide, by decide, by decide, by decide, by decide⟩

theorem witness_GetAccelScalesTheSample : (device [(aACCELCFG, 6#8)]).Inv ∧ (device [(aACCELCFG, 6#8)]).calm = true ∧
    (device [(aACCELCFG, 6#8)]).ready 5 = true ∧ 0x2D#8 ≤ (device [(aACCELCFG, 6#8)]).cfg.accelBase ∧
    (device [(aACCELCFG, 6#8)]).cfg.accelBase ≤ 0x33#8 ∧
    3#2 = ((device [(aACCELCFG, 6#8)]).reg aACCELCFG).extractLsb' 1 2 :=
  ⟨by constructor <;> decide, by decide, by decide, by decide, by decide, by decide⟩

theorem witness_GetGyroScalesTheSample : (device [(aGYROCFG, 2#8)]).Inv ∧ (device [(aGYROCFG, 2#8)]).calm = true ∧
    (device [(aGYROCFG, 2#8)]).ready 5 = true ∧ 0x2D#8 ≤ (device [(aGYROCFG, 2#8)]).cfg.gyroBase ∧
    (device [(aGYROCFG, 2#8)]).cfg.gyroBase ≤ 0x33#8 ∧
    1#2 = ((device [(aGYROCFG, 2#8)]).reg aGYROCFG).extractLsb' 1 2 :=
  ⟨by constructor <;> decide, by decide, by decide, by decide, by decide, by decide⟩

theorem witness_WriteAuxArmsTheWrite :
    (bridging.Inv ∧ bridging.calm = true ∧ bridging.writeTurnSafe = true ∧ bridging.ready 5 = true) ∧
    (readPending.Inv ∧ readPending.calm = true ∧ readPending.tickEnabled = false ∧
      readPending.writeTurnSafe = false ∧ readPending.ready 5 = true) :=
  ⟨⟨bridging_inv, by decide, by decide, by decide⟩, ⟨readPending_inv, by decide, by decide, by decide, by decide⟩⟩

theorem witness_ReadAuxArmsTheRead : (1#8 : Byte) ≤ 1#8 ∧ (1#8 : Byte) ≤ 8#8 ∧ (8#8 : Byte) ≤ 8#8 ∧ bridging.Inv ∧
    bridging.calm = true ∧ bridging.ready 4 = true :=
  ⟨by decide, by decide, by decide, bridging_inv, by decide, by decide⟩

theorem witness_AuxInitBringsUpTheBridge : bridging.Inv ∧ bridging.calm = true ∧ lpOffsetOk bridging.cfg = true ∧
    bridging.dev.mstSettling = false ∧ bridging.cfg.auxWriteRepeat = false ∧ bridging.ready 26 = true ∧
    bridging.asleep = false ∧ 1 ≤ guaranteedTicks bridging.cfg bridging.cfg.tMagResetMs :=
  ⟨bridging_inv, by decide, by decide, by decide, by decide, by decide, by decide, by decide⟩

theorem witness_TickPerformsTheReadTransfer :
    let s := withDouble [(0xFF, 1#8)] (device [(aPT_ADDR, 0x8C#8), (aPT_REG, 0xF8#8), (aPT_CTRL, 0x88#8)])
    Memory.wf s.dev.regs = true ∧ s.ptEn = true ∧ s.ptRd = true ∧ s.refusedConfig = false ∧
      s.mag = .double [(0xFF, 1#8)] ∧ s.ptA7 = s.cfg.magAddr7 ∧ (s.reg aPT_REG).toNat + s.ptLen ≤ 256 := by decide

theorem witness_TickPerformsTheWriteTransfer : bridging.ptEn = true ∧ bridging.ptRd = false ∧
    bridging.refusedConfig = false ∧ (bridging.dev.auxArmed || bridging.cfg.auxWriteRepeat) = true ∧
    bridging.mag = .double [] ∧ bridging.ptA7 = bridging.cfg.magAddr7 ∧
    (let s := device [(aPT_ADDR, 0x0C#8), (aPT_CTRL, 0x88#8)]
     s.ptEn = true ∧ s.ptRd = false ∧ s.refusedConfig = false ∧
      (s.dev.auxArmed || s.cfg.auxWriteRepeat) = false) := by decide

theorem witness_TickRefusesOddConfigurations : (device []).ptEn = false ∧
    (device [(aPT_CTRL, 0x90#8)]).ptEn = true := by decide

theorem witness_DelayDeliversTheArmedWrite : bridging.Inv ∧ bridging.tickEnabled = true ∧ bridging.asleep = false ∧
    1 ≤ guaranteedTicks bridging.cfg (8#16).toNat ∧ bridging.ptEn = true ∧ bridging.ptRd = false ∧
    bridging.ptLen = 1 ∧ bridging.dev.auxArmed = true ∧ bridging.cfg.auxWriteRepeat = false :=
  ⟨bridging_inv, by decide, by decide, by decide, by decide, by decide, by decide, by decide, by decide⟩

theorem witness_BridgeRoundTrip : bridging.Inv ∧ bridging.calm = true ∧ bridging.writeTurnSafe = true ∧
    bridging.ready 11 = true ∧ bridging.tickEnabled = true ∧ bridging.asleep = false ∧
    bridging.cfg.auxWriteRepeat = false ∧ 1 ≤ guaranteedTicks bridging.cfg (8#16).toNat ∧ bridging.mag = .double [] :=
  ⟨bridging_inv, by decide, by decide, by decide, by decide, by decide, by decide, by decide, by decide⟩

theorem witness_ElevationWritesTheFormula : ∃ h x : Flt,
    h = NUM.sqrt (NUM.add (NUM.mul State.reset.fus.fa.x State.reset.fus.fa.x)
      (NUM.mul State.reset.fus.fa.y State.reset.fus.fa.y)) ∧
    (State.reset.cfg.elevVariant = .formula → x = NUM.neg (NUM.atan2 State.reset.fus.fa.z h)) ∧
    (State.reset.cfg.elevVariant = .vectors → x = NUM.atan2 State.reset.fus.fa.z h) :=
  ⟨_, _, rfl, fun _ => rfl, by decide⟩

theorem witness_AzimuthWritesTheNormalizedAngle : ∃ (s : State) (A H R C : Vec3 Flt) (dd nC nR q : Flt), A = s.fus.fa ∧
    H = s.fus.fh ∧ R = s.cfg.refAxis.map NUM.lit ∧
    C.x = NUM.sub (NUM.mul A.y H.z) (NUM.mul A.z H.y) ∧ C.y = NUM.sub (NUM.mul A.z H.x) (NUM.mul A.x H.z) ∧
    C.z = NUM.sub (NUM.mul A.x H.y) (NUM.mul A.y H.x) ∧
    dd = NUM.add (NUM.add (NUM.mul C.x R.x) (NUM.mul C.y R.y)) (NUM.mul C.z R.z) ∧
    nC = NUM.sqrt (NUM.add (NUM.add (NUM.mul C.x C.x) (NUM.mul C.y C.y)) (NUM.mul C.z C.z)) ∧
    nR = NUM.sqrt (NUM.add (NUM.add (NUM.mul R.x R.x) (NUM.mul R.y R.y)) (NUM.mul R.z R.z)) ∧
    q = NUM.div dd (NUM.mul nC nR) :=
  ⟨State.reset, _, _, _, ⟨_, _, _⟩, _, _, _, _, rfl, rfl, rfl, rfl, rfl, rfl, rfl, rfl, rfl, rfl⟩

theorem witness_TransactionsNeedTheDevice : (settling (device [])).dev.devSettling = true ∧
    (device []).dev.devSettling = false ∧
    addr7Of ((device []).setHandle ⟨true, 0#8, 0xD2#8⟩).handle.addr8 ≠ (device []).cfg.devAddr7 := by decide

theorem witness_StoredRegisterHoldsTheLastByte : Memory.wf (device []).dev.regs = true ∧
    regAt (device []).cfg (device []).bank 0x05#8 = some .lpcfg ∧
    RegName.lpcfg ∈ [RegName.lpcfg, .gyrocfg, .accelcfg, .auxodr, .auxmctl, .ptAddr, .ptReg, .ptDo] := by decide

theorem witness_DeviceResetEffects : Memory.wf bridging.dev.regs = true := by decide

theorem witness_MasterResetEffects : Memory.wf bridging.dev.regs = true ∧ bridging.bank = 0#2 ∧
    (0x02#8 : Byte).getLsbD 1 = true := by decide

theorem witness_ReadsHaveNoSideEffectAndOddAccessesAreRefused :
    (∃ p, devRead 0x3B#8 8 (device []) = .ok p) ∧ 0x02#8 ≠ 0x7F#8 ∧
    regAt (device []).cfg (device []).bank 0x02#8 = none ∧ (device []).bank = 0#2 ∧
    ((device []).setDev { (device []).dev with banksel := 0x10#8 }).bank = 1#2 ∧
    ¬((device []).bank = 0#2 ∧ ((0x2D ≤ (0x37#8).toNat ∧ (0x37#8).toNat + 3 ≤ 0x39) ∨
      (0x3B ≤ (0x37#8).toNat ∧ (0x37#8).toNat + 3 ≤ 0x43))) :=
  ⟨⟨_, rfl⟩, by decide, by decide, by decide, by decide, by decide⟩

end Sys2Proof.Tests
end

section
/-! PROOF. What a step of the machine can do, said once, and from it that no step changes the configuration or takes
anything back from the two records of the past. -/

namespace Sys2Proof.Machine

/-! ### The ways a step answers a next state -/

/-- A result followed by ticks is a next state only after a next state and a scheduling point that is passed. -/
theorem thenTicks_next {r : Result} {t : State} (h : thenTicks r = .next t) :
    ∃ u, r = .next u ∧ tickPoint u = .ok t := by
  cases r with
  | fault f => cases h
  | refused e => cases h
  | next u =>
    simp only [thenTicks] at h
    split at h
    · next t' ht => cases h; exact ⟨u, rfl, ht⟩
    · cases h

/-- A step that answers a next state starts idle, waits or performs the host's next action, and passes a scheduling
point. -/
theorem step_next {s t : State} (h : step s = .next t) :
    s.activity = .idle ∧ ∃ u, tickPoint u = .ok t ∧
      ((s.host = [] ∧ u = s) ∨ ∃ a rest, s.host = a :: rest ∧ execAction a (s.setHost rest) = .next u) := by
  unfold step at h
  split at h
  · cases h
  · next hidle =>
    refine ⟨hidle, ?_⟩
    cases hhost : s.host with
    | nil =>
      simp only [fetchHost, hhost] at h
      obtain ⟨u, hu, ht⟩ := thenTicks_next h
      cases hu
      exact ⟨s, ht, .inl ⟨rfl, rfl⟩⟩
    | cons a rest =>
      simp only [fetchHost, hhost] at h
      obtain ⟨u, hu, ht⟩ := thenTicks_next h
      exact ⟨u, ht, .inr ⟨a, rest, rfl, hu⟩⟩

/-! ### Configuration and past -/

/-- The configuration is as before, and the transaction trace and the event history have only grown. -/
structure PastKept (s t : State) : Prop where
  cfg : t.cfg = s.cfg
  trace : s.trace <+: t.trace
  hist : s.hist <+: t.hist

theorem PastKept.of_eq {s t : State} (hc : t.cfg = s.cfg) (ht : t.trace = s.trace) (hh : t.hist = s.hist) :
    PastKept s t := ⟨hc, ht ▸ List.prefix_refl _, hh ▸ List.prefix_refl _⟩

theorem PastKept.trans {s t u : State} (h : PastKept s t) (k : PastKept t u) : PastKept s u :=
  ⟨k.cfg.trans h.cfg, h.trace.trans k.trace, h.hist.trans k.hist⟩

theorem EngineRel.pastKept {s t : State} (h : EngineRel s t) : PastKept s t :=
  ⟨h.cfg, h.trace ▸ List.prefix_refl _, h.hist⟩

theorem SeqKept.pastKept {s t : State} (h : SeqKept s t) : PastKept s t := ⟨h.cfg, h.trace, h.hist⟩

/-- The end of an operation writes neither the configuration nor a record of the past. -/
theorem pastKept_finishOf (i : Instr) (rs : Reads) (s : State) : PastKept s (finishOf i rs s) := by
  cases i
  case getDeviceId =>
    simp only [finishOf, finDeviceId]
    split
    · exact .of_eq rfl rfl rfl
    · exact .of_eq rfl rfl rfl
  all_goals exact .of_eq rfl rfl rfl

/-- Only a step list appends to the records, and it keeps what they held; whatever the outcome of the operation. -/
theorem pastKept_exec {i : Instr} {s t : State} (h : exec i s = .next t) : PastKept s t := by
  refine exec_next_cases (R := PastKept s) h ?rejected ?create ?release ?elevation ?azimuth ?run
  case rejected => exact .of_eq rfl rfl rfl
  case create => exact fun _ _ _ _ _ => .of_eq rfl rfl rfl
  case release => exact fun _ _ => .of_eq rfl rfl rfl
  case elevation => exact fun _ _ => .of_eq rfl rfl rfl
  case azimuth => exact fun _ _ => .of_eq rfl rfl rfl
  case run =>
    refine fun _ => ⟨fun u rs hu => ?_, fun u hu => ?_⟩
    · exact (SeqKept.run.1 u rs hu).pastKept.trans (pastKept_finishOf i rs u)
    · obtain ⟨d, j, e, v, hv, rfl⟩ := SeqKept.run.2 u hu
      exact hv.pastKept.trans (.of_eq rfl rfl rfl)

theorem pastKept_execAction {a : HostAction} {s t : State} (h : execAction a s = .next t) : PastKept s t := by
  cases a with
  | writeFA v => cases h; exact .of_eq rfl rfl rfl
  | writeFH v => cases h; exact .of_eq rfl rfl rfl
  | command w =>
    simp only [execAction, execWord] at h
    split at h
    · exact pastKept_exec h
    · cases h; exact .of_eq rfl rfl rfl

theorem pastKept_step {s t : State} (h : step s = .next t) : PastKept s t := by
  obtain ⟨-, u, ht, ⟨-, rfl⟩ | ⟨a, rest, -, hu⟩⟩ := step_next h
  · exact (engineRel_tickPoint ht).pastKept
  · have taken : PastKept s (s.setHost rest) := .of_eq rfl rfl rfl
    exact taken.trans ((pastKept_execAction hu).trans (engineRel_tickPoint ht).pastKept)

/-- Settles O10: the host's action, then the ticks after it, each keep the configuration and only append. -/
theorem everyStepKeepsConfigAndPast : Obligations.EveryStepKeepsConfigAndPast := by
  intro s t h
  obtain ⟨hcfg, htrace, hhist⟩ := pastKept_step h
  exact ⟨hcfg, htrace, hhist⟩

end Sys2Proof.Machine
end

section
/-! PROOF. The frame of an operation as a relation between states: how a device write and a stage end, the device's own
part of the invariant, what an operation may do to the device, and that the engine, a delay and an allowed write do no
more. -/

namespace Sys2Proof.Machine

/-! ### Device writes -/

/-- How a device write succeeds: a select, a plain store, or one of the three writes with a side effect. -/
theorem devWrite_cases {o v : Byte} {s t : State} (h : devWrite o v s = .ok t) :
    (o = oBANKSEL ∧ t = s.setDev { s.dev with banksel := v }) ∨
    (∃ n, regAt s.cfg s.bank o = some n ∧ n.plain = true ∧ t = storeReg s.bank o v s) ∨
    (s.bank = 0#2 ∧ o = oMSTCTL ∧ t = writeMstctl v s) ∨
    (s.bank = 0#2 ∧ o = oPWR ∧ t = writePwr v s) ∨
    (s.bank = 3#2 ∧ o = oPT_CTRL ∧ t = writePtCtrl v s) := by
  unfold devWrite at h
  split at h
  · next ho => cases h; exact .inl ⟨ho, rfl⟩
  · cases hr : regAt s.cfg s.bank o with
    | none => simp [hr] at h
    | some n =>
      cases n <;> simp only [hr, reduceCtorEq, Except.ok.injEq] at h <;> subst h
      case mstctl => obtain ⟨hb, ho⟩ := regAt_home hr rfl; exact .inr (.inr (.inl ⟨hb, ho, rfl⟩))
      case pwr => obtain ⟨hb, ho⟩ := regAt_home hr rfl; exact .inr (.inr (.inr (.inl ⟨hb, ho, rfl⟩)))
      case ptCtrl => obtain ⟨hb, ho⟩ := regAt_home hr rfl; exact .inr (.inr (.inr (.inr ⟨hb, ho, rfl⟩)))
      all_goals exact .inr (.inl ⟨_, rfl, rfl, rfl⟩)

theorem writePwr_of_low {v : Byte} (h : v.getLsbD 7 = false) (s : State) : writePwr v s = storeReg 0#2 oPWR v s := by
  rw [writePwr, h, if_neg Bool.false_ne_true]

theorem writePwr_of_high {v : Byte} (h : v.getLsbD 7 = true) (s : State) : writePwr v s = deviceReset s := by
  rw [writePwr, h, if_pos rfl]

/-- A write of `MSTCTL` stores the byte without its reset bit; the hidden state is left or, by a master reset, the
channel is disarmed and the master window opens. -/
theorem writeMstctl_eq (v : Byte) (s : State) : ∃ armed window,
    writeMstctl v s = (storeReg 0#2 oMSTCTL (v &&& 0xFD#8) s).setDev
      { (storeReg 0#2 oMSTCTL (v &&& 0xFD#8) s).dev with auxArmed := armed, mstSettling := window } := by
  unfold writeMstctl
  split
  · exact ⟨false, true, rfl⟩
  · exact ⟨s.dev.auxArmed, s.dev.mstSettling, rfl⟩

/-- A write of `PT_CTRL` stores the byte and can only arm the channel. -/
theorem writePtCtrl_eq (v : Byte) (s : State) :
    writePtCtrl v s = (storeReg 3#2 oPT_CTRL v s).setDev
      { (storeReg 3#2 oPT_CTRL v s).dev with auxArmed := v.getLsbD 7 || s.dev.auxArmed } := by
  unfold writePtCtrl
  split
  · next hv => rw [hv]; rfl
  · next hv => rw [Bool.eq_false_of_not_eq_true hv]; rfl

/-! ### Where plain registers lie -/

theorem regAt_pwr (c : Config) : regAt c 0#2 oPWR = some .pwr := by simp [regAt, oPWR, oMSTCTL, oIDENT]

/-- A plain register is none of the three whose values the invariant restricts. -/
theorem regAddr_plain_ne {c : Config} {b : BitVec 2} {o : Byte} {n : RegName} (h : regAt c b o = some n)
    (hn : n.plain = true) : regAddr b o ≠ aPWR ∧ regAddr b o ≠ aMSTCTL ∧ regAddr b o ≠ aPT_CTRL :=
  ⟨regAddr_ne h (regAt_pwr c) (by rintro rfl; cases hn), regAddr_ne h (regAt_mstctl c) (by rintro rfl; cases hn),
    regAddr_ne h (regAt_ptCtrl c) (by rintro rfl; cases hn)⟩

/-- `LPCFG` is described only where its offset clashes with no other. -/
theorem lpOffsetOk_of_regAt {c : Config} {b : BitVec 2} {o : Byte} (h : regAt c b o = some .lpcfg) :
    lpOffsetOk c = true := by
  obtain ⟨rfl, rfl⟩ := regAt_home h rfl
  have hlt : c.lpConfigOffset < oBANKSEL := by
    rw [BitVec.lt_def]; exact regAt_lt h
  unfold regAt at h
  split_ifs at h <;> simp_all [lpOffsetOk, ← Bool.decide_and]

/-- A plain register is stored at one of the described addresses. -/
theorem regAddr_plain_mem_resetAddrs {c : Config} {b : BitVec 2} {o : Byte} {n : RegName}
    (h : regAt c b o = some n) (hn : n.plain = true) : regAddr b o ∈ resetAddrs c := by
  cases n <;> cases hn
  case lpcfg =>
    have hl := lpOffsetOk_of_regAt h
    obtain ⟨rfl, rfl⟩ := regAt_home h rfl
    simp [resetAddrs, hl, regAddr, aLPCFG]
  all_goals
    obtain ⟨rfl, rfl⟩ := regAt_home h rfl
    exact List.mem_append_left _ (List.mem_append_left _ (by decide))

theorem mem_resetAddrs_of_fixed {c : Config} {a : Nat} (h : a = aPT_CTRL ∨ a = aPWR ∨ a = aMSTCTL) :
    a ∈ resetAddrs c := by
  refine List.mem_append_left _ (List.mem_append_left _ ?_)
  rcases h with rfl | rfl | rfl <;> decide

theorem shadowAddrs_subset_resetAddrs {c : Config} {a : Nat} (h : a ∈ shadowAddrs) : a ∈ resetAddrs c :=
  List.mem_append_left _ (List.mem_append_right _ h)

/-! ### The device's part of the invariant -/

/-- What `State.Inv` says of the device and the auxiliary target; it holds at every stage of an operation. -/
structure DevInv (s : State) : Prop where
  regsWf : Memory.wf s.dev.regs = true
  described : ∀ c ∈ s.dev.regs, c.1 ∈ resetAddrs s.cfg
  magWf : s.mag.wf = true
  devRst : (s.reg aPWR).getLsbD 7 = false
  mstRst : (s.reg aMSTCTL).getLsbD 1 = false
  channel : channelLegal (s.reg aPT_CTRL) = true

theorem State.Inv.devInv {s : State} (h : s.Inv) : DevInv s :=
  ⟨h.regsWf, h.described, h.magWf, h.devRst, h.mstRst, h.channel⟩

theorem DevInv.of_eq {s t : State} (h : DevInv s) (hc : t.cfg = s.cfg) (hr : t.dev.regs = s.dev.regs)
    (hm : t.mag = s.mag) : DevInv t where
  regsWf := by rw [hr]; exact h.regsWf
  described := by rw [hr, hc]; exact h.described
  magWf := by rw [hm]; exact h.magWf
  devRst := by rw [State.reg, hr]; exact h.devRst
  mstRst := by rw [State.reg, hr]; exact h.mstRst
  channel := by rw [State.reg, hr]; exact h.channel

theorem DevInv.engine {s t : State} (h : DevInv s) (r : EngineRel s t) : DevInv t where
  regsWf := r.regsWf h.regsWf
  described := fun c hc => by
    rw [r.cfg]
    exact (r.listed c hc).elim (h.described c) shadowAddrs_subset_resetAddrs
  magWf := r.magWf h.magWf
  devRst := by rw [r.regs h.regsWf _ (by decide)]; exact h.devRst
  mstRst := by rw [r.regs h.regsWf _ (by decide)]; exact h.mstRst
  channel := by rw [r.ptCtrl h.regsWf]; exact h.channel

theorem reg_of_set {s t : State} {a : Nat} {v : Byte} (w : Memory.wf s.dev.regs = true)
    (hr : t.dev.regs = Memory.set s.dev.regs a v) (b : Nat) : t.reg b = if b = a then v else s.reg b := by
  rw [State.reg, hr]; exact Memory.get_set w a b v

/-- Storing a byte at a described address, within what the invariant allows there. -/
theorem DevInv.store {s t : State} {a : Nat} {v : Byte} (h : DevInv s) (hc : t.cfg = s.cfg) (hm : t.mag = s.mag)
    (hr : t.dev.regs = Memory.set s.dev.regs a v) (ha : a ∈ resetAddrs s.cfg)
    (hpwr : a = aPWR → v.getLsbD 7 = false) (hmst : a = aMSTCTL → v.getLsbD 1 = false)
    (hctl : a = aPT_CTRL → channelLegal v = true) : DevInv t where
  regsWf := by rw [hr]; exact Memory.wf_set h.regsWf _ _
  described := fun c hcell => by
    rw [hr] at hcell
    rw [hc]
    rcases Memory.mem_set hcell with rfl | hcell
    · exact ha
    · exact h.described c hcell
  magWf := by rw [hm]; exact h.magWf
  devRst := by
    rw [reg_of_set h.regsWf hr]
    split
    · next e => exact hpwr e.symm
    · exact h.devRst
  mstRst := by
    rw [reg_of_set h.regsWf hr]
    split
    · next e => exact hmst e.symm
    · exact h.mstRst
  channel := by
    rw [reg_of_set h.regsWf hr]
    split
    · next e => exact hctl e.symm
    · exact h.channel

theorem getLsbD_seven_and_7F (v : Byte) : (v &&& 0x7F#8).getLsbD 7 = false := by revert v; decide
theorem getLsbD_one_and_DD (v : Byte) : (v &&& 0xDD#8).getLsbD 1 = false := by revert v; decide
theorem getLsbD_one_and_FD (v : Byte) : (v &&& 0xFD#8).getLsbD 1 = false := by revert v; decide

/-- The registers after a device reset (R261). -/
theorem reg_deviceReset {s : State} (w : Memory.wf s.dev.regs = true) : ∃ drawn : Memory,
    (deviceReset s).dev.regs = resetRegs drawn ∧ Memory.wf drawn = true ∧
    (∀ a, a ∉ resetAddrs s.cfg → Memory.get drawn a = s.reg a) ∧
    ∀ c ∈ drawn, c.1 ∈ resetAddrs s.cfg ∨ c ∈ s.dev.regs :=
  ⟨_, rfl, wf_redraw w, fun _ ha => get_redraw_other w ha, fun _ hc => mem_redraw hc⟩

theorem reg_deviceReset_other {s : State} (w : Memory.wf s.dev.regs = true) {a : Nat} (ha : a ∉ resetAddrs s.cfg) :
    (deviceReset s).reg a = s.reg a := by
  obtain ⟨drawn, hregs, hwf, hother, -⟩ := reg_deviceReset w
  rw [State.reg, hregs, get_resetRegs hwf, if_neg, if_neg, if_neg, hother a ha]
  · rintro rfl; exact ha (mem_resetAddrs_of_fixed (.inr (.inr rfl)))
  · rintro rfl; exact ha (mem_resetAddrs_of_fixed (.inr (.inl rfl)))
  · rintro rfl; exact ha (mem_resetAddrs_of_fixed (.inl rfl))

theorem DevInv.deviceReset {s : State} (h : DevInv s) : DevInv (deviceReset s) := by
  obtain ⟨drawn, hregs, hwf, -, hlist⟩ := reg_deviceReset h.regsWf
  refine ⟨?_, ?_, h.magWf, ?_, ?_, ?_⟩
  · rw [hregs]; exact wf_resetRegs hwf
  · intro c hc
    rw [hregs] at hc
    rcases mem_resetRegs hc with e | e | e | hc
    · exact mem_resetAddrs_of_fixed (.inl e)
    · exact mem_resetAddrs_of_fixed (.inr (.inl e))
    · exact mem_resetAddrs_of_fixed (.inr (.inr e))
    · exact (hlist c hc).elim id (h.described c)
  · rw [State.reg, hregs, get_resetRegs hwf, if_neg (by decide), if_pos rfl]; exact getLsbD_seven_and_7F _
  · rw [State.reg, hregs, get_resetRegs hwf, if_neg (by decide), if_neg (by decide), if_pos rfl]
    exact getLsbD_one_and_DD _
  · rw [State.reg, hregs, get_resetRegs hwf, if_pos rfl]; decide

/-! ### How a stage ends -/

theorem stageStep_write_inv {o : Byte} {v : Reads → Byte} {rs rs1 : Reads} {s t : State}
    (h : stageStep (.write o v) rs s = .ok rs1 t) :
    rs1 = rs ∧ ∃ u x, devWrite o (v rs) s.afterTxn = .ok u ∧ t = u.record x := by
  rcases memWrite_cases o (v rs) s with ⟨-, e⟩ | ⟨-, -, e⟩ | ⟨-, -, r, -, e⟩ | ⟨-, -, u, hd, e⟩ <;>
    simp [stageStep, e] at h
  obtain ⟨rfl, rfl⟩ := h
  exact ⟨rfl, u, _, hd, rfl⟩

theorem stageStep_read_inv {o : Byte} {n : Nat} {rs rs1 : Reads} {s t : State}
    (h : stageStep (.read o n) rs s = .ok rs1 t) :
    ∃ bs u x, devRead o n s.afterTxn = .ok (bs, u) ∧ rs1 = rs ++ [bs] ∧ t = u.record x := by
  rcases memRead_cases o n s with ⟨-, e⟩ | ⟨-, -, e⟩ | ⟨-, -, r, -, e⟩ | ⟨-, -, bs, u, hd, e⟩ <;>
    simp [stageStep, e] at h
  obtain ⟨rfl, rfl⟩ := h
  exact ⟨bs, u, _, hd, rfl, rfl⟩

theorem stageStep_delay_inv {ms : Nat} {rs rs1 : Reads} {s t : State}
    (h : stageStep (.delay ms) rs s = .ok rs1 t) : rs1 = rs ∧ delayStep ms s = .ok t := by
  simp only [stageStep] at h
  split at h
  · cases h
  · next hd => cases h; exact ⟨rfl, hd⟩

/-- A failing stage takes an answer of the transport and records the transaction. -/
theorem stageStep_failed_inv {st : Stage} {rs : Reads} {e : TErr} {s t : State}
    (h : stageStep st rs s = .failed e t) : ∃ x, t = s.afterTxn.record x := by
  cases st with
  | write o v =>
    rcases memWrite_cases o (v rs) s with ⟨-, e⟩ | ⟨-, -, e⟩ | ⟨-, -, r, -, e⟩ | ⟨-, -, u, -, e⟩ <;>
      simp [stageStep, e] at h
    exact ⟨_, h.2.symm⟩
  | read o n =>
    rcases memRead_cases o n s with ⟨-, e⟩ | ⟨-, -, e⟩ | ⟨-, -, r, -, e⟩ | ⟨-, -, bs, u, -, e⟩ <;>
      simp [stageStep, e] at h
    exact ⟨_, h.2.symm⟩
  | delay ms =>
    simp only [stageStep] at h
    split at h <;> cases h

/-- A delay is ticks, none with the engine off, and then the windows close. -/
theorem delayStep_inv {ms : Nat} {s t : State} (h : delayStep ms s = .ok t) :
    ∃ u, EngineRel s u ∧ (s.tickEnabled = false → u = s) ∧ t = closeWindows ms u := by
  unfold delayStep at h
  split at h
  · next hon =>
    split at h
    · cases h
    · next u hu =>
      cases h
      exact ⟨u, (engineRel_afterSchedule s).trans (engineRel_ticks hu).1, fun off => by simp [hon] at off, rfl⟩
  · cases h; exact ⟨s, .refl s, fun _ => rfl, rfl⟩

/-! ### The frame of an operation -/

/-- The operations that write `PT_CTRL` with its enable bit, and so arm the channel (43_aux_engine.md R195). -/
def armsChannel : Instr → Bool
  | .writeAux _ _ => true
  | .readAux _ _ => true
  | .auxInit => true
  | _ => false

/-- What the part of operation `i` that leads from `s` to `t` may do to the device and the auxiliary bus. -/
structure OpFrame (i : Instr) (s t : State) : Prop where
  cfg : t.cfg = s.cfg
  regs : ∀ a, a ∉ writtenAddrs s.cfg i → a ∉ engineAddrsDuring s i → t.reg a = s.reg a
  devWindow : i ≠ .reset → t.dev.devSettling = true → s.dev.devSettling = true
  mstWindow : i ≠ .auxInit → t.dev.mstSettling = true → s.dev.mstSettling = true
  windows : (∀ ms, i ≠ .delay ms) → i ≠ .reset → i ≠ .auxInit →
    t.dev.devSettling = s.dev.devSettling ∧ t.dev.mstSettling = s.dev.mstSettling
  arm : armsChannel i = false → t.dev.auxArmed = true → s.dev.auxArmed = true
  disarm : i ≠ .reset → i ≠ .auxInit → s.dev.auxArmed = true → t.dev.auxArmed = false → s.hist.length < t.hist.length
  hist : s.hist.length ≤ t.hist.length
  quiet : s.tickEnabled = false → i ≠ .auxInit → t.hist = s.hist ∧ t.mag = s.mag ∧ t.dev.tickNo = s.dev.tickNo

/-- The operation does not turn the engine on; AUXINIT may. -/
def StaysOff (i : Instr) (s t : State) : Prop := i ≠ .auxInit → s.tickEnabled = false → t.tickEnabled = false

/-- The parts of the state `OpFrame` speaks of are as before. -/
theorem OpFrame.of_eq {i : Instr} {s t : State} (hcfg : t.cfg = s.cfg) (hregs : t.dev.regs = s.dev.regs)
    (hdev : t.dev.devSettling = s.dev.devSettling) (hmst : t.dev.mstSettling = s.dev.mstSettling)
    (harm : t.dev.auxArmed = s.dev.auxArmed) (htick : t.dev.tickNo = s.dev.tickNo) (hmag : t.mag = s.mag)
    (hhist : t.hist = s.hist) : OpFrame i s t where
  cfg := hcfg
  regs := fun a _ _ => by rw [State.reg, hregs]; rfl
  devWindow := fun _ h => hdev ▸ h
  mstWindow := fun _ h => hmst ▸ h
  windows := fun _ _ _ => ⟨hdev, hmst⟩
  arm := fun _ h => harm ▸ h
  disarm := fun _ _ h k => by simp [harm, h] at k
  hist := hhist ▸ Nat.le_refl _
  quiet := fun _ _ => ⟨hhist, hmag, htick⟩

theorem StaysOff.of_eq {i : Instr} {s t : State} (hregs : t.dev.regs = s.dev.regs)
    (hdev : t.dev.devSettling = s.dev.devSettling) (hmst : t.dev.mstSettling = s.dev.mstSettling) :
    StaysOff i s t := fun _ off => by
  simpa only [State.tickEnabled, State.mstEn, State.reg, hregs, hdev, hmst] using off

theorem StaysOff.trans {i : Instr} {s t u : State} (h : StaysOff i s t) (k : StaysOff i t u) : StaysOff i s u :=
  fun hi off => k hi (h hi off)

/-- While the engine stays off, it may write no more addresses than at the start. -/
theorem StaysOff.engineAddrsDuring {i : Instr} {s t : State} (h : StaysOff i s t) {a : Nat}
    (ha : a ∉ engineAddrsDuring s i) : a ∉ engineAddrsDuring t i := by
  unfold Sys2Proof.Machine.engineAddrsDuring at ha ⊢
  split
  · next hi => simpa [hi] using ha
  · next hi =>
    rw [if_neg hi] at ha
    unfold State.engineAddrs at ha ⊢
    cases off : s.tickEnabled
    · simp [h hi off]
    · simp only [off, if_true] at ha
      split
      · exact ha
      · simp

theorem OpFrame.trans {i : Instr} {s t u : State} (h : OpFrame i s t) (o : StaysOff i s t) (k : OpFrame i t u) :
    OpFrame i s u where
  cfg := k.cfg.trans h.cfg
  regs := fun a hw he =>
    (k.regs a (by rw [h.cfg]; exact hw) (o.engineAddrsDuring he)).trans (h.regs a hw he)
  devWindow := fun hi hu => h.devWindow hi (k.devWindow hi hu)
  mstWindow := fun hi hu => h.mstWindow hi (k.mstWindow hi hu)
  windows := fun h1 h2 h3 => by
    obtain ⟨hd, hm⟩ := h.windows h1 h2 h3
    obtain ⟨kd, km⟩ := k.windows h1 h2 h3
    exact ⟨kd.trans hd, km.trans hm⟩
  arm := fun hi hu => h.arm hi (k.arm hi hu)
  disarm := fun h1 h2 hs hu => by
    cases ht : t.dev.auxArmed
    · exact (h.disarm h1 h2 hs ht).trans_le k.hist
    · exact h.hist.trans_lt (k.disarm h1 h2 ht hu)
  hist := h.hist.trans k.hist
  quiet := fun off hi => by
    obtain ⟨h1, h2, h3⟩ := h.quiet off hi
    obtain ⟨k1, k2, k3⟩ := k.quiet (o hi off) hi
    exact ⟨k1.trans h1, k2.trans h2, k3.trans h3⟩

/-! ### Each kind of stage meets the frame -/

/-- The engine meets every operation's frame. -/
theorem opFrame_engine (i : Instr) {s t : State} (w : Memory.wf s.dev.regs = true) (r : EngineRel s t)
    (hoff : s.tickEnabled = false → t = s) : OpFrame i s t where
  cfg := r.cfg
  regs := fun a _ he => by
    cases off : s.tickEnabled
    · rw [hoff off]
    · refine r.regs w a fun hsh => he ?_
      simpa [engineAddrsDuring, State.engineAddrs, off] using hsh
  devWindow := fun _ h => r.devSettling ▸ h
  mstWindow := fun _ h => r.mstSettling ▸ h
  windows := fun _ _ _ => ⟨r.devSettling, r.mstSettling⟩
  arm := fun _ => r.armed
  disarm := fun _ _ => r.kept.disarm
  hist := r.hist.length_le
  quiet := fun off _ => by rw [hoff off]; exact ⟨rfl, rfl, rfl⟩

theorem staysOff_engine (i : Instr) {s t : State} (w : Memory.wf s.dev.regs = true) (r : EngineRel s t) :
    StaysOff i s t := fun _ off => (r.tickEnabled w).trans off

/-- What holds at every stage of operation `i` that started at `s`. -/
structure During (i : Instr) (s t : State) : Prop where
  inv : DevInv t
  frame : OpFrame i s t
  off : StaysOff i s t

theorem During.trans {i : Instr} {s t u : State} (h : During i s t) (k : During i t u) : During i s u :=
  ⟨k.inv, h.frame.trans h.off k.frame, h.off.trans k.off⟩

theorem During.of_eq {i : Instr} {s t : State} (h : DevInv s) (hcfg : t.cfg = s.cfg)
    (hregs : t.dev.regs = s.dev.regs) (hdev : t.dev.devSettling = s.dev.devSettling)
    (hmst : t.dev.mstSettling = s.dev.mstSettling) (harm : t.dev.auxArmed = s.dev.auxArmed)
    (htick : t.dev.tickNo = s.dev.tickNo) (hmag : t.mag = s.mag) (hhist : t.hist = s.hist) : During i s t :=
  ⟨h.of_eq hcfg hregs hmag, .of_eq hcfg hregs hdev hmst harm htick hmag hhist, .of_eq hregs hdev hmst⟩

theorem during_refl (i : Instr) {s : State} (h : DevInv s) : During i s s :=
  .of_eq h rfl rfl rfl rfl rfl rfl rfl rfl

/-- Ticks before a stage. -/
theorem during_tickPoint {i : Instr} {s t : State} {a : Activity} (h : DevInv s)
    (ht : tickPoint (s.setActivity a) = .ok t) : During i s t := by
  have busy : During i s (s.setActivity a) := .of_eq h rfl rfl rfl rfl rfl rfl rfl rfl
  have r := engineRel_tickPoint ht
  refine busy.trans ⟨busy.inv.engine r, opFrame_engine i h.regsWf r fun off => ?_, staysOff_engine i h.regsWf r⟩
  rw [tickPoint_off off] at ht
  exact (Except.ok.inj ht).symm

/-- A delay, in DELAY and AUXINIT. -/
theorem opFrame_delay {i : Instr} {ms : Nat} {s t : State} (hi : i = .auxInit ∨ ∃ m, i = .delay m) (h : DevInv s)
    (ht : delayStep ms s = .ok t) : DevInv t ∧ OpFrame i s t := by
  obtain ⟨u, r, hoff, rfl⟩ := delayStep_inv ht
  have f := opFrame_engine i h.regsWf r hoff
  refine ⟨(h.engine r).of_eq rfl rfl rfl, { f with devWindow := ?_, mstWindow := ?_, windows := ?_ }⟩
  · intro hi hd
    simp only [closeWindows, State.setDev_dev, Bool.and_eq_true] at hd
    exact f.devWindow hi hd.1
  · intro hi hd
    simp only [closeWindows, State.setDev_dev, Bool.and_eq_true] at hd
    exact f.mstWindow hi hd.1
  · intro h1 _ h3
    rcases hi with hi | ⟨m, hi⟩
    · exact absurd hi h3
    · exact absurd hi (h1 m)

/-- Operation `i` may write the byte `v` to offset `o` of bank `b`. -/
structure WriteAllowed (i : Instr) (c : Config) (b : BitVec 2) (o v : Byte) : Prop where
  listed : regAddr b o ∈ writtenAddrs c i
  mstctl : b = 0#2 → o = oMSTCTL → i = .auxInit
  pwr : b = 0#2 → o = oPWR → v.getLsbD 7 = true → i = .reset
  ptCtrl : b = 3#2 → o = oPT_CTRL → armsChannel i = true ∧ channelLegal v = true

/-- A store at an address the operation writes, which leaves the hidden state. -/
theorem opFrame_store {i : Instr} {s t : State} {a : Nat} {v : Byte} (w : Memory.wf s.dev.regs = true)
    (hw : a ∈ writtenAddrs s.cfg i) (hcfg : t.cfg = s.cfg) (hregs : t.dev.regs = Memory.set s.dev.regs a v)
    (hdev : t.dev.devSettling = s.dev.devSettling)
    (hmst : t.dev.mstSettling = s.dev.mstSettling ∨ i = .auxInit)
    (harm : t.dev.auxArmed = s.dev.auxArmed ∨ i = .auxInit ∨ (armsChannel i = true ∧ t.dev.auxArmed = true))
    (htick : t.dev.tickNo = s.dev.tickNo) (hmag : t.mag = s.mag) (hhist : t.hist = s.hist) : OpFrame i s t where
  cfg := hcfg
  regs := fun b hb _ => by
    rw [reg_of_set w hregs, if_neg]
    rintro rfl
    exact hb hw
  devWindow := fun _ h => hdev ▸ h
  mstWindow := fun hi h => by rw [← hmst.resolve_right hi]; exact h
  windows := fun _ _ hi => ⟨hdev, hmst.resolve_right hi⟩
  arm := fun hi ht => by
    rcases harm with e | rfl | ⟨e, -⟩
    · exact e ▸ ht
    · cases hi
    · simp [hi] at e
  disarm := fun _ hi hs ht => by
    rcases harm with e | e | ⟨-, e⟩
    · simp [e, hs] at ht
    · exact absurd e hi
    · simp [e] at ht
  hist := hhist ▸ Nat.le_refl _
  quiet := fun _ _ => ⟨hhist, hmag, htick⟩

theorem staysOff_store {i : Instr} {s t : State} {a : Nat} {v : Byte} (w : Memory.wf s.dev.regs = true)
    (ha : a ≠ aMSTCTL ∨ i = .auxInit) (hregs : t.dev.regs = Memory.set s.dev.regs a v)
    (hdev : t.dev.devSettling = s.dev.devSettling) (hmst : t.dev.mstSettling = s.dev.mstSettling ∨ i = .auxInit) :
    StaysOff i s t := fun hi off => by
  simpa only [State.tickEnabled, State.mstEn, reg_of_set w hregs, if_neg (ha.resolve_right hi).symm, hdev,
    hmst.resolve_right hi] using off

/-- A device reset meets the frame of RESET. -/
theorem during_deviceReset {s : State} (h : DevInv s) : During .reset s (deviceReset s) := by
  refine ⟨h.deviceReset, ⟨rfl, fun a ha _ => reg_deviceReset_other h.regsWf ha, nofun, ?_, fun _ hi => absurd rfl hi, ?_,
    fun hi => absurd rfl hi, Nat.le_refl _, fun _ _ => ⟨rfl, rfl, rfl⟩⟩, fun _ _ => ?_⟩
  · exact fun _ e => by cases e
  · exact fun _ e => by cases e
  · simp [State.tickEnabled, deviceReset]

/-- An allowed write meets the frame. -/
theorem during_devWrite {i : Instr} {o v : Byte} {s t : State} (h : DevInv s) (ho : o ≠ oBANKSEL)
    (ha : WriteAllowed i s.cfg s.bank o v) (hd : devWrite o v s = .ok t) : During i s t := by
  obtain ⟨listed, mstctl, pwr, ptCtrl⟩ := ha
  rcases devWrite_cases hd with ⟨e, -⟩ | ⟨n, hr, hn, rfl⟩ | ⟨hb, rfl, rfl⟩ | ⟨hb, rfl, rfl⟩ | ⟨hb, rfl, rfl⟩
  · exact absurd e ho
  · obtain ⟨np, nm, nc⟩ := regAddr_plain_ne hr hn
    exact ⟨h.store rfl rfl rfl (regAddr_plain_mem_resetAddrs hr hn) (absurd · np) (absurd · nm) (absurd · nc),
      opFrame_store h.regsWf listed rfl rfl rfl (.inl rfl) (.inl rfl) rfl rfl rfl,
      staysOff_store h.regsWf (.inl nm) rfl rfl (.inl rfl)⟩
  · obtain rfl := mstctl hb rfl
    rw [hb] at listed
    obtain ⟨armed, window, e⟩ := writeMstctl_eq v s
    rw [e]
    exact ⟨h.store (a := aMSTCTL) rfl rfl rfl (mem_resetAddrs_of_fixed (.inr (.inr rfl)))
        (absurd · (by decide)) (fun _ => getLsbD_one_and_FD v) (absurd · (by decide)),
      opFrame_store h.regsWf listed rfl rfl rfl (.inr rfl) (.inr (.inl rfl)) rfl rfl rfl,
      fun hi => absurd rfl hi⟩
  · rw [hb] at listed
    cases hv : v.getLsbD 7
    · rw [writePwr_of_low hv]
      exact ⟨h.store (a := aPWR) rfl rfl rfl (mem_resetAddrs_of_fixed (.inr (.inl rfl))) (fun _ => hv)
          (absurd · (by decide)) (absurd · (by decide)),
        opFrame_store h.regsWf listed rfl rfl rfl (.inl rfl) (.inl rfl) rfl rfl rfl,
        staysOff_store (a := aPWR) h.regsWf (.inl (by decide)) rfl rfl (.inl rfl)⟩
    · obtain rfl := pwr hb rfl hv
      rw [writePwr_of_high hv]
      exact during_deviceReset h
  · obtain ⟨harm, hlegal⟩ := ptCtrl hb rfl
    rw [hb] at listed
    rw [writePtCtrl_eq]
    refine ⟨h.store (a := aPT_CTRL) rfl rfl rfl (mem_resetAddrs_of_fixed (.inl rfl)) (absurd · (by decide))
        (absurd · (by decide)) fun _ => hlegal,
      opFrame_store h.regsWf listed rfl rfl rfl (.inl rfl) ?_ rfl rfl rfl,
      staysOff_store (a := aPT_CTRL) h.regsWf (.inl (by decide)) rfl rfl (.inl rfl)⟩
    cases hv : v.getLsbD 7
    · exact .inl rfl
    · exact .inr (.inr ⟨harm, rfl⟩)

end Sys2Proof.Machine
end

section
/-! PROOF. Every operation meets its frame: the writes of its step list are allowed, and so each stage keeps what
`During` says. From it the invariant, and the frames of register memory and of the hidden state. -/

namespace Sys2Proof.Machine

/-! ### Step lists that write only what their operation may -/

/-- Each write of the rest of operation `i`'s step list is allowed, from bank `b` and with the bytes `rs` read so far.
A read of `PWR` returns a byte whose reset bit is 0; a write of `PWR` may leave any bank selected (device reset). -/
def Allowed (i : Instr) (c : Config) : BitVec 2 → Reads → List Stage → Prop
  | _, _, [] => True
  | b, rs, .write o v :: rest =>
    if o = oBANKSEL then Allowed i c ((v rs).extractLsb' 4 2) rs rest
    else WriteAllowed i c b o (v rs) ∧ ∀ b', b' = b ∨ (b = 0#2 ∧ o = oPWR) → Allowed i c b' rs rest
  | b, rs, .read o n :: rest =>
    ∀ bs, (b = 0#2 → o = oPWR → n = 1 → (byteAt bs 0).getLsbD 7 = false) → Allowed i c b (rs ++ [bs]) rest
  | b, rs, .delay _ :: rest => i = .auxInit ∧ Allowed i c b rs rest

section
variable {i : Instr} {c : Config} {b : BitVec 2} {o : Byte} {rs : Reads} {rest : List Stage}

theorem allowed_select {bank : Byte} {b' : BitVec 2} (hb : (selByte bank).extractLsb' 4 2 = b')
    (h : Allowed i c b' rs rest) : Allowed i c b rs (selStage bank :: rest) := by
  rw [selStage, Allowed, if_pos rfl, hb]
  exact h

theorem allowed_write {v : Reads → Byte} (ho : o ≠ oBANKSEL) (hw : WriteAllowed i c b o (v rs))
    (h : ∀ b', b' = b ∨ (b = 0#2 ∧ o = oPWR) → Allowed i c b' rs rest) : Allowed i c b rs (.write o v :: rest) := by
  rw [Allowed, if_neg ho]
  exact ⟨hw, h⟩

/-- A write that cannot reset the device leaves the bank. -/
theorem allowed_write_same {v : Reads → Byte} (ho : o ≠ oBANKSEL) (hp : b = 0#2 → o ≠ oPWR)
    (hw : WriteAllowed i c b o (v rs)) (h : Allowed i c b rs rest) : Allowed i c b rs (.write o v :: rest) :=
  allowed_write ho hw fun _ hb => hb.resolve_right (fun ⟨h0, e⟩ => hp h0 e) ▸ h

theorem allowed_rmw {f : Byte → Byte} {k : Nat} (ho : o ≠ oBANKSEL) (hp : b = 0#2 → o ≠ oPWR)
    (hw : ∀ x, WriteAllowed i c b o (f x)) (h : ∀ rs', Allowed i c b rs' rest) :
    Allowed i c b rs (rmwStages o k f ++ rest) :=
  fun _ _ => allowed_write_same ho hp (hw _) (h _)

/-- A write to another register than those whose writes have side effects. -/
theorem writeAllowed_plain {v : Byte} (hl : regAddr b o ∈ writtenAddrs c i)
    (h : b = 2#2 ∨ (b = 3#2 ∧ o ≠ oPT_CTRL) ∨ (b = 0#2 ∧ o ≠ oMSTCTL ∧ o ≠ oPWR)) : WriteAllowed i c b o v := by
  rcases h with rfl | ⟨rfl, h⟩ | ⟨rfl, hm, hp⟩
  · exact ⟨hl, nofun, nofun, nofun⟩
  · exact ⟨hl, nofun, nofun, fun _ e => absurd e h⟩
  · exact ⟨hl, fun _ e => absurd e hm, fun _ e => absurd e hp, nofun⟩

/-- A write of a constant to a register of bank 3 but `PT_CTRL`. -/
theorem allowed_putChannel {v : Byte} (hl : regAddr 3#2 o ∈ writtenAddrs c i) (ho : o ≠ oBANKSEL) (hc : o ≠ oPT_CTRL)
    (h : Allowed i c 3#2 rs rest) : Allowed i c 3#2 rs (putStage o v :: rest) :=
  allowed_write_same ho nofun (writeAllowed_plain hl (.inr (.inl ⟨rfl, hc⟩))) h

/-- A write of `PT_CTRL` that arms the channel with a legal length. -/
theorem allowed_putCtrl {n : Byte} (hl : aPT_CTRL ∈ writtenAddrs c i) (ha : armsChannel i = true) (h1 : 1#8 ≤ n)
    (h2 : n ≤ 8#8) (h : Allowed i c 3#2 rs rest) : Allowed i c 3#2 rs (putStage oPT_CTRL (ptCtrlByte n) :: rest) :=
  allowed_write_same (by decide) nofun ⟨hl, nofun, nofun, fun _ _ => ⟨ha, (ptCtrlByte_bits h1 h2).1⟩⟩ h

/-- The step list of WRITEAUX, alone or as a part of another one. -/
theorem allowed_writeAux {r v : Byte} (ha : armsChannel i = true)
    (hl : [aPT_ADDR, aPT_REG, aPT_DO, aPT_CTRL] ⊆ writtenAddrs c i) (h : Allowed i c 3#2 rs rest) :
    Allowed i c b rs (writeAuxStages c r v ++ rest) := by
  have ctrl := allowed_putCtrl (hl (by decide)) ha (n := 1#8) (by decide) (by decide) h
  have data := allowed_putChannel (o := oPT_DO) (v := v) (hl (by decide)) (by decide) (by decide) ctrl
  have reg := allowed_putChannel (o := oPT_REG) (v := r) (hl (by decide)) (by decide) (by decide) data
  exact allowed_select (by decide) (allowed_putChannel (hl (by decide)) (by decide) (by decide) reg)

/-- The step list of READAUX, alone or as a part of another one. -/
theorem allowed_readAux {r n : Byte} (ha : armsChannel i = true) (h1 : 1#8 ≤ n) (h2 : n ≤ 8#8)
    (hl : [aPT_ADDR, aPT_REG, aPT_CTRL] ⊆ writtenAddrs c i) (h : Allowed i c 3#2 rs rest) :
    Allowed i c b rs (readAuxStages c r n ++ rest) := by
  have ctrl := allowed_putCtrl (hl (by decide)) ha h1 h2 h
  have reg := allowed_putChannel (o := oPT_REG) (v := r) (hl (by decide)) (by decide) (by decide) ctrl
  exact allowed_select (by decide) (allowed_putChannel (hl (by decide)) (by decide) (by decide) reg)

end

/-- Read-modify-write of `PWR` from bank 0: no reset unless the operation is RESET. -/
theorem allowed_pwr {i : Instr} {c : Config} {b : BitVec 2} {f : Byte → Byte} (hl : aPWR ∈ writtenAddrs c i)
    (hf : ∀ x : Byte, x.getLsbD 7 = false → (f x).getLsbD 7 = true → i = .reset) :
    Allowed i c b [] (selStage 0#8 :: rmwStages oPWR 0 f) :=
  allowed_select (b' := 0#2) (by decide) fun bs hbs => allowed_write (by decide)
    ⟨hl, nofun, fun _ _ => hf (byteAt bs 0) (hbs rfl rfl rfl), nofun⟩ fun _ _ => trivial

theorem lpOffset_ne {c : Config} (h : lpOffsetOk c = true) :
    c.lpConfigOffset ≠ oBANKSEL ∧ c.lpConfigOffset ≠ oMSTCTL ∧ c.lpConfigOffset ≠ oPWR := by
  simp only [lpOffsetOk, Bool.and_eq_true, decide_eq_true_eq] at h
  obtain ⟨⟨⟨⟨⟨hlt, -⟩, hm⟩, hp⟩, -⟩, -⟩ := h
  exact ⟨by rintro e; rw [e] at hlt; exact absurd hlt (by decide), hm, hp⟩

/-- The step list of AUXINIT (R173). -/
theorem allowed_auxInit {c : Config} {b : BitVec 2} (h : lpOffsetOk c = true) :
    Allowed .auxInit c b [] (auxInitStages c) := by
  obtain ⟨hsel, hmst, hpwr⟩ := lpOffset_ne h
  have mstctl : ∀ x, WriteAllowed .auxInit c 0#2 oMSTCTL x :=
    fun x => ⟨List.mem_cons_self, fun _ _ => rfl, nofun, nofun⟩
  have lpcfg : WriteAllowed .auxInit c 0#2 c.lpConfigOffset c.lpConfigValue :=
    writeAllowed_plain (by simp [writtenAddrs, regAddr, aLPCFG]) (.inr (.inr ⟨rfl, hmst, hpwr⟩))
  have mctl : regAddr 3#2 oAUXMCTL ∈ writtenAddrs c .auxInit := by simp [writtenAddrs, regAddr, oAUXMCTL, aAUXMCTL]
  have odr : regAddr 3#2 oAUXODR ∈ writtenAddrs c .auxInit := by simp [writtenAddrs, regAddr, oAUXODR, aAUXODR]
  have channel : [aPT_ADDR, aPT_REG, aPT_DO, aPT_CTRL] ⊆ writtenAddrs c .auxInit := by simp [writtenAddrs]
  have read : [aPT_ADDR, aPT_REG, aPT_CTRL] ⊆ writtenAddrs c .auxInit := by simp [writtenAddrs]
  simp only [auxInitStages, auxInitBringUp, List.append_assoc, List.cons_append, List.nil_append]
  refine allowed_select (b' := 0#2) (by decide) <| allowed_rmw (by decide) (by decide) (fun _ => mstctl _) fun _ =>
    ⟨rfl, ?_⟩
  refine allowed_select (b' := 0#2) (by decide) <| allowed_rmw (by decide) (by decide) (fun _ => mstctl _) fun _ => ?_
  refine allowed_select (b' := 3#2) (by decide) <| allowed_putChannel mctl (by decide) (by decide) ?_
  refine allowed_select (b' := 0#2) (by decide) <| allowed_write_same hsel (fun _ => hpwr) lpcfg ?_
  refine allowed_select (b' := 3#2) (by decide) <| allowed_putChannel odr (by decide) (by decide) ?_
  refine allowed_writeAux rfl channel ⟨rfl, allowed_writeAux rfl channel ?_⟩
  simpa using allowed_readAux (rest := []) rfl (by decide) (by decide) read trivial

/-- Every admitted operation but DELAY writes only what it may. -/
theorem allowed_stagesOf {i : Instr} {c : Config} (b : BitVec 2) (hu : usesBus i = true) (ha : admitted c i = true) :
    Allowed i c b [] (stagesOf c i) := by
  have fs : ∀ {j : Instr} {o : Byte} {f : Byte → Byte}, o ≠ oBANKSEL → regAddr 2#2 o ∈ writtenAddrs c j →
      Allowed j c b [] (selStage 2#8 :: rmwStages o 0 f) := fun ho hl =>
    allowed_select (b' := 2#2) (by decide) <|
      allowed_rmw (rest := []) ho nofun (fun _ => writeAllowed_plain hl (.inl rfl)) fun _ => trivial
  cases i
  case delay => cases hu
  case create => cases hu
  case release => cases hu
  case elevation => cases hu
  case azimuth => cases hu
  case reset => exact allowed_pwr (mem_resetAddrs_of_fixed (.inr (.inl rfl))) fun _ _ _ => rfl
  case wake => exact allowed_pwr List.mem_cons_self (by decide)
  case sleep => exact allowed_pwr List.mem_cons_self (by decide)
  case setGyroFs => exact fs (by decide) List.mem_cons_self
  case setAccelFs => exact fs (by decide) List.mem_cons_self
  case setDlpf sensor _ =>
    refine fs ?_ List.mem_cons_self
    unfold dlpfOffset
    split <;> decide
  case enableDlpf en =>
    have acc : aACCELCFG ∈ writtenAddrs c (.enableDlpf en) := List.mem_cons_self
    have gyr : aGYROCFG ∈ writtenAddrs c (.enableDlpf en) := List.mem_cons_of_mem _ List.mem_cons_self
    have second (rs : Reads) : Allowed (.enableDlpf en) c 2#2 rs (rmwStages oGYROCFG 1 (fun v => insEn v en) ++ []) :=
      allowed_rmw (by decide) nofun (fun _ => writeAllowed_plain gyr (.inl rfl)) fun _ => trivial
    have first : Allowed (.enableDlpf en) c 2#2 [] (rmwStages oACCELCFG 0 (fun v => insEn v en) ++
        (rmwStages oGYROCFG 1 (fun v => insEn v en) ++ [])) :=
      allowed_rmw (by decide) nofun (fun _ => writeAllowed_plain acc (.inl rfl)) second
    exact allowed_select (b' := 2#2) (by decide) first
  case writeAux =>
    simpa [stagesOf] using allowed_writeAux (rest := []) rfl (List.Subset.refl _) trivial
  case readAux r n =>
    simp only [admitted, Instr.wf, Bool.and_eq_true, decide_eq_true_eq] at ha
    obtain ⟨⟨h1, h2⟩, -⟩ := ha
    simpa [stagesOf] using allowed_readAux (rest := []) rfl h1 h2 (List.Subset.refl _) trivial
  case auxInit =>
    exact allowed_auxInit (by simpa [admitted, Instr.wf] using ha)
  all_goals simp [stagesOf, Allowed, selStage]

/-- A device write leaves the bank, except a select and a write of `PWR`. -/
theorem bank_devWrite_cases {o v : Byte} {s t : State} (h : devWrite o v s = .ok t) (ho : o ≠ oBANKSEL) :
    t.bank = s.bank ∨ (s.bank = 0#2 ∧ o = oPWR) := by
  rcases devWrite_cases h with ⟨e, -⟩ | ⟨n, -, -, rfl⟩ | ⟨-, -, rfl⟩ | ⟨hb, hp, -⟩ | ⟨-, -, rfl⟩
  · exact absurd e ho
  · exact .inl rfl
  · obtain ⟨armed, window, e⟩ := writeMstctl_eq v s
    exact .inl (e ▸ rfl)
  · exact .inr ⟨hb, hp⟩
  · exact .inl (writePtCtrl_eq v s ▸ rfl)

/-! ### The stages keep what holds during the operation -/

/-- Reading `PWR` returns the byte it holds. -/
theorem devRead_pwr {s t : State} {bs : List Byte} (hb : s.bank = 0#2) (h : devRead oPWR 1 s = .ok (bs, t)) :
    bs = [s.reg aPWR] := by
  have hr : regAt s.cfg s.bank oPWR = some .pwr := hb ▸ regAt_pwr s.cfg
  rw [devRead_stored hr nofun nofun nofun, hb] at h
  cases h
  rfl

theorem ReadRel.dev {s t : State} (h : ReadRel s t) : t.dev = s.dev := by
  obtain ⟨e, rfl, -⟩ := h
  rfl

theorem during_read (i : Instr) {s t : State} (h : DevInv s) (r : ReadRel s t) : During i s t := by
  obtain ⟨e, rfl, -⟩ := r
  exact .of_eq h rfl rfl rfl rfl rfl rfl rfl rfl

/-- A stage of an allowed step list keeps what holds during the operation, and leaves an allowed step list. -/
theorem during_stageStep {i : Instr} {st : Stage} {rest : List Stage} {rs rs1 : Reads} {s t : State} (h : DevInv s)
    (ha : Allowed i s.cfg s.bank rs (st :: rest)) (hs : stageStep st rs s = .ok rs1 t) :
    During i s t ∧ Allowed i s.cfg t.bank rs1 rest := by
  have taken : During i s s.afterTxn := .of_eq h rfl rfl rfl rfl rfl rfl rfl rfl
  have record : ∀ {u x}, DevInv u → During i u (u.record x) := fun h => .of_eq h rfl rfl rfl rfl rfl rfl rfl rfl
  cases st with
  | write o v =>
    obtain ⟨rfl, u, x, hd, rfl⟩ := stageStep_write_inv hs
    by_cases ho : o = oBANKSEL
    · subst ho
      rw [devWrite_select] at hd
      cases hd
      rw [Allowed, if_pos rfl] at ha
      exact ⟨.of_eq h rfl rfl rfl rfl rfl rfl rfl rfl, ha⟩
    · rw [Allowed, if_neg ho] at ha
      obtain ⟨hw, hrest⟩ := ha
      have written := during_devWrite (s := s.afterTxn) taken.inv ho hw hd
      have hbank := bank_devWrite_cases (s := s.afterTxn) hd ho
      exact ⟨(taken.trans written).trans (record written.inv), hrest u.bank hbank⟩
  | read o n =>
    obtain ⟨bs, u, x, hd, rfl, rfl⟩ := stageStep_read_inv hs
    have rel := (readRel_devRead hd).1
    have read := during_read i taken.inv rel
    refine ⟨(taken.trans read).trans (record read.inv), ?_⟩
    have hbank : (u.record x).bank = s.bank := by simp [State.bank, rel.dev]
    rw [hbank]
    refine ha bs ?_
    rintro hb rfl rfl
    rw [devRead_pwr (s := s.afterTxn) hb hd]
    exact h.devRst
  | delay ms =>
    obtain ⟨rfl, hd⟩ := stageStep_delay_inv hs
    obtain ⟨rfl, hrest⟩ := ha
    obtain ⟨hi, hf⟩ := opFrame_delay (.inl rfl) h hd
    obtain ⟨u, r, -, rfl⟩ := delayStep_inv hd
    have hbank : (closeWindows ms u).bank = s.bank := congrArg (BitVec.extractLsb' 4 2) r.banksel
    exact ⟨⟨hi, hf, fun e => absurd rfl e⟩, hbank ▸ hrest⟩

/-- An allowed step list keeps what holds during the operation, whether it is done or raises. -/
theorem during_runStages {i : Instr} {stages : List Stage} {s : State} (h : DevInv s)
    (ha : Allowed i s.cfg s.bank [] stages) :
    (∀ t rs, runStages i stages 1 false [] s = .done t rs → During i s t) ∧
    (∀ t, runStages i stages 1 false [] s = .raised t →
      ∃ d j e u, During i s u ∧ t = raise (busFail d) j (some e) u) := by
  have ticked : ∀ {u v : State} {a}, During i s u → tickPoint (u.setActivity a) = .ok v →
      During i s v ∧ v.bank = u.bank := fun hu hv =>
    ⟨hu.trans (during_tickPoint hu.inv hv), congrArg (BitVec.extractLsb' 4 2) (engineRel_tickPoint hv).banksel⟩
  have run := runStages_induction (op := i) (J := fun l rs u => During i s u ∧ Allowed i s.cfg u.bank rs l) ?_
    stages 1 false [] s ⟨during_refl i h, ha⟩
  · obtain ⟨done, raised⟩ := run
    refine ⟨fun t rs ht => (done t rs ht).1, fun t ht => ?_⟩
    obtain ⟨st, rest, rs, u, v, e, w, d, j, ⟨hu, -⟩, hv, hs, rfl⟩ := raised t ht
    obtain ⟨x, rfl⟩ := stageStep_failed_inv hs
    obtain ⟨hv, -⟩ := ticked hu hv
    exact ⟨d, j, e, v.afterTxn.record x, hv.trans (.of_eq hv.inv rfl rfl rfl rfl rfl rfl rfl rfl), rfl⟩
  · rintro st rest rs u k v rs1 w ⟨hu, hall⟩ hv hs
    obtain ⟨hv, hb⟩ := ticked hu hv
    rw [← hb, ← hv.frame.cfg] at hall
    obtain ⟨hw, hrest⟩ := during_stageStep hv.inv hall hs
    exact ⟨hv.trans hw, hv.frame.cfg ▸ hrest⟩

/-- The step list of DELAY is ticks before the delay and the delay; it does not raise. -/
theorem runStages_delay {i : Instr} {ms : Nat} {s : State} :
    (∀ t rs, runStages i [.delay ms] 1 false [] s = .done t rs →
      ∃ u, tickPoint (s.setActivity (.busy i 1)) = .ok u ∧ delayStep ms u = .ok t) ∧
    ∀ t, runStages i [.delay ms] 1 false [] s ≠ .raised t := by
  cases ht : tickPoint (s.setActivity (.busy i 1)) with
  | error r => rw [runStages_cons_refused_tick ht]; exact ⟨by simp, by simp⟩
  | ok u =>
    cases hd : delayStep ms u with
    | error r =>
      have hs : stageStep (.delay ms) [] u = .refused r := by rw [stageStep, hd]
      rw [runStages_cons_refused ht hs]
      exact ⟨by simp, by simp⟩
    | ok v =>
      have hs : stageStep (.delay ms) [] u = .ok [] v := by rw [stageStep, hd]
      rw [runStages_cons_ok ht hs, runStages_nil]
      refine ⟨fun t rs e => ?_, by simp⟩
      cases e
      exact ⟨u, rfl, hd⟩

/-! ### Every operation meets its frame -/

theorem devInv_finishOf {s : State} (h : DevInv s) (i : Instr) (rs : Reads) : DevInv (finishOf i rs s) := by
  cases i
  case getDeviceId =>
    simp only [finishOf, finDeviceId]
    split <;> exact h.of_eq rfl rfl rfl
  all_goals exact h.of_eq rfl rfl rfl

/-- The end of an operation writes nothing the frame speaks of. -/
theorem opFrame_finishOf (i : Instr) (rs : Reads) {s t : State} (h : OpFrame i s t) : OpFrame i s (finishOf i rs t) := by
  cases i
  case getDeviceId =>
    simp only [finishOf, finDeviceId]
    split <;> exact { h with }
  all_goals exact { h with }

/-- What an operation leaves of the device, whatever its outcome. -/
theorem frame_exec {i : Instr} {s t : State} (h : DevInv s) (he : exec i s = .next t) : DevInv t ∧ OpFrame i s t := by
  have same : ∀ {u : State}, u.cfg = s.cfg → u.dev = s.dev → u.mag = s.mag → u.hist = s.hist →
      DevInv u ∧ OpFrame i s u := fun hc hd hm hh =>
    ⟨h.of_eq hc (by rw [hd]) hm, .of_eq hc (by rw [hd]) (by rw [hd]) (by rw [hd]) (by rw [hd]) (by rw [hd]) hm hh⟩
  refine exec_next_cases (R := fun u => DevInv u ∧ OpFrame i s u) he ?rejected ?create ?release ?elevation ?azimuth ?run
  case rejected => exact same rfl rfl rfl rfl
  case create => exact fun _ _ _ _ _ => same rfl rfl rfl rfl
  case release => exact fun _ _ => same rfl rfl rfl rfl
  case elevation => exact fun _ _ => same rfl rfl rfl rfl
  case azimuth => exact fun _ _ => same rfl rfl rfl rfl
  case run =>
    rintro (⟨hu, ha, -⟩ | ⟨ms, rfl⟩)
    · obtain ⟨done, raised⟩ := during_runStages h (allowed_stagesOf s.bank hu ha)
      refine ⟨fun u rs hr => ?_, fun u hr => ?_⟩
      · exact ⟨devInv_finishOf (done u rs hr).inv i rs, opFrame_finishOf i rs (done u rs hr).frame⟩
      · obtain ⟨d, j, e, v, hv, rfl⟩ := raised u hr
        exact ⟨hv.inv.of_eq rfl rfl rfl, { hv.frame with }⟩
    · obtain ⟨done, raised⟩ := runStages_delay (i := .delay ms) (ms := ms.toNat) (s := s)
      refine ⟨fun u rs hr => ?_, fun u hr => absurd hr (raised u)⟩
      obtain ⟨v, hv, hd⟩ := done u rs hr
      have ticked : During (.delay ms) s v := during_tickPoint h hv
      obtain ⟨hi, hf⟩ := opFrame_delay (.inr ⟨ms, rfl⟩) ticked.inv hd
      exact ⟨hi.of_eq rfl rfl rfl, opFrame_finishOf (.delay ms) rs (ticked.frame.trans ticked.off hf)⟩

end Sys2Proof.Machine
end

section
/-! PROOF. The sequencer's part of the invariant: where a step list raises, what an operation leaves in HANDLE, DRVSTATE
and STATUS, and with the device's part that every step keeps the invariant; then the frames as the statements say them. -/

namespace Sys2Proof.Machine

/-! ### Where a step list raises -/

/-- A step list raises at one of its stages, and the error is partial exactly when an earlier step was a successful
write to an offset other than 0x7F (60_exceptions.md R233). -/
theorem runStages_raised {op : Instr} : ∀ {stages : List Stage} {k : Nat} {d : Bool} {rs : Reads} {s t : State},
    runStages op stages k d rs s = .raised t → ∃ j e u, j < stages.length ∧
      t = raise (busFail (d || (stages.take j).any isConfigWrite)) (k + j) (some e) u
  | [], k, d, rs, s, t, h => by simp at h
  | st :: rest, k, d, rs, s, t, h => by
    cases ht : tickPoint (s.setActivity (.busy op k)) with
    | error r => simp [runStages_cons_refused_tick ht] at h
    | ok s1 =>
      cases hs : stageStep st rs s1 with
      | refused r => simp [runStages_cons_refused ht hs] at h
      | failed e u =>
        rw [runStages_cons_failed ht hs] at h
        cases h
        exact ⟨0, e, u, by simp, by simp⟩
      | ok rs1 s2 =>
        rw [runStages_cons_ok ht hs] at h
        obtain ⟨j, e, u, hj, rfl⟩ := runStages_raised h
        refine ⟨j + 1, e, u, by simpa using hj, ?_⟩
        rw [List.take_succ_cons, List.any_cons, Bool.or_assoc, Nat.add_assoc, Nat.add_comm 1 j]

/-- The step list of every bus operation starts with a select write (40_bank_selector.md R131). -/
theorem stagesOf_eq_select {i : Instr} (c : Config) (hu : usesBus i = true) :
    ∃ bank rest, stagesOf c i = selStage bank :: rest := by
  cases i
  case delay => cases hu
  case create => cases hu
  case release => cases hu
  case elevation => cases hu
  case azimuth => cases hu
  all_goals exact ⟨_, _, rfl⟩

/-- The longest step list is AUXINIT's. -/
theorem length_stagesOf_le (c : Config) (i : Instr) : (stagesOf c i).length ≤ 28 := by
  cases i <;> simp [stagesOf, rmwStages, writeAuxStages, readAuxStages, auxInitStages, auxInitBringUp]

/-- A transaction error at stage 1 to 28, partial only from stage 3 on, is in the table of R231. -/
theorem legal_busFail {d : Bool} {k : Nat} {e : TErr} (h1 : 1 ≤ k) (h28 : k ≤ 28) (hd : d = true → 3 ≤ k) :
    (Status.err (busFail d) k (some e)).legal = true := by
  have stage : (BitVec.ofNat 8 k).toNat = k := by rw [BitVec.toNat_ofNat]; omega
  cases d
  · simp [Status.legal, Status.err, busFail, errCode, BitVec.le_def, stage, h1, h28]
  · simp [Status.legal, Status.err, busFail, errCode, BitVec.le_def, stage, hd, h28]

/-- What a step list raises is in the table of R231: its first stage is a select write, so a partial error is raised
at stage 3 at the earliest. -/
theorem legal_of_raised {i : Instr} {c : Config} {s t : State} (hu : usesBus i = true)
    (h : runStages i (stagesOf c i) 1 false [] s = .raised t) : t.status.legal = true := by
  obtain ⟨j, e, u, hj, rfl⟩ := runStages_raised h
  have hlen := length_stagesOf_le c i
  obtain ⟨bank, rest, hst⟩ := stagesOf_eq_select c hu
  refine legal_busFail (by omega) (by omega) fun hd => ?_
  rw [hst] at hd
  match j, hd with
  | 0, hd => simp at hd
  | 1, hd => simp [selStage, isConfigWrite] at hd
  | j + 2, _ => omega

/-! ### The end of an operation -/

/-- The end of an operation leaves the sequencer's side. -/
theorem sameSequencer_finishOf (i : Instr) (rs : Reads) (s : State) : SameSequencer s (finishOf i rs s) := by
  cases i
  case getDeviceId =>
    simp only [finishOf, finDeviceId]
    split <;> exact ⟨rfl, rfl, rfl, rfl⟩
  all_goals exact ⟨rfl, rfl, rfl, rfl⟩

/-- The end of an operation writes only the operation's result registers. -/
theorem resKept_finishOf (i : Instr) (rs : Reads) (s : State) : resKept i s.res (finishOf i rs s).res := by
  cases i
  case getDeviceId =>
    simp only [finishOf, finDeviceId]
    split <;> rfl
  all_goals rfl

theorem resKept_refl (i : Instr) (r : Results) : resKept i r r := by cases i <;> rfl

/-- The end of a step list writes a status of the table and leaves the block idle. -/
theorem idle_finishOf {i : Instr} {s : State} (hr : Runs i s) (rs : Reads) (t : State) :
    (finishOf i rs t).activity = .idle ∧ (finishOf i rs t).status.legal = true := by
  have hu : usesBus i = true ∨ ∃ ms, i = .delay ms := hr.imp (fun ⟨hu, _, _⟩ => hu) id
  cases i
  case create => simp [usesBus] at hu
  case release => simp [usesBus] at hu
  case elevation => simp [usesBus] at hu
  case azimuth => simp [usesBus] at hu
  case getDeviceId =>
    simp only [finishOf, finDeviceId]
    split
    · exact ⟨rfl, rfl⟩
    · exact ⟨rfl, rfl⟩
  all_goals exact ⟨rfl, rfl⟩

theorem drvAdvance_ne_noHandle {froms : List (Fin 5)} {dest : Fin 5} {d : DrvState} (h : d ≠ .noHandle) :
    drvAdvance froms dest d ≠ .noHandle := by
  cases d <;> simp only [drvAdvance]
  case reset => split <;> nofun
  all_goals exact h

theorem drvConfigured_ne_noHandle {d : DrvState} (h : d ≠ .noHandle) : drvConfigured d ≠ .noHandle := by
  cases d <;> simp only [drvConfigured]
  case reset => split <;> nofun
  all_goals exact h

/-- An operation with a step list does not move DRVSTATE to NoHandle. -/
theorem drv_finishOf_ne_noHandle {i : Instr} {s : State} (rs : Reads) (h : s.drv ≠ .noHandle) :
    (finishOf i rs s).drv ≠ .noHandle := by
  cases i
  case reset => nofun
  case wake => exact drvAdvance_ne_noHandle h
  case setGyroFs => exact drvAdvance_ne_noHandle h
  case setAccelFs => exact drvAdvance_ne_noHandle h
  case auxInit => exact drvConfigured_ne_noHandle h
  case getDeviceId =>
    simp only [finishOf, finDeviceId]
    split
    · exact drvAdvance_ne_noHandle h
    · exact h
  all_goals exact h

/-! ### The sequencer's part of the invariant -/

/-- What `State.Inv` says of the sequencer. -/
structure SeqInv (s : State) : Prop where
  idle : s.activity = .idle
  addr8 : s.handle.addr8.getLsbD 0 = false
  drv : s.drv = .noHandle ↔ s.handle.valid = false
  status : s.status.legal = true

theorem State.Inv.seqInv {s : State} (h : s.Inv) : SeqInv s := ⟨h.idle, h.addr8, h.drv, h.status⟩

/-- The invariant is what it says of the device and what it says of the sequencer. -/
theorem inv_of_parts {s : State} (h : DevInv s) (k : SeqInv s) : s.Inv :=
  ⟨k.idle, h.regsWf, h.described, h.magWf, h.devRst, h.mstRst, h.channel, k.addr8, k.drv, k.status⟩

/-- The invariant speaks of neither the pending host actions nor the fusion registers. -/
theorem State.Inv.of_eq {s t : State} (h : s.Inv) (hc : t.cfg = s.cfg) (ha : t.activity = s.activity)
    (hh : t.handle = s.handle) (hd : t.drv = s.drv) (hs : t.status = s.status) (hv : t.dev = s.dev)
    (hm : t.mag = s.mag) : t.Inv :=
  inv_of_parts (h.devInv.of_eq hc (by rw [hv]) hm)
    ⟨ha ▸ h.idle, by rw [hh]; exact h.addr8, by rw [hd, hh]; exact h.drv, hs ▸ h.status⟩

theorem State.Inv.engine {s t : State} (h : s.Inv) (r : EngineRel s t) : t.Inv :=
  inv_of_parts (h.devInv.engine r) ⟨r.activity.trans h.idle, by rw [r.handle]; exact h.addr8,
    by rw [r.drv, r.handle]; exact h.drv, by rw [r.status]; exact h.status⟩

theorem getLsbD_zero_handleAddr8 (a : Byte) : (handleAddr8 a).getLsbD 0 = false := by revert a; decide

/-- Every operation keeps the sequencer's part of the invariant, whatever its outcome. -/
theorem seqInv_exec {i : Instr} {s t : State} (h : SeqInv s) (he : exec i s = .next t) : SeqInv t := by
  have drvNe : s.handle.valid = true → s.drv ≠ .noHandle := fun hv e => by simp [h.drv.mp e] at hv
  refine exec_next_cases (R := SeqInv) he ?rejected ?create ?release ?elevation ?azimuth ?run
  case rejected => exact ⟨rfl, h.addr8, h.drv, rfl⟩
  case create => exact fun bus a _ _ _ => ⟨rfl, getLsbD_zero_handleAddr8 a, by simp, rfl⟩
  case release => exact fun _ _ => ⟨rfl, h.addr8, by simp, rfl⟩
  case elevation => exact fun _ _ => ⟨rfl, h.addr8, h.drv, rfl⟩
  case azimuth => exact fun _ _ => ⟨rfl, h.addr8, h.drv, rfl⟩
  case run =>
    intro hr
    refine ⟨fun u rs hu => ?_, fun u hu => ?_⟩
    · have kept := SeqKept.run.1 u rs hu
      obtain ⟨idle, legal⟩ := idle_finishOf hr rs u
      have handle : (finishOf i rs u).handle = s.handle := (sameSequencer_finishOf i rs u).handle.trans kept.handle
      refine ⟨idle, by rw [handle]; exact h.addr8, ?_, legal⟩
      rcases hr with ⟨-, -, hv⟩ | ⟨ms, rfl⟩
      · have ne := drv_finishOf_ne_noHandle (i := i) rs (kept.drv ▸ drvNe hv)
        simp [handle, hv, ne]
      · rw [handle, ← h.drv, ← kept.drv]
        exact Iff.rfl
    · rcases hr with ⟨hb, -, -⟩ | ⟨ms, rfl⟩
      · have legal := legal_of_raised hb hu
        obtain ⟨d, j, e, v, kept, rfl⟩ := SeqKept.run.2 u hu
        exact ⟨rfl, by rw [raise_handle, kept.handle]; exact h.addr8,
          by rw [raise_handle, raise_drv, kept.handle, kept.drv]; exact h.drv, legal⟩
      · exact absurd hu (runStages_delay.2 u)

/-! ### Every step keeps the invariant -/

theorem inv_exec {i : Instr} {s t : State} (h : s.Inv) (he : exec i s = .next t) : t.Inv :=
  inv_of_parts (frame_exec h.devInv he).1 (seqInv_exec h.seqInv he)

theorem inv_execAction {a : HostAction} {s t : State} (h : s.Inv) (he : execAction a s = .next t) : t.Inv := by
  cases a with
  | writeFA v => cases he; exact h.of_eq rfl rfl rfl rfl rfl rfl rfl
  | writeFH v => cases he; exact h.of_eq rfl rfl rfl rfl rfl rfl rfl
  | command w =>
    simp only [execAction, execWord] at he
    split at he
    · exact inv_exec h he
    · cases he
      exact inv_of_parts (h.devInv.of_eq rfl rfl rfl) ⟨rfl, h.addr8, h.drv, rfl⟩

/-- Settles O9: the host's action keeps the invariant, by the device's part at every stage and the sequencer's part at
the end, and the ticks after it keep it. -/
theorem everyStepKeepsTheInvariant : Obligations.EveryStepKeepsTheInvariant := by
  intro s t h hstep
  obtain ⟨-, u, ht, ⟨-, rfl⟩ | ⟨a, rest, -, hu⟩⟩ := step_next hstep
  · exact h.engine (engineRel_tickPoint ht)
  · have taken : (s.setHost rest).Inv := h.of_eq rfl rfl rfl rfl rfl rfl rfl
    exact (inv_execAction taken hu).engine (engineRel_tickPoint ht)

/-! ### The frames -/

/-- Settles O17: the part of an operation's frame that speaks of register memory. -/
theorem registerMemoryFrame : Obligations.RegisterMemoryFrame := fun _ _ _ h he =>
  (frame_exec h.devInv he).2.regs

theorem armsChannel_eq_false {i : Instr} (h1 : i ≠ .auxInit) (h2 : ∀ r v, i ≠ .writeAux r v)
    (h3 : ∀ r n, i ≠ .readAux r n) : armsChannel i = false := by
  cases i
  case auxInit => exact absurd rfl h1
  case writeAux r v => exact absurd rfl (h2 r v)
  case readAux r n => exact absurd rfl (h3 r n)
  all_goals rfl

/-- An operation that does not use the bus leaves BANKSEL, the trace and the transport (40_bank_selector.md R130). -/
theorem noBus_exec {i : Instr} {s t : State} (hu : usesBus i = false) (he : exec i s = .next t) :
    t.dev.banksel = s.dev.banksel ∧ t.trace = s.trace ∧ t.env.txn = s.env.txn := by
  refine exec_next_cases (R := fun u => u.dev.banksel = s.dev.banksel ∧ u.trace = s.trace ∧ u.env.txn = s.env.txn) he
    ?rejected ?create ?release ?elevation ?azimuth ?run
  case rejected => exact ⟨rfl, rfl, rfl⟩
  case create => exact fun _ _ _ _ _ => ⟨rfl, rfl, rfl⟩
  case release => exact fun _ _ => ⟨rfl, rfl, rfl⟩
  case elevation => exact fun _ _ => ⟨rfl, rfl, rfl⟩
  case azimuth => exact fun _ _ => ⟨rfl, rfl, rfl⟩
  case run =>
    rintro (⟨hb, -⟩ | ⟨ms, rfl⟩)
    · simp [hu] at hb
    · refine ⟨fun u rs hr => ?_, fun u hr => absurd hr (runStages_delay.2 u)⟩
      obtain ⟨v, hv, hd⟩ := runStages_delay.1 u rs hr
      obtain ⟨w, r, -, rfl⟩ := delayStep_inv hd
      have rel := (engineRel_tickPoint hv).trans r
      exact ⟨rel.banksel, rel.trace, rel.txn⟩

/-- Settles O18: the parts of an operation's frame that speak of the hidden state; with the engine off no transfer can
disarm the channel. -/
theorem hiddenStateFrame : Obligations.HiddenStateFrame := by
  intro i s t h he
  have f := (frame_exec h.devInv he).2
  have arm : i ≠ .auxInit → (∀ r v, i ≠ .writeAux r v) → (∀ r n, i ≠ .readAux r n) → t.dev.auxArmed = true →
      s.dev.auxArmed = true := fun h1 h2 h3 => f.arm (armsChannel_eq_false h1 h2 h3)
  refine ⟨f.devWindow, f.mstWindow, arm, f.disarm, ?_, f.windows, fun hu => noBus_exec hu he, f.quiet⟩
  intro off h1 h2 h3 h4
  cases hs : s.dev.auxArmed with
  | false => exact Bool.eq_false_iff.mpr fun ht => by simp [arm h2 h3 h4 ht] at hs
  | true =>
    refine Bool.not_eq_false _ |>.mp fun ht => ?_
    have grown := f.disarm h1 h2 hs ht
    rw [(f.quiet off h2).1] at grown
    exact Nat.lt_irrefl _ grown

end Sys2Proof.Machine
end

section
/-! PROOF. Who writes the sequencer's registers and the result registers. -/

namespace Sys2Proof.Machine

/-- What operation `i` leaves of the sequencer's registers. -/
def SequencerFrame (i : Instr) (s t : State) : Prop :=
  t.cfg = s.cfg ∧ t.host = s.host ∧ t.fus.fa = s.fus.fa ∧ t.fus.fh = s.fus.fh ∧
    (i ≠ .elevation → t.fus.elev = s.fus.elev) ∧ (i ≠ .azimuth → t.fus.azim = s.fus.azim) ∧
    (i ≠ .release → (∀ bus a, i ≠ .create bus a) → t.handle = s.handle)

theorem SameSequencer.frame {s t : State} (h : SameSequencer s t) (i : Instr) : SequencerFrame i s t := by
  obtain ⟨hcfg, hhost, hhandle, hfus⟩ := h
  unfold SequencerFrame
  rw [hfus]
  exact ⟨hcfg, hhost, rfl, rfl, fun _ => rfl, fun _ => rfl, fun _ _ => hhandle⟩

/-- Settles O15: a step list and its end leave the sequencer's side; the four other operations write their own part. -/
theorem sequencerRegisterWriters : Obligations.SequencerRegisterWriters := by
  intro i s t he
  refine exec_next_cases (R := SequencerFrame i s) he ?rejected ?create ?release ?elevation ?azimuth ?run
  case rejected => exact SameSequencer.frame ⟨rfl, rfl, rfl, rfl⟩ i
  case create =>
    exact fun bus a hi _ _ => ⟨rfl, rfl, rfl, rfl, fun _ => rfl, fun _ => rfl, fun _ hn => absurd hi (hn bus a)⟩
  case release => exact fun hi _ => ⟨rfl, rfl, rfl, rfl, fun _ => rfl, fun _ => rfl, fun hn => absurd hi hn⟩
  case elevation => exact fun _ hi => ⟨rfl, rfl, rfl, rfl, fun hn => absurd hi hn, fun _ => rfl, fun _ _ => rfl⟩
  case azimuth => exact fun _ hi => ⟨rfl, rfl, rfl, rfl, fun _ => rfl, fun hn => absurd hi hn, fun _ _ => rfl⟩
  case run =>
    refine fun _ => ⟨fun u rs hu => ?_, fun u hu => ?_⟩
    · have kept := SeqKept.run.1 u rs hu
      obtain ⟨hcfg, hhost, hhandle, hfus⟩ := sameSequencer_finishOf i rs u
      exact SameSequencer.frame ⟨hcfg.trans kept.cfg, hhost.trans kept.host, hhandle.trans kept.handle,
        hfus.trans kept.fus⟩ i
    · obtain ⟨d, j, e, v, kept, rfl⟩ := SeqKept.run.2 u hu
      exact SameSequencer.frame ⟨kept.cfg, kept.host, kept.handle, kept.fus⟩ i

/-- Settles O16: only the end of a done step list writes result registers, each operation its own. -/
theorem resultRegisterWriters : Obligations.ResultRegisterWriters := by
  intro i s t he
  have same : ∀ {u : State}, u.res = s.res → resKept i s.res u.res := fun h => h ▸ resKept_refl i s.res
  refine exec_next_cases (R := fun u => resKept i s.res u.res) he ?rejected ?create ?release ?elevation ?azimuth ?run
  case rejected => exact same rfl
  case create => exact fun _ _ _ _ _ => same rfl
  case release => exact fun _ _ => same rfl
  case elevation => exact fun _ _ => same rfl
  case azimuth => exact fun _ _ => same rfl
  case run =>
    refine fun _ => ⟨fun u rs hu => ?_, fun u hu => ?_⟩
    · exact (SeqKept.run.1 u rs hu).res ▸ resKept_finishOf i rs u
    · obtain ⟨d, j, e, v, kept, rfl⟩ := SeqKept.run.2 u hu
      exact same kept.res

end Sys2Proof.Machine
end

section
/-! PROOF. What the engine, the device and the transactions do not read: an update of the state that they do not see
passes through them unchanged. From it, that no operation reads STATUS, and that none depends on the bank selected when
it starts. -/

namespace Sys2Proof.Machine

/-! ### Updates that the engine and the bus do not see -/

/-- The update `f` changes `BANKSEL` by `β`, and otherwise only parts of the state that the engine neither reads nor
writes; with `β = id` the transactions neither read nor write what it changes. -/
structure Unseen (β : Byte → Byte) (f : State → State) : Prop where
  cfg : ∀ s, (f s).cfg = s.cfg
  handle : ∀ s, (f s).handle = s.handle
  dev : ∀ s, (f s).dev = { s.dev with banksel := β s.dev.banksel }
  mag : ∀ s, (f s).mag = s.mag
  env : ∀ s, (f s).env = s.env
  trace : ∀ s, (f s).trace = s.trace
  hist : ∀ s, (f s).hist = s.hist
  setActivity : ∀ s a, f (s.setActivity a) = (f s).setActivity a
  setDev : ∀ s d, f (s.setDev d) = (f s).setDev { d with banksel := β d.banksel }
  setMag : ∀ s m, f (s.setMag m) = (f s).setMag m
  setEnv : ∀ s e, f (s.setEnv e) = (f s).setEnv e
  setTrace : ∀ s l, f (s.setTrace l) = (f s).setTrace l
  setHist : ∀ s l, f (s.setHist l) = (f s).setHist l

/-- Writing STATUS is seen by neither. -/
theorem unseen_setStatus (x : Status) : Unseen id (·.setStatus x) where
  cfg _ := rfl
  handle _ := rfl
  dev _ := rfl
  mag _ := rfl
  env _ := rfl
  trace _ := rfl
  hist _ := rfl
  setActivity _ _ := rfl
  setDev _ _ := rfl
  setMag _ _ := rfl
  setEnv _ _ := rfl
  setTrace _ _ := rfl
  setHist _ _ := rfl

/-- The state with another byte in `BANKSEL`. -/
def State.setBanksel (b : Byte) (s : State) : State := s.setDev { s.dev with banksel := b }

/-- Writing `BANKSEL` is not seen by the engine. -/
theorem unseen_setBanksel (b : Byte) : Unseen (fun _ => b) (State.setBanksel b) where
  cfg _ := rfl
  handle _ := rfl
  dev _ := rfl
  mag _ := rfl
  env _ := rfl
  trace _ := rfl
  hist _ := rfl
  setActivity _ _ := rfl
  setDev _ _ := rfl
  setMag _ _ := rfl
  setEnv _ _ := rfl
  setTrace _ _ := rfl
  setHist _ _ := rfl

/-! ### The engine -/

namespace Unseen

section
variable {β : Byte → Byte} {f : State → State} (hf : Unseen β f)
include hf

theorem reg (s : State) (a : Nat) : (f s).reg a = s.reg a := by rw [State.reg, hf.dev]; rfl

theorem tickEnabled (s : State) : (f s).tickEnabled = s.tickEnabled := by
  simp only [State.tickEnabled, State.mstEn, hf.reg, hf.dev]

theorem auxRead (a7 : BitVec 7) (r : Byte) (n : Nat) (s : State) :
    auxRead a7 r n (f s) = ((auxRead a7 r n s).1, f (auxRead a7 r n s).2) := by
  unfold Sys2Proof.Machine.auxRead
  rw [hf.mag, hf.env, hf.cfg]
  cases s.mag with
  | oracle => simp only [hf.setEnv]
  | double t => dsimp only; split <;> [split; skip] <;> simp only [hf.setEnv]

theorem readTransfer (a7 : BitVec 7) (r : Byte) (n : Nat) (s : State) :
    readTransfer a7 r n (f s) = f (readTransfer a7 r n s) := by
  simp only [Sys2Proof.Machine.readTransfer, hf.auxRead, hf.setHist, hf.setDev, hf.dev, hf.hist]

theorem writeDue (s : State) : (f s).writeDue = s.writeDue := by simp only [State.writeDue, hf.dev, hf.cfg]

theorem writeTransfer (a7 : BitVec 7) (r : Byte) (s : State) :
    writeTransfer a7 r (f s) = f (writeTransfer a7 r s) := by
  simp only [Sys2Proof.Machine.writeTransfer, hf.writeDue]
  split
  · simp only [hf.setHist, hf.setDev, hf.setMag, hf.dev, hf.hist, hf.mag, hf.cfg, hf.reg]
  · rfl

theorem countTick (s : State) : countTick (f s) = f (countTick s) := by
  simp only [Sys2Proof.Machine.countTick, hf.setDev, hf.dev]

theorem refusedConfig (s : State) : (f s).refusedConfig = s.refusedConfig := by
  simp only [State.refusedConfig, State.ptRd, State.ptLen, hf.reg, hf.writeDue]
  rfl

theorem tick (s : State) : tick (f s) = (tick s).map f := by
  have en : (f s).ptEn = s.ptEn := by rw [State.ptEn, hf.reg]; rfl
  have rd : (f s).ptRd = s.ptRd := by rw [State.ptRd, hf.reg]; rfl
  have a7 : (f s).ptA7 = s.ptA7 := by rw [State.ptA7, hf.reg]; rfl
  have len : (f s).ptLen = s.ptLen := by rw [State.ptLen, hf.reg]; rfl
  unfold Sys2Proof.Machine.tick
  rw [en, rd, a7, len, hf.refusedConfig, hf.reg, hf.countTick, hf.readTransfer, hf.writeTransfer]
  cases s.ptEn with
  | false => rfl
  | true =>
    cases s.refusedConfig with
    | true => rfl
    | false => cases s.ptRd <;> rfl

theorem ticks : ∀ (n : Nat) (s : State), ticks n (f s) = (ticks n s).map f
  | 0, _ => rfl
  | n + 1, s => by
    simp only [Sys2Proof.Machine.ticks, hf.tick]
    cases Sys2Proof.Machine.tick s with
    | error r => rfl
    | ok t => exact ticks n t

theorem afterSchedule (s : State) : (f s).afterSchedule = f s.afterSchedule := by
  simp only [State.afterSchedule, hf.setEnv, hf.env]

theorem tickPoint (s : State) : tickPoint (f s) = (tickPoint s).map f := by
  simp only [Sys2Proof.Machine.tickPoint, hf.tickEnabled, State.scheduled, hf.env, hf.afterSchedule, hf.ticks]
  split <;> rfl

theorem closeWindows (ms : Nat) (s : State) : closeWindows ms (f s) = f (closeWindows ms s) := by
  simp only [Sys2Proof.Machine.closeWindows, hf.setDev, hf.dev, hf.cfg]

theorem delayStep (ms : Nat) (s : State) : delayStep ms (f s) = (delayStep ms s).map f := by
  have least : (f s).delayTicks ms = s.delayTicks ms := by
    rw [State.delayTicks, State.asleep, hf.reg, hf.cfg]; rfl
  have scheduled : (f s).scheduled = s.scheduled := by rw [State.scheduled, hf.env]; rfl
  unfold Sys2Proof.Machine.delayStep
  rw [hf.tickEnabled, least, scheduled, hf.afterSchedule, hf.ticks, hf.closeWindows]
  cases s.tickEnabled with
  | false => rfl
  | true =>
    cases Sys2Proof.Machine.ticks (s.delayTicks ms + s.scheduled) s.afterSchedule with
    | error r => rfl
    | ok t => exact congrArg Except.ok (hf.closeWindows ms t)

theorem afterTxn (s : State) : (f s).afterTxn = f s.afterTxn := by
  simp only [State.afterTxn, hf.setEnv, hf.env]

theorem record (s : State) (t : Txn) : (f s).record t = f (s.record t) := by
  simp only [State.record, hf.setTrace, hf.trace]

theorem txnAnswer (s : State) : (f s).txnAnswer = s.txnAnswer := by simp only [State.txnAnswer, hf.env]

theorem txnFails (s : State) : (f s).txnFails = s.txnFails := by
  simp only [State.txnFails, State.addressed, hf.txnAnswer, hf.handle, hf.cfg]

end

/-! ### The device and the transactions -/

section
variable {f : State → State} (hf : Unseen id f)
include hf

theorem dev_id (s : State) : (f s).dev = s.dev := hf.dev s

theorem setDev_id (s : State) (d : Dev) : f (s.setDev d) = (f s).setDev d := hf.setDev s d

theorem bank (s : State) : (f s).bank = s.bank := by rw [State.bank, hf.dev_id]; rfl

theorem storeReg (b : BitVec 2) (o v : Byte) (s : State) : storeReg b o v (f s) = f (storeReg b o v s) := by
  simp only [Sys2Proof.Machine.storeReg, hf.setDev_id, hf.dev_id]

theorem writeMstctl (v : Byte) (s : State) : writeMstctl v (f s) = f (writeMstctl v s) := by
  simp only [Sys2Proof.Machine.writeMstctl, hf.storeReg]
  split
  · simp only [hf.setDev_id, hf.dev_id]
  · rfl

theorem writePtCtrl (v : Byte) (s : State) : writePtCtrl v (f s) = f (writePtCtrl v s) := by
  simp only [Sys2Proof.Machine.writePtCtrl, hf.storeReg]
  split
  · simp only [hf.setDev_id, hf.dev_id]
  · rfl

theorem deviceReset (s : State) : deviceReset (f s) = f (deviceReset s) := by
  simp only [Sys2Proof.Machine.deviceReset, hf.setDev_id, hf.setEnv, hf.dev_id, hf.env, hf.cfg]

theorem writePwr (v : Byte) (s : State) : writePwr v (f s) = f (writePwr v s) := by
  simp only [Sys2Proof.Machine.writePwr, hf.storeReg, hf.deviceReset]
  split <;> rfl

theorem devWrite (o v : Byte) (s : State) : devWrite o v (f s) = (devWrite o v s).map f := by
  unfold Sys2Proof.Machine.devWrite
  rw [hf.cfg, hf.bank]
  split
  · simp only [Except.map, hf.setDev_id, hf.dev_id]
  · cases regAt s.cfg s.bank o with
    | none => rfl
    | some n => cases n <;> simp only [Except.map, hf.storeReg, hf.writeMstctl, hf.writePtCtrl, hf.writePwr]

theorem readReg (n : RegName) (a : Nat) (s : State) :
    readReg n a (f s) = ((readReg n a s).1, f (readReg n a s).2) := by
  cases n
  case ident => simp only [Sys2Proof.Machine.readReg, hf.cfg]
  case sensor =>
    simp only [Sys2Proof.Machine.readReg, State.sensByte, State.afterSens, hf.env, hf.setEnv]
  case mstctl =>
    simp only [Sys2Proof.Machine.readReg, State.drawByte, State.afterDraw, hf.dev_id, hf.reg, hf.env]
    split
    · simp only [hf.setEnv]
    · rfl
  all_goals simp only [Sys2Proof.Machine.readReg, hf.reg]

theorem readByte (o : Byte) (s : State) : readByte o (f s) = (readByte o s).map (Prod.map id f) := by
  unfold Sys2Proof.Machine.readByte
  rw [hf.cfg, hf.bank, hf.dev_id]
  split
  · rfl
  · cases regAt s.cfg s.bank o with
    | none => rfl
    | some n => simp only [hf.readReg]; rfl

theorem readRun : ∀ (n : Nat) (o : Byte) (s : State), readRun n o (f s) = (readRun n o s).map (Prod.map id f)
  | 0, _, _ => rfl
  | n + 1, o, s => by
    simp only [Sys2Proof.Machine.readRun, hf.readByte]
    cases Sys2Proof.Machine.readByte o s with
    | error r => rfl
    | ok p =>
      simp only [Except.map, Prod.map, readRun n (o + 1#8) p.2]
      cases Sys2Proof.Machine.readRun n (o + 1#8) p.2 <;> rfl

theorem devRead (o : Byte) (n : Nat) (s : State) : devRead o n (f s) = (devRead o n s).map (Prod.map id f) := by
  simp only [Sys2Proof.Machine.devRead, hf.readRun, hf.bank]
  split <;> [skip; split] <;> rfl

end

end Unseen

/-- The result of a transaction in the updated state. -/
def TxnResult.map {α : Type} (f : State → State) : TxnResult α → TxnResult α
  | .ok a s => .ok a (f s)
  | .failed e s => .failed e (f s)
  | .refused r => .refused r

/-- The result of a step list whose end, or whose error, is updated. -/
def RunResult.map (f g : State → State) : RunResult → RunResult
  | .done s rs => .done (f s) rs
  | .raised s => .raised (g s)
  | .refused r => .refused r

namespace Unseen

section
variable {f : State → State} (hf : Unseen id f)
include hf

theorem memWrite (o v : Byte) (s : State) : memWrite o v (f s) = (memWrite o v s).map f := by
  simp only [Sys2Proof.Machine.memWrite, hf.dev_id, hf.txnFails, hf.txnAnswer, hf.handle, hf.afterTxn, hf.record,
    hf.devWrite]
  split <;> [skip; split] <;> [rfl; rfl; skip]
  cases Sys2Proof.Machine.devWrite o v s.afterTxn with
  | error r => rfl
  | ok t => simp only [Except.map, TxnResult.map, hf.record]

theorem memRead (o : Byte) (n : Nat) (s : State) : memRead o n (f s) = (memRead o n s).map f := by
  simp only [Sys2Proof.Machine.memRead, hf.dev_id, hf.txnFails, hf.txnAnswer, hf.handle, hf.afterTxn, hf.record,
    hf.devRead]
  split <;> [skip; split] <;> [rfl; rfl; skip]
  cases Sys2Proof.Machine.devRead o n s.afterTxn with
  | error r => rfl
  | ok p => simp only [Except.map, Prod.map, TxnResult.map, hf.record, id]

theorem stageStep (st : Stage) (rs : Reads) (s : State) : stageStep st rs (f s) = (stageStep st rs s).map f := by
  cases st with
  | write o v =>
    simp only [Sys2Proof.Machine.stageStep, hf.memWrite]
    cases Sys2Proof.Machine.memWrite o (v rs) s <;> rfl
  | read o n =>
    simp only [Sys2Proof.Machine.stageStep, hf.memRead]
    cases Sys2Proof.Machine.memRead o n s <;> rfl
  | delay ms =>
    simp only [Sys2Proof.Machine.stageStep, hf.delayStep]
    cases Sys2Proof.Machine.delayStep ms s <;> rfl

/-- An update that the bus does not see, and that a raised error turns into `g`, passes through a step list. -/
theorem runStages {g : State → State} (hg : ∀ e k c s, raise e k c (f s) = g (raise e k c s)) (op : Instr) :
    ∀ (stages : List Stage) (k : Nat) (d : Bool) (rs : Reads) (s : State),
      runStages op stages k d rs (f s) = (runStages op stages k d rs s).map f g
  | [], _, _, _, _ => rfl
  | st :: rest, k, d, rs, s => by
    simp only [Sys2Proof.Machine.runStages, ← hf.setActivity, hf.tickPoint]
    cases Sys2Proof.Machine.tickPoint (s.setActivity (.busy op k)) with
    | error r => rfl
    | ok t =>
      simp only [Except.map, hf.stageStep]
      cases Sys2Proof.Machine.stageStep st rs t with
      | refused r => rfl
      | failed e u => simp only [TxnResult.map, RunResult.map, hg]
      | ok rs1 u => exact runStages hg op rest (k + 1) _ rs1 u

end

end Unseen

/-! ### No operation reads STATUS -/

/-- A step list does not read STATUS, and an error overwrites it. -/
theorem runStages_setStatus (op : Instr) (stages : List Stage) (x : Status) (s : State) :
    runStages op stages 1 false [] (s.setStatus x) = (runStages op stages 1 false [] s).map (·.setStatus x) id :=
  (unseen_setStatus x).runStages (fun _ _ _ _ => rfl) op stages 1 false [] s

section
variable {fin : Reads → State → State} {x : Status} (hfin : ∀ rs s, fin rs (s.setStatus x) = fin rs s)
include hfin

theorem runOp_setStatus (op : Instr) (stages : List Stage) (s : State) :
    runOp op stages fin (s.setStatus x) = runOp op stages fin s := by
  simp only [runOp, runStages_setStatus]
  cases runStages op stages 1 false [] s with
  | done t rs => simp only [RunResult.map, hfin]
  | raised t => rfl
  | refused r => rfl

theorem busOp_setStatus (op : Instr) (a : Bool) (stages : List Stage) (s : State) :
    busOp op a stages fin (s.setStatus x) = busOp op a stages fin s := by
  simp only [busOp, runOp_setStatus hfin]
  rfl

end

theorem finDeviceId_setStatus (rs : Reads) (x : Status) (s : State) :
    finDeviceId rs (s.setStatus x) = finDeviceId rs s := by
  unfold finDeviceId
  exact ite_congr rfl (fun _ => rfl) fun _ => rfl

/-- Settles O12: a step list passes STATUS through, and the end of every operation overwrites it. -/
theorem statusIsReadByNoOperation : Obligations.StatusIsReadByNoOperation := by
  intro i s x
  cases i <;> simp only [exec]
  case delay ms => exact runOp_setStatus (fun _ _ => rfl) _ _ s
  case create bus a => rfl
  case release => rfl
  case elevation => rfl
  case azimuth => rfl
  case getDeviceId => exact busOp_setStatus (fun rs t => finDeviceId_setStatus rs x t) _ _ _ s
  case readAux a n =>
    simp only [execReadAux, busOp_setStatus (x := x) (fin := fun _ => complete id) fun _ _ => rfl]
    rfl
  case auxInit =>
    simp only [execAuxInit, busOp_setStatus (x := x) (fin := fun _ => complete drvConfigured) fun _ _ => rfl]
    rfl
  all_goals exact busOp_setStatus (fun _ _ => rfl) _ _ _ s

/-! ### No operation depends on the bank selected when it starts -/

/-- A successful select write leaves nothing of the byte that `BANKSEL` held. -/
theorem stageStep_select_setBanksel {bank b : Byte} {rs : Reads} {s : State} (h : s.txnFails = false) :
    stageStep (selStage bank) rs (s.setBanksel b) = stageStep (selStage bank) rs s := by
  have unseen := unseen_setBanksel b
  simp only [selStage, stageStep, memWrite, unseen.txnFails, h, devWrite_select]
  rfl

/-- What is left of a step list that starts with a select write does not depend on the bank selected before. -/
theorem runStages_select_setBanksel {op : Instr} {bank b : Byte} {rest : List Stage} {k : Nat} {d : Bool} {rs : Reads}
    {s : State} (h : s.txnFails = false) :
    runStages op (selStage bank :: rest) k d rs (s.setBanksel b) = runStages op (selStage bank :: rest) k d rs s := by
  have unseen := unseen_setBanksel b
  simp only [runStages, ← unseen.setActivity, unseen.tickPoint]
  cases ht : tickPoint (s.setActivity (.busy op k)) with
  | error r => rfl
  | ok t =>
    have rel := engineRel_tickPoint ht
    have fails : t.txnFails = false := by
      rw [← h]
      simp only [State.txnFails, State.txnAnswer, State.addressed, rel.txn, rel.handle, rel.cfg]
      rfl
    simp only [Except.map, stageStep_select_setBanksel fails]

/-- Settles O13: every bus operation starts with a select write, which overwrites `BANKSEL`; before it only the engine
can act, and it does not read `BANKSEL`. -/
theorem startingBankDoesNotMatter : Obligations.StartingBankDoesNotMatter := by
  intro i s b hu ha hv hf
  obtain ⟨bank, rest, hst⟩ := stagesOf_eq_select s.cfg hu
  have h1 := exec_eq_runOp (s := s.setBanksel b) hu ha hv
  have h2 : runOp i (stagesOf s.cfg i) (finishOf i) (s.setBanksel b) = runOp i (stagesOf s.cfg i) (finishOf i) s := by
    simp only [runOp, hst, runStages_select_setBanksel hf]
  exact h1.trans (h2.trans (exec_eq_runOp hu ha hv).symm)

end Sys2Proof.Machine
end

section
/-! PROOF. The registers that hold what was last written, and the steps that take the host's other actions. -/

namespace Sys2Proof.Machine

/-- Settles O55: such a register only stores, at its own address, and a read returns the stored byte. -/
theorem storedRegisterHoldsTheLastByte : Obligations.StoredRegisterHoldsTheLastByte := by
  intro o v s n w hr hn
  have plain : n.plain = true := by cases n <;> revert hn <;> decide
  have stored : ∀ a, (storeReg s.bank o v s).reg a = if a = regAddr s.bank o then v else s.reg a := reg_storeReg w
  have read := devRead_stored (s := storeReg s.bank o v s) hr (by rintro rfl; cases plain) (by rintro rfl; cases plain)
    (by rintro rfl; cases plain)
  refine ⟨storeReg s.bank o v s, devWrite_plain hr plain, (stored _).trans (if_pos rfl), ?_,
    fun a ha => (stored a).trans (if_neg ha), rfl⟩
  rw [read]
  exact congrArg (fun x => Except.ok ([x], storeReg s.bank o v s)) ((stored _).trans (if_pos rfl))

/-- A step of the idle block performs the host's next action, then the ticks. -/
theorem step_action {s : State} {a : HostAction} {rest : List HostAction} (hi : s.activity = .idle)
    (hh : s.host = a :: rest) : step s = thenTicks (execAction a (s.setHost rest)) := by
  simp only [step, hi, fetchHost, hh]

/-- Settles O6: by the four ways a step starts. -/
theorem stepTakesOtherHostActions : Obligations.StepTakesOtherHostActions := by
  intro s rest v
  refine ⟨fun hi hh => step_action hi hh, fun hi hh => step_action hi hh, fun hi hh => ?_, fun op k hb => ?_⟩
  · simp only [step, hi, fetchHost, hh]
  · simp only [step, hb]

end Sys2Proof.Machine
end

section
/-! PROOF. The bus at its edges: where a transaction reaches the device, the selector at offset 0x7F, the read-only
registers and the accesses the document does not describe, and an operation whose first transaction fails. -/

namespace Sys2Proof.Machine

/-! ### A transaction that fails -/

/-- A handle for another address reaches no device, whatever the transport answers (20_memory.md R84). -/
theorem txnFails_of_other_address {s : State} (h : addr7Of s.handle.addr8 ≠ s.cfg.devAddr7) : s.txnFails = true := by
  simp [State.txnFails, State.addressed, h]

theorem memWrite_failed {s : State} (o v : Byte) (hs : s.dev.devSettling = false) (hf : s.txnFails = true) :
    memWrite o v s =
      .failed s.txnAnswer.err (s.afterTxn.record (.w s.handle.addr8 o v (some s.txnAnswer.err))) := by
  simp [memWrite, hs, hf]

theorem memRead_failed {s : State} (o : Byte) (n : Nat) (hs : s.dev.devSettling = false) (hf : s.txnFails = true) :
    memRead o n s =
      .failed s.txnAnswer.err (s.afterTxn.record (.r s.handle.addr8 o n [] (some s.txnAnswer.err))) := by
  simp [memRead, hs, hf]

/-- Settles O53: the window is judged first, then the address; a failed transaction takes an answer of the transport
and a record in the trace, and leaves the device. -/
theorem transactionsNeedTheDevice : Obligations.TransactionsNeedTheDevice := by
  intro o v n s
  refine ⟨fun hs => ⟨by simp [memWrite, hs], by simp [memRead, hs]⟩, fun hs ha => ?_⟩
  have fails := txnFails_of_other_address ha
  exact ⟨⟨_, _, memWrite_failed o v hs fails, rfl, rfl⟩, ⟨_, _, memRead_failed o n hs fails, rfl, rfl⟩⟩

/-! ### The selector -/

/-- Offset 0x7F reads as `BANKSEL` in every bank (R65). -/
theorem devRead_select (s : State) : devRead oBANKSEL 1 s = .ok ([s.dev.banksel], s) := by
  simp [devRead, readRun, readByte]

/-- The select byte selects the low two bits of its operand (R104, R32). -/
theorem bank_selByte (bank : Byte) : (selByte bank).extractLsb' 4 2 = bank.setWidth 2 := by revert bank; decide

/-- Settles O54: the write stores the byte in `BANKSEL`, where the next access takes the bank from and a read finds
it. -/
theorem selectorWriteChangesOnlyTheBank : Obligations.SelectorWriteChangesOnlyTheBank := fun v s =>
  ⟨⟨_, devWrite_select v s, rfl, bank_setDev s _, devRead_select _⟩, rfl, bank_selByte v⟩

/-! ### Read-only registers and undescribed accesses -/

theorem regAt_ident (c : Config) : regAt c 0#2 oIDENT = some .ident := by simp [regAt]

/-- A sensor offset is none of the offsets before the block. -/
theorem regAt_sensor {o : Byte} (c : Config) (h1 : 0x2D#8 ≤ o) (h2 : o ≤ 0x38#8) : regAt c 0#2 o = some .sensor := by
  have ident : o ≠ oIDENT := by rintro rfl; revert h1; decide
  have mstctl : o ≠ oMSTCTL := by rintro rfl; revert h1; decide
  have pwr : o ≠ oPWR := by rintro rfl; revert h1; decide
  simp [regAt, ident, mstctl, pwr, h1, h2]

/-- A shadow offset is none of the offsets before the block, nor a sensor offset. -/
theorem regAt_shadow {o : Byte} (c : Config) (h1 : 0x3B#8 ≤ o) (h2 : o ≤ 0x42#8) : regAt c 0#2 o = some .shadow := by
  have ident : o ≠ oIDENT := by rintro rfl; revert h1; decide
  have mstctl : o ≠ oMSTCTL := by rintro rfl; revert h1; decide
  have pwr : o ≠ oPWR := by rintro rfl; revert h1; decide
  have sensor : ¬o ≤ 0x38#8 := by rw [BitVec.le_def] at h1 ⊢; simp at h1 ⊢; omega
  simp [regAt, ident, mstctl, pwr, sensor, h1, h2]

/-- Bank 1 has no described register but the selector (R75). -/
theorem regAt_bank_one (c : Config) (o : Byte) : regAt c 1#2 o = none := by simp [regAt]

theorem devWrite_undescribed {o : Byte} {s : State} (v : Byte) (ho : o ≠ oBANKSEL) (h : regAt s.cfg s.bank o = none) :
    devWrite o v s = .error .undescribedRegister := by
  simp [devWrite, ho, h]

theorem devRead_undescribed {o : Byte} {s : State} (ho : o ≠ oBANKSEL) (h : regAt s.cfg s.bank o = none) :
    devRead o 1 s = .error .undescribedRegister := by
  simp [devRead, readRun, readByte, ho, h]

/-- The registers a write is refused to (R74). -/
def RegName.readOnly (n : RegName) : Prop := n = .ident ∨ n = .sensor ∨ n = .shadow

theorem devWrite_readOnly {o : Byte} {s : State} {n : RegName} (v : Byte) (h : regAt s.cfg s.bank o = some n)
    (hn : n.readOnly) : devWrite o v s = .error .readOnlyRegister := by
  rcases hn with rfl | rfl | rfl <;> simp [devWrite, regAt_ne_banksel h, h]

/-- The read-only offsets of bank 0. -/
theorem regAt_readOnly {o : Byte} (c : Config)
    (h : o = oIDENT ∨ (0x2D#8 ≤ o ∧ o ≤ 0x38#8) ∨ (0x3B#8 ≤ o ∧ o ≤ 0x42#8)) :
    ∃ n, regAt c 0#2 o = some n ∧ n.readOnly := by
  rcases h with rfl | ⟨h1, h2⟩ | ⟨h1, h2⟩
  · exact ⟨_, regAt_ident c, .inl rfl⟩
  · exact ⟨_, regAt_sensor c h1 h2, .inr (.inl rfl)⟩
  · exact ⟨_, regAt_shadow c h1 h2, .inr (.inr rfl)⟩

/-- What `burstOk` admits: bursts inside one of the two data blocks of bank 0 (R66). -/
theorem burstOk_iff {b : BitVec 2} {o : Byte} {n : Nat} : burstOk b o n = true ↔
    b = 0#2 ∧ ((0x2D ≤ o.toNat ∧ o.toNat + n ≤ 0x39) ∨ (0x3B ≤ o.toNat ∧ o.toNat + n ≤ 0x43)) := by
  simp [burstOk, BitVec.le_def]

theorem devRead_outsideBlock {o : Byte} {n : Nat} {s : State} (hn : 2 ≤ n) (h : burstOk s.bank o n ≠ true) :
    devRead o n s = .error .burstOutsideBlock := by
  have single : n ≠ 1 := by omega
  simp [devRead, single, h]

/-- Settles O58: a read changes only oracles; the refused accesses follow from which register, if any, lies at the
offset. -/
theorem readsHaveNoSideEffectAndOddAccessesAreRefused :
    Obligations.ReadsHaveNoSideEffectAndOddAccessesAreRefused := by
  intro o v n s
  refine ⟨fun bytes t h => ?_, fun ho hr => ⟨devWrite_undescribed v ho hr, devRead_undescribed ho hr⟩,
    fun hb ho => ?_, fun hb => hb ▸ regAt_bank_one s.cfg o, fun hn hout => ?_⟩
  · obtain ⟨⟨e, rfl, -⟩, length⟩ := readRel_devRead h
    exact ⟨rfl, rfl, rfl, length⟩
  · obtain ⟨name, hr, hro⟩ := regAt_readOnly s.cfg ho
    exact devWrite_readOnly v (hb ▸ hr) hro
  · exact devRead_outsideBlock hn fun inside => hout (burstOk_iff.mp inside)

/-! ### An operation whose first transaction fails -/

/-- Settles O23: the step list starts with a select write, whose failure ends the operation at stage 1; before it only
the engine has acted, and raising writes only `STATUS`. -/
theorem firstFailureAbortsTheOperation : Obligations.FirstFailureAbortsTheOperation := by
  intro i s hinv hcalm hu ha hv hs hf
  obtain ⟨bank, rest, hst⟩ := stagesOf_eq_select s.cfg hu
  obtain ⟨u, x, eng, same, rel, run, written, -⟩ :=
    go_failed (op := i) (rest := rest) (k := 1) (d := false) (rs := []) (st := selStage bank) hinv.regsWf hcalm hs hf
      nofun
  have raised : exec i s = .next (raise (busFail false) 1 (some s.txnAnswer.err) (u.afterTxn.record x)) :=
    (exec_eq_runOp hu ha hv).trans (runOp_raised (hst ▸ run))
  have trace : u.trace ++ [x] = s.trace ++ [.w s.handle.addr8 oBANKSEL (selByte bank) (some s.txnAnswer.err)] := by
    rw [eng.trace, written _ _ rfl]
    rfl
  exact ⟨_, selByte bank, raised, rfl, trace, eng.banksel, ⟨eng.cfg, eng.host, eng.handle, eng.fus⟩, eng.res, eng.drv,
    ⟨fun _ => ⟨eng.kept.arm, eng.kept.disarm⟩, rel.regs, rel.devSettling, same.mstSettling, same.off⟩⟩

end Sys2Proof.Machine
end

section
/-! PROOF. Command words (30_encoding.md R100 to R102, R114): a word is its three fields, the decoder and the encoder
are inverse to each other, and the words that decode are those that match a row of the opcode table. -/

namespace Sys2Proof

/-! ### The fields of a word -/

@[simp] theorem fieldOp_mkWord (op a b : Byte) : fieldOp (mkWord op a b) = op :=
  (BitVec.extractLsb'_append_eq_of_le (by decide)).trans BitVec.extractLsb'_append_eq_left

@[simp] theorem fieldA_mkWord (op a b : Byte) : fieldA (mkWord op a b) = a :=
  (BitVec.extractLsb'_append_eq_of_le (by decide)).trans BitVec.extractLsb'_append_eq_right

@[simp] theorem fieldB_mkWord (op a b : Byte) : fieldB (mkWord op a b) = b :=
  BitVec.extractLsb'_append_eq_right

theorem mkWord_fields (w : CmdWord) : mkWord (fieldOp w) (fieldA w) (fieldB w) = w := by
  have upper : fieldOp w ++ fieldA w = w.extractLsb' 8 16 :=
    BitVec.extractLsb'_append_extractLsb'_eq_extractLsb' rfl
  rw [mkWord, upper]
  exact (BitVec.extractLsb'_append_extractLsb'_eq_extractLsb' rfl).trans BitVec.extractLsb'_eq_self

theorem eq_mkWord_iff {w : CmdWord} {op a b : Byte} :
    w = mkWord op a b ↔ fieldOp w = op ∧ fieldA w = a ∧ fieldB w = b := by
  constructor
  · rintro rfl
    simp
  · rintro ⟨rfl, rfl, rfl⟩
    exact (mkWord_fields w).symm

/-- The 16-bit operand of DELAY is `{a, b}` (R114). -/
theorem encode_delay (a b : Byte) : encode (.delay (a ++ b)) = mkWord 0x02#8 a b :=
  congrArg₂ (mkWord 0x02#8) BitVec.extractLsb'_append_eq_left BitVec.extractLsb'_append_eq_right

/-! ### The decoder on an encoded word -/

theorem decodeNone_mkWord (op : Byte) (i : Instr) : decodeNone (mkWord op 0#8 0#8) i = .ok i := by
  simp [decodeNone]

theorem decodeA_mkWord (op a : Byte) (f : Byte → Instr) : decodeA (mkWord op a 0#8) f = .ok (f a) := by
  simp [decodeA]

theorem decodeAB_mkWord (op a b : Byte) (f : Byte → Byte → Instr) :
    decodeAB (mkWord op a b) f = .ok (f a b) := by
  simp [decodeAB]

/-- Settles O1: the field `op` selects the operation's arm, and the arm reads back the fields the encoder wrote. -/
theorem decodeOfEncodeIsIdentity : Obligations.DecodeOfEncodeIsIdentity := by
  intro i
  cases i
  case delay ms =>
    have operand : ms.extractLsb' 8 8 ++ ms.extractLsb' 0 8 = ms :=
      (BitVec.extractLsb'_append_extractLsb'_eq_extractLsb' rfl).trans BitVec.extractLsb'_eq_self
    simp [encode, decode, decodeAB_mkWord, operand]
  case create | setDlpf | writeAux | readAux => simp [encode, decode, decodeAB_mkWord]
  case selectBank | setGyroFs | setAccelFs | enableDlpf => simp [encode, decode, decodeA_mkWord]
  all_goals exact decodeNone_mkWord _ _

/-- Settles O4: the defined words are encodings, and the other two are judged by their fields. -/
theorem writtenOutWordsDecode : Obligations.WrittenOutWordsDecode :=
  ⟨decodeOfEncodeIsIdentity (.selectBank 2#8), decodeOfEncodeIsIdentity (.delay 10#16),
    decodeOfEncodeIsIdentity (.create 0#8 0x68#8), decodeOfEncodeIsIdentity (.setDlpf 1#8 3#8),
    decodeOfEncodeIsIdentity (.writeAux 0x31#8 0x08#8), decodeOfEncodeIsIdentity (.readAux 0x11#8 8#8),
    decodeOfEncodeIsIdentity .azimuth, by decide, by decide⟩

/-- No two operations have the same word. -/
theorem encode_injective : Function.Injective encode := by
  intro i j h
  have same : decode (encode i) = decode (encode j) := congrArg decode h
  rw [decodeOfEncodeIsIdentity, decodeOfEncodeIsIdentity] at same
  exact Except.ok.inj same

/-! ### The words that decode

One lemma for each kind of arm: what the arm accepts is the encoding of what it answers. -/

section
variable {w : CmdWord} {i j : Instr} {op : Byte}

theorem encode_of_decodeNone (h : decodeNone w i = .ok j) (henc : encode i = mkWord op 0#8 0#8)
    (hop : (fieldOp w).toNat = op.toNat) : encode j = w := by
  unfold decodeNone at h
  split at h
  · next unused =>
    cases h
    exact henc.trans (eq_mkWord_iff.mpr ⟨BitVec.eq_of_toNat_eq hop, unused⟩).symm
  · cases h

theorem encode_of_decodeA {f : Byte → Instr} (h : decodeA w f = .ok j) (henc : ∀ a, encode (f a) = mkWord op a 0#8)
    (hop : (fieldOp w).toNat = op.toNat) : encode j = w := by
  unfold decodeA at h
  split at h
  · next unused =>
    cases h
    exact (henc _).trans (eq_mkWord_iff.mpr ⟨BitVec.eq_of_toNat_eq hop, rfl, unused⟩).symm
  · cases h

theorem encode_of_decodeAB {f : Byte → Byte → Instr} (h : decodeAB w f = .ok j)
    (henc : ∀ a b, encode (f a b) = mkWord op a b) (hop : (fieldOp w).toNat = op.toNat) : encode j = w := by
  cases h
  exact (henc _ _).trans (eq_mkWord_iff.mpr ⟨BitVec.eq_of_toNat_eq hop, rfl, rfl⟩).symm

end

/-- Settles O2: the arm that answers is the one of the operation's code, and it accepts only the operation's words. -/
theorem encodeOfDecodeIsIdentity : Obligations.EncodeOfDecodeIsIdentity := by
  intro w i h
  unfold decode at h
  split at h
  case h_25 => cases h
  case h_2 op => exact encode_of_decodeAB h encode_delay op
  case h_3 op | h_13 op | h_19 op | h_20 op => exact encode_of_decodeAB h (fun _ _ => rfl) op
  case h_1 op | h_9 op | h_11 op | h_14 op => exact encode_of_decodeA h (fun _ => rfl) op
  all_goals next op => exact encode_of_decodeNone h rfl op

/-! ### The rows of the opcode table -/

/-- The words that match the row are encodings of operations with the row's mnemonic. -/
def OpRow.SelectsOnly (r : OpRow) : Prop :=
  ∀ w, r.matches w = true → ∃ i : Instr, encode i = w ∧ i.mnemonic = r.mnemonic

/-- A row whose mask and pattern are given field by field is matched field by field. -/
theorem fields_of_matches {m : String} {x y z op a b : Byte} {w : CmdWord}
    (h : OpRow.matches ⟨m, mkWord x y z, mkWord op a b⟩ w = true) :
    fieldOp w &&& x = op ∧ fieldA w &&& y = a ∧ fieldB w &&& z = b := by
  have masked : w &&& mkWord x y z = mkWord op a b := of_decide_eq_true h
  rw [← mkWord_fields w, Laws.TableRow.mkWord_and, eq_mkWord_iff] at masked
  simpa using masked

/-- A mask that keeps the whole field. -/
theorem and_wholeField (x : Byte) : x &&& 0xFF#8 = x := BitVec.and_allOnes

/-- A row that fixes the whole word. -/
theorem selectsOnly_none (i : Instr) : OpRow.SelectsOnly ⟨i.mnemonic, 0xFFFFFF#24, encode i⟩ := by
  intro w h
  have masked : w &&& 0xFFFFFF#24 = encode i := of_decide_eq_true h
  exact ⟨i, masked.symm.trans BitVec.and_allOnes, rfl⟩

/-- A row that leaves the field `a` free. -/
theorem selectsOnly_A {op : Byte} (f : Byte → Instr) (henc : ∀ a, encode (f a) = mkWord op a 0#8)
    (hm : ∀ a, (f a).mnemonic = (f 0#8).mnemonic) :
    OpRow.SelectsOnly ⟨(f 0#8).mnemonic, 0xFF00FF#24, encode (f 0#8)⟩ := by
  intro w h
  rw [henc] at h
  obtain ⟨hop, -, hb⟩ := fields_of_matches (x := 0xFF#8) (y := 0#8) (z := 0xFF#8) h
  rw [and_wholeField] at hop hb
  exact ⟨f (fieldA w), (henc _).trans (eq_mkWord_iff.mpr ⟨hop, rfl, hb⟩).symm, hm _⟩

/-- A row that leaves both fields free. -/
theorem selectsOnly_AB {op : Byte} (f : Byte → Byte → Instr) (henc : ∀ a b, encode (f a b) = mkWord op a b)
    (hm : ∀ a b, (f a b).mnemonic = (f 0#8 0#8).mnemonic) :
    OpRow.SelectsOnly ⟨(f 0#8 0#8).mnemonic, 0xFF0000#24, encode (f 0#8 0#8)⟩ := by
  intro w h
  rw [henc] at h
  obtain ⟨hop, -, -⟩ := fields_of_matches (x := 0xFF#8) (y := 0#8) (z := 0#8) h
  rw [and_wholeField] at hop
  exact ⟨f (fieldA w) (fieldB w), (henc _ _).trans (eq_mkWord_iff.mpr ⟨hop, rfl, rfl⟩).symm, hm _ _⟩

/-- Row by row of the table (R114). -/
theorem selectsOnly_of_mem {r : OpRow} (h : r ∈ opcodeTable) : r.SelectsOnly := by
  revert r
  simp only [opcodeTable, opcodeRows1, opcodeRows2, List.forall_mem_append, List.forall_mem_cons]
  exact
    ⟨⟨selectsOnly_A .selectBank (fun _ => rfl) (fun _ => rfl),
      selectsOnly_AB (fun a b => .delay (a ++ b)) encode_delay (fun _ _ => rfl),
      selectsOnly_AB .create (fun _ _ => rfl) (fun _ _ => rfl),
      selectsOnly_none .release, selectsOnly_none .reset, selectsOnly_none .wake, selectsOnly_none .sleep,
      selectsOnly_none .getDeviceId,
      selectsOnly_A .setGyroFs (fun _ => rfl) (fun _ => rfl), selectsOnly_none .getGyroFs,
      selectsOnly_A .setAccelFs (fun _ => rfl) (fun _ => rfl), selectsOnly_none .getAccelFs, nofun⟩,
     ⟨selectsOnly_AB .setDlpf (fun _ _ => rfl) (fun _ _ => rfl),
      selectsOnly_A .enableDlpf (fun _ => rfl) (fun _ => rfl),
      selectsOnly_none .getRawAccel, selectsOnly_none .getRawGyro, selectsOnly_none .getAccel,
      selectsOnly_none .getGyro,
      selectsOnly_AB .writeAux (fun _ _ => rfl) (fun _ _ => rfl),
      selectsOnly_AB .readAux (fun _ _ => rfl) (fun _ _ => rfl),
      selectsOnly_none .getRawMag, selectsOnly_none .auxInit, selectsOnly_none .elevation,
      selectsOnly_none .azimuth, nofun⟩⟩

/-- Every operation's word matches the row that carries its mnemonic (R114). -/
theorem encode_matches_row (i : Instr) : Laws.TableRow.Statement i := by
  cases i
  case selectBank => exact Laws.TableRow.selectBank _
  case delay => exact Laws.TableRow.delay _
  case create => exact Laws.TableRow.create _ _
  case release => exact Laws.TableRow.release
  case reset => exact Laws.TableRow.reset
  case wake => exact Laws.TableRow.wake
  case sleep => exact Laws.TableRow.sleep
  case getDeviceId => exact Laws.TableRow.getDeviceId
  case setGyroFs => exact Laws.TableRow.setGyroFs _
  case getGyroFs => exact Laws.TableRow.getGyroFs
  case setAccelFs => exact Laws.TableRow.setAccelFs _
  case getAccelFs => exact Laws.TableRow.getAccelFs
  case setDlpf => exact Laws.TableRow.setDlpf _ _
  case enableDlpf => exact Laws.TableRow.enableDlpf _
  case getRawAccel => exact Laws.TableRow.getRawAccel
  case getRawGyro => exact Laws.TableRow.getRawGyro
  case getAccel => exact Laws.TableRow.getAccel
  case getGyro => exact Laws.TableRow.getGyro
  case writeAux => exact Laws.TableRow.writeAux _ _
  case readAux => exact Laws.TableRow.readAux _ _
  case getRawMag => exact Laws.TableRow.getRawMag
  case auxInit => exact Laws.TableRow.auxInit
  case elevation => exact Laws.TableRow.elevation
  case azimuth => exact Laws.TableRow.azimuth

theorem mnemonics_nodup : (opcodeTable.map OpRow.mnemonic).Nodup := by decide

/-- A word matches at most one row: the operations behind two matched rows have the same word, so they are one
operation, with one mnemonic. -/
theorem row_unique {w : CmdWord} {r r' : OpRow} (hr : r ∈ opcodeTable) (hr' : r' ∈ opcodeTable)
    (hm : r.matches w = true) (hm' : r'.matches w = true) : r' = r := by
  obtain ⟨i, hi, named⟩ := selectsOnly_of_mem hr w hm
  obtain ⟨i', hi', named'⟩ := selectsOnly_of_mem hr' w hm'
  obtain rfl : i' = i := encode_injective (hi'.trans hi.symm)
  exact List.inj_on_of_nodup_map mnemonics_nodup hr' hr (named'.symm.trans named)

/-- An undefined word matches no row, as a word that matches one is an encoding and decodes. -/
theorem matches_false_of_decode_error {w : CmdWord} {e : DecodeReject} {r : OpRow} (h : decode w = .error e)
    (hr : r ∈ opcodeTable) : r.matches w = false := by
  refine Bool.eq_false_iff.mpr fun hm => ?_
  obtain ⟨i, rfl, -⟩ := selectsOnly_of_mem hr w hm
  rw [decodeOfEncodeIsIdentity] at h
  cases h

end Sys2Proof

namespace Sys2Proof.Machine

/-- An undefined word only raises (R102). -/
theorem execWord_undefined {w : CmdWord} {e : DecodeReject} (h : decode w = .error e) (s : State) :
    execWord w s = .next (invalidArgument s) := by
  simp only [execWord, h]

/-- Settles O3: a word that decodes is an encoding and matches its operation's row, the only one; an undefined word
matches none, and raising writes only `STATUS`. -/
theorem decodingFollowsTheOpcodeTable : Obligations.DecodingFollowsTheOpcodeTable := by
  intro w
  cases h : decode w with
  | ok i =>
    obtain rfl : encode i = w := encodeOfDecodeIsIdentity w i h
    obtain ⟨r, hr, named, hm⟩ := encode_matches_row i
    exact .inl ⟨i, r, rfl, hr, hm, named, fun r' hr' hm' => row_unique hr hr' hm hm'⟩
  | error e =>
    exact .inr ⟨fun r hr => matches_false_of_decode_error h hr, ⟨e, rfl⟩,
      fun s => ⟨_, execWord_undefined h s, rfl, rfl, rfl, rfl, rfl⟩⟩

end Sys2Proof.Machine
end

section
/-! PROOF. Value assembly (30_encoding.md R104 to R113): the order of the bytes of a sample, and the fields the
sequencer inserts into a register byte. -/

namespace Sys2Proof.Machine

/-! ### Samples -/

theorem be16_toNat (h l : Byte) : (be16 h l).toNat = h.toNat * 256 + l.toNat := by
  rw [be16, BitVec.toNat_append, ← Nat.shiftLeft_add_eq_or_of_lt l.isLt, Nat.shiftLeft_eq]

/-- Settles O59: a pair is the concatenation of its bytes, high byte first; the triples take the pairs in order. -/
theorem sampleByteOrders : Obligations.SampleByteOrders :=
  ⟨fun h l => ⟨be16_toNat h l, rfl⟩, fun _ _ _ _ _ _ => ⟨rfl, rfl⟩, by decide, by decide, by decide⟩

/-! ### Fields of a register byte

An insertion is `(v &&& keep) ||| field`. It leaves the bits of `keep` alone when the field has none of them, and the
field is read back when the kept part has none of its bits. -/

theorem insert_and_keep {keep field : Byte} (v : Byte) (h : field &&& keep = 0#8) :
    (v &&& keep ||| field) &&& keep = v &&& keep := by
  rw [BitVec.and_or_distrib_right, BitVec.and_assoc, BitVec.and_self, h, BitVec.or_zero]

theorem extract_insert {kept field : Byte} {k n : Nat} (h : kept.extractLsb' k n = 0#n) :
    (kept ||| field).extractLsb' k n = field.extractLsb' k n := by
  rw [BitVec.extractLsb'_or, h, BitVec.zero_or]

/-- The range field lies in bits 2:1 (R108). -/
theorem extFs_eq_extract (v : Byte) : extFs v = v.extractLsb' 1 2 := by revert v; decide

theorem insFs_keeps (v fs : Byte) : insFs v fs &&& 0xF9#8 = v &&& 0xF9#8 :=
  insert_and_keep v (by revert fs; decide)

theorem extFs_insFs (v fs : Byte) : extFs (insFs v fs) = fs.setWidth 2 := by
  have kept : (v &&& 0xF9#8).extractLsb' 1 2 = 0#2 := by revert v; decide
  have field : ((fs &&& 0x03#8) <<< 1).extractLsb' 1 2 = fs.setWidth 2 := by revert fs; decide
  rw [extFs_eq_extract, insFs, extract_insert kept, field]

theorem insCut_keeps (v c : Byte) : insCut v c &&& 0xC7#8 = v &&& 0xC7#8 :=
  insert_and_keep v (by revert c; decide)

theorem extract_insCut (v c : Byte) : (insCut v c).extractLsb' 3 3 = c.setWidth 3 := by
  have kept : (v &&& 0xC7#8).extractLsb' 3 3 = 0#3 := by revert v; decide
  have field : ((c &&& 0x07#8) <<< 3).extractLsb' 3 3 = c.setWidth 3 := by revert c; decide
  rw [insCut, extract_insert kept, field]

theorem insEn_keeps (v e : Byte) : insEn v e &&& 0xFE#8 = v &&& 0xFE#8 :=
  insert_and_keep v (by revert e; decide)

/-- The enable bit is bit 0 (R110). -/
theorem insEn_bit (v e : Byte) : (insEn v e).getLsbD 0 = e.getLsbD 0 := by simp [insEn]

/-- A 7-bit address leaves bit 7 clear (R106). -/
theorem ptAddrWrite_bit7 (a7 : BitVec 7) : (ptAddrWrite a7).getLsbD 7 = false := by simp [ptAddrWrite]

/-- Settles O60: the bytes are the spec's formulas by definition; what an insertion keeps and sets is said by the lemmas
above. -/
theorem valueAssemblyBytes : Obligations.ValueAssemblyBytes := fun v x a7 =>
  ⟨⟨rfl, rfl⟩, ⟨rfl, ptAddrWrite_bit7 a7, rfl, rfl⟩, ⟨insFs_keeps v x, extFs_insFs v x, extFs_eq_extract v⟩,
    ⟨insCut_keeps v x, extract_insCut v x⟩, ⟨insEn_keeps v x, insEn_bit v x⟩, ⟨rfl, rfl, rfl⟩, ⟨rfl, rfl⟩⟩

end Sys2Proof.Machine
end

section
/-! PROOF. The step that runs a decoded command word, and operation family 0 (40_bank_selector.md): SELECTBANK and
DELAY. -/

namespace Sys2Proof.Machine

/-! ### The command word -/

/-- A word that decodes runs its instruction. -/
theorem execWord_decoded {w : CmdWord} {i : Instr} (h : decode w = .ok i) (s : State) : execWord w s = exec i s := by
  simp only [execWord, h]

/-- Settles O5: the step performs the host's next action, and performing a word that decodes is `exec`. -/
theorem stepRunsDecodedInstruction : Obligations.StepRunsDecodedInstruction := fun s _ rest _ hi hh hd =>
  (step_action hi hh).trans (congrArg thenTicks (execWord_decoded hd (s.setHost rest)))

/-! ### How an operation of the template ends -/

/-- Without a handle, or with an illegal operand, an operation of the template only raises (R130(1), (2)). -/
theorem busOp_rejected {op : Instr} {a : Bool} {stages : List Stage} {fin : Reads → State → State} {s : State}
    (h : s.handle.valid = false ∨ a = false) : busOp op a stages fin s = .next (invalidArgument s) := by
  rcases h with h | h <;> simp [busOp, h]

/-- Completing writes nothing the device frame speaks of. -/
theorem SameDeviceBut.complete {w : List Nat} {s t : State} (h : SameDeviceBut w s t) (d : DrvState → DrvState) :
    SameDeviceBut w s (complete d t) :=
  ⟨fun hw => ⟨(h.armed hw).arm, (h.armed hw).disarm⟩, h.regs, h.devSettling, h.mstSettling, h.engineOff⟩

/-! ### SELECTBANK -/

/-- With a handle and a legal bank, SELECTBANK runs its select write. -/
theorem exec_selectBank_run {bank : Byte} {s : State} (hb : bank ≤ 3#8) (hv : s.handle.valid = true) :
    exec (.selectBank bank) s = runOp (.selectBank bank) [selStage bank] (fun _ => complete id) s :=
  busOp_run hv (decide_eq_true hb)

theorem exec_selectBank_rejected {bank : Byte} {s : State} (h : s.handle.valid = false ∨ 3#8 < bank) :
    exec (.selectBank bank) s = .next (invalidArgument s) :=
  busOp_rejected (h.imp id fun hb => decide_eq_false (BitVec.not_le.mpr hb))

/-- Settles O28: SELECTBANK is one select write, which succeeds or fails; its operands are checked before it. -/
theorem selectBankSelects : Obligations.SelectBankSelects := by
  intro bank s
  refine ⟨fun hb hinv hcalm hready => ?completes, exec_selectBank_rejected,
    fun hb hinv hcalm hv hs hf => ?fails⟩
  case completes =>
    have go := Go.of_ready hinv hcalm hready
    obtain ⟨t, run, stage, engine, -, hsel, -, armed⟩ :=
      go_select (op := .selectBank bank) (rest := []) (k := 1) (d := false) (rs := []) bank go
    have bank_eq : t.bank = bank.setWidth 2 := (bank_of_banksel hsel).trans (bank_selByte bank)
    obtain ⟨cfg, host, handle, fus⟩ := stage.same
    exact ⟨complete id t, (exec_selectBank_run hb go.valid).trans (runOp_done run), rfl, stage.trace, hsel, bank_eq,
      ⟨cfg, host, handle, fus⟩, stage.res, stage.drv, (stage.sameDevice engine fun _ => armed).complete id⟩
  case fails =>
    obtain ⟨u, x, engine, -, -, run, written, -⟩ := go_failed (op := .selectBank bank) (rest := []) (k := 1) (d := false)
      (rs := []) (st := selStage bank) hinv.regsWf hcalm hs hf nofun
    have trace : u.trace ++ [x] = s.trace ++ [.w s.handle.addr8 oBANKSEL (selByte bank) (some s.txnAnswer.err)] := by
      rw [engine.trace, written _ _ rfl]
      rfl
    exact ⟨_, (exec_selectBank_run hb hv).trans (runOp_raised run), rfl, trace, engine.banksel⟩

/-! ### DELAY -/

theorem EngineRel.asleep {s t : State} (h : EngineRel s t) (w : Memory.wf s.dev.regs = true) :
    t.asleep = s.asleep := by
  simp only [State.asleep, h.regs w aPWR (by decide)]

/-- DELAY completes from every calm state: the ticks of a scheduling point, at least the ticks the delay guarantees, and
then the windows close. -/
theorem exec_delay_ok {ms : BitVec 16} {s : State} (w : Memory.wf s.dev.regs = true) (hc : s.calm = true) :
    ∃ u v, tickPoint (s.setActivity (.busy (.delay ms) 1)) = .ok u ∧ EngineRel u v ∧
      (u.tickEnabled = true → ∃ n, u.delayTicks ms.toNat ≤ n ∧ ticks n u.afterSchedule = .ok v) ∧
      exec (.delay ms) s = .next (complete id (closeWindows ms.toNat v)) := by
  obtain ⟨u, hu, before, calm⟩ := tickPoint_ok (s := s.setActivity (.busy (.delay ms) 1)) w hc
  obtain ⟨v, hv, during, -, least⟩ := delayStep_ok (ms := ms.toNat) (before.regsWf w) calm
  have stage : stageStep (.delay ms.toNat) [] u = .ok [] (closeWindows ms.toNat v) := by rw [stageStep, hv]
  exact ⟨u, v, hu, during, least, runOp_done (runStages_cons_ok hu stage)⟩

/-- An awake device with the engine on takes at least the guaranteed ticks during DELAY (43_aux_engine.md R199). -/
theorem guaranteedTicks_le_of_delay {ms : Nat} {s u v : State} (w : Memory.wf s.dev.regs = true)
    (before : EngineRel s u) (hv : u.tickEnabled = true → ∃ n, u.delayTicks ms ≤ n ∧ ticks n u.afterSchedule = .ok v)
    (on : s.tickEnabled = true) (awake : s.asleep = false) :
    s.dev.tickNo + guaranteedTicks s.cfg ms ≤ v.dev.tickNo := by
  obtain ⟨n, hn, ht⟩ := hv ((before.tickEnabled w).trans on)
  have count : v.dev.tickNo = u.dev.tickNo + n := (engineRel_ticks ht).2
  have least : u.delayTicks ms = guaranteedTicks s.cfg ms := by
    simp [State.delayTicks, before.asleep w, awake, before.cfg]
  have grown := before.tickNo
  omega

/-- Settles O29: DELAY is ticks and then closing windows, both of which leave what is not the engine's; the registers it
leaves, and that nothing ticks with the engine off, are parts of every operation's frame. -/
theorem delayWaits : Obligations.DelayWaits := by
  intro ms s hinv hcalm
  obtain ⟨u, v, hu, during, least, he⟩ := exec_delay_ok (ms := ms) hinv.regsWf hcalm
  have before := engineRel_tickPoint hu
  have rel := before.trans during
  have counted := guaranteedTicks_le_of_delay (s := s.setActivity (.busy (.delay ms) 1)) hinv.regsWf before least
  have frame := (frame_exec hinv.devInv he).2
  have devWindow : v.dev.devSettling = s.dev.devSettling := rel.devSettling
  have mstWindow : v.dev.mstSettling = s.dev.mstSettling := rel.mstSettling
  have cfg : v.cfg = s.cfg := rel.cfg
  refine ⟨_, he, rfl, rel.trace, ?_, ?_, fun on awake => ?_, fun off => ?_,
    ⟨rel.cfg, rel.host, rel.handle, rel.fus⟩, rel.res, rel.drv, rel.banksel, fun a ha => frame.regs a nofun ha⟩
  · simp [closeWindows, devWindow, cfg]
  · simp [closeWindows, mstWindow, cfg]
  · exact counted on awake
  · obtain ⟨-, -, noTick⟩ := frame.quiet off nofun
    exact noTick

end Sys2Proof.Machine
end

section
/-! PROOF. The ghost register DRVSTATE (41_device_driver.md R157): which operations move it, and that none depends on
it; and the two operations on the handle, which use no bus. -/

namespace Sys2Proof.Machine

/-! ### Who moves DRVSTATE -/

/-- Operation `i`, started in DRVSTATE `d` and ended in `t`, moved DRVSTATE as R157 says: by the transition list on code
0, not at all on an error. -/
def DrvMoved (i : Instr) (d : DrvState) (t : State) : Prop := t.drv = if t.status.code = 0#4 then drvAfter i d else d

theorem DrvMoved.of_ok {i : Instr} {d : DrvState} {t : State} (hs : t.status = Status.ok) (h : t.drv = drvAfter i d) :
    DrvMoved i d t := by
  rw [DrvMoved, hs, h]; rfl

theorem DrvMoved.of_err {i : Instr} {d : DrvState} {t : State} {e : ErrKind} {k : Nat} {c : Option TErr}
    (hs : t.status = Status.err e k c) (h : t.drv = d) : DrvMoved i d t := by
  have code : (Status.err e k c).code ≠ 0#4 := by cases e <;> simp [Status.err, errCode]
  rw [DrvMoved, hs, if_neg code, h]

theorem drvAdvance_wake : ∀ d : DrvState, drvAdvance [0] 1 d = drvAfter .wake d
  | .reset _ => if_congr List.mem_singleton rfl rfl
  | .noHandle => rfl
  | .unconfigured => rfl
  | .configured => rfl

theorem drvAdvance_getDeviceId : ∀ d : DrvState, drvAdvance [1] 2 d = drvAfter .getDeviceId d
  | .reset _ => if_congr List.mem_singleton rfl rfl
  | .noHandle => rfl
  | .unconfigured => rfl
  | .configured => rfl

/-- SETGYROFS and SETACCELFS move DRVSTATE alike. -/
theorem drvAdvance_setFs (fs : Byte) : ∀ d : DrvState,
    drvAdvance [2, 3] 3 d = drvAfter (.setGyroFs fs) d ∧ drvAdvance [2, 3] 3 d = drvAfter (.setAccelFs fs) d
  | .reset _ => ⟨if_congr (by simp) rfl rfl, if_congr (by simp) rfl rfl⟩
  | .noHandle => ⟨rfl, rfl⟩
  | .unconfigured => ⟨rfl, rfl⟩
  | .configured => ⟨rfl, rfl⟩

theorem drvConfigured_eq : ∀ d : DrvState, drvConfigured d = drvAfter .auxInit d
  | .reset _ => rfl
  | .noHandle => rfl
  | .unconfigured => rfl
  | .configured => rfl

/-- The two ends of GETDEVICEID (R145). -/
theorem finDeviceId_match {rs : Reads} {s : State} (h : readByteAt rs 0 = s.cfg.whoamiExpected) :
    finDeviceId rs s = complete (drvAdvance [1] 2) (s.setRes { s.res with resByte := readByteAt rs 0 }) := if_pos h

theorem finDeviceId_mismatch {rs : Reads} {s : State} (h : readByteAt rs 0 ≠ s.cfg.whoamiExpected) :
    finDeviceId rs s = raise .identityMismatch 2 none (s.setRes { s.res with resByte := readByteAt rs 0 }) := if_neg h

/-- The end of a step list moves DRVSTATE as R157 says. -/
theorem drvMoved_finishOf {i : Instr} {s : State} (hr : Runs i s) (rs : Reads) (u : State) :
    DrvMoved i u.drv (finishOf i rs u) := by
  have hu : usesBus i = true ∨ ∃ ms, i = .delay ms := hr.imp (fun ⟨hu, _, _⟩ => hu) id
  cases i
  case create => simp [usesBus] at hu
  case release => simp [usesBus] at hu
  case elevation => simp [usesBus] at hu
  case azimuth => simp [usesBus] at hu
  case wake => exact .of_ok rfl (drvAdvance_wake u.drv)
  case setGyroFs fs => exact .of_ok rfl (drvAdvance_setFs fs u.drv).1
  case setAccelFs fs => exact .of_ok rfl (drvAdvance_setFs fs u.drv).2
  case getDeviceId =>
    rw [finishOf]
    by_cases h : readByteAt rs 0 = u.cfg.whoamiExpected
    · rw [finDeviceId_match h]; exact .of_ok rfl (drvAdvance_getDeviceId u.drv)
    · rw [finDeviceId_mismatch h]; exact .of_err rfl rfl
  case auxInit => exact .of_ok rfl (drvConfigured_eq u.drv)
  all_goals exact .of_ok rfl rfl

theorem drvMoved_exec {i : Instr} {s t : State} (he : exec i s = .next t) : DrvMoved i s.drv t := by
  refine exec_next_cases (R := DrvMoved i s.drv) he ?rejected ?create ?release ?elevation ?azimuth ?run
  case rejected => exact .of_err rfl rfl
  case create => rintro bus a rfl _ _; exact .of_ok rfl rfl
  case release => rintro rfl _; exact .of_ok rfl rfl
  case elevation => rintro x rfl; exact .of_ok rfl rfl
  case azimuth => rintro x rfl; exact .of_ok rfl rfl
  case run =>
    refine fun hr => ⟨fun u rs hu => ?_, fun u hu => ?_⟩
    · exact (SeqKept.run.1 u rs hu).drv ▸ drvMoved_finishOf hr rs u
    · obtain ⟨d, j, e, v, kept, rfl⟩ := SeqKept.run.2 u hu
      exact .of_err rfl kept.drv

/-! ### No operation depends on DRVSTATE -/

/-- The engine and the bus do not see DRVSTATE. -/
theorem unseen_setDrv (d : DrvState) : Unseen id (·.setDrv d) where
  cfg _ := rfl
  handle _ := rfl
  dev _ := rfl
  mag _ := rfl
  env _ := rfl
  trace _ := rfl
  hist _ := rfl
  setActivity _ _ := rfl
  setDev _ _ := rfl
  setMag _ _ := rfl
  setEnv _ _ := rfl
  setTrace _ _ := rfl
  setHist _ _ := rfl

/-- The answer `r'` is the answer `r`, but for DRVSTATE of the next state. -/
def AlikeButDrv (r r' : Result) : Prop :=
  (∀ t, r = .next t → ∃ d, r' = .next (t.setDrv d)) ∧ ∀ e, r = .refused e → r' = .refused e

theorem AlikeButDrv.next (t : State) (d : DrvState) : AlikeButDrv (.next t) (.next (t.setDrv d)) :=
  ⟨fun u hu => ⟨d, by cases hu; rfl⟩, fun _ h => by cases h⟩

theorem AlikeButDrv.refused (e : Refusal) : AlikeButDrv (.refused e) (.refused e) :=
  ⟨fun _ h => (by cases h), fun _ h => h⟩

/-- A check whose outcome does not depend on DRVSTATE. -/
theorem AlikeButDrv.ite {c : Prop} [Decidable c] {a a' b b' : Result} (ha : AlikeButDrv a a') (hb : AlikeButDrv b b') :
    AlikeButDrv (if c then a else b) (if c then a' else b') := by
  split
  · exact ha
  · exact hb

/-- A rejection does not touch DRVSTATE. -/
theorem alike_invalidArgument (s : State) (d : DrvState) :
    AlikeButDrv (.next (invalidArgument s)) (.next (invalidArgument (s.setDrv d))) := .next (invalidArgument s) d

section
variable {fin : Reads → State → State} {d : DrvState}
  (hfin : ∀ rs s, ∃ d', fin rs (s.setDrv d) = (fin rs s).setDrv d')
include hfin

/-- A step list passes DRVSTATE through, and only its end can move it. -/
theorem alike_runOp (op : Instr) (stages : List Stage) (s : State) :
    AlikeButDrv (runOp op stages fin s) (runOp op stages fin (s.setDrv d)) := by
  have run := (unseen_setDrv d).runStages (g := (·.setDrv d)) (fun _ _ _ _ => rfl) op stages 1 false [] s
  simp only [runOp, run]
  cases runStages op stages 1 false [] s with
  | done t rs =>
    obtain ⟨d', h⟩ := hfin rs t
    simp only [RunResult.map, h]
    exact .next (fin rs t) d'
  | raised t => exact .next t d
  | refused r => exact .refused r

theorem alike_busOp (op : Instr) (a : Bool) (stages : List Stage) (s : State) :
    AlikeButDrv (busOp op a stages fin s) (busOp op a stages fin (s.setDrv d)) :=
  .ite (alike_runOp hfin op stages s) (alike_invalidArgument s d)

end

/-- Completing moves DRVSTATE to what it makes of the one it finds. -/
theorem complete_setDrv (f : DrvState → DrvState) (d : DrvState) (s : State) :
    complete f (s.setDrv d) = (complete f s).setDrv (f d) := rfl

theorem finDeviceId_setDrv (rs : Reads) (d : DrvState) (s : State) :
    ∃ d', finDeviceId rs (s.setDrv d) = (finDeviceId rs s).setDrv d' := by
  by_cases h : readByteAt rs 0 = s.cfg.whoamiExpected
  · rw [finDeviceId_match h, finDeviceId_match (s := s.setDrv d) h]
    exact ⟨drvAdvance [1] 2 d, rfl⟩
  · rw [finDeviceId_mismatch h, finDeviceId_mismatch (s := s.setDrv d) h]
    exact ⟨d, rfl⟩

/-- From any other DRVSTATE an operation answers alike. -/
theorem alike_exec (i : Instr) (s : State) (d : DrvState) : AlikeButDrv (exec i s) (exec i (s.setDrv d)) := by
  have rejected := alike_invalidArgument s d
  have completes : ∀ f : DrvState → DrvState, ∀ (_ : Reads) (t : State),
      ∃ d', complete f (t.setDrv d) = (complete f t).setDrv d' := fun f _ t => ⟨f d, complete_setDrv f d t⟩
  cases i <;> simp only [exec]
  case delay ms => exact alike_runOp (completes id) _ _ s
  case create bus a =>
    exact .ite rejected (.ite (.next (complete (fun _ => .unconfigured) (s.setHandle _)) .unconfigured) rejected)
  case release => exact .ite (.next (complete (fun _ => .noHandle) (s.setHandle _)) .noHandle) rejected
  case elevation => exact .next _ d
  case azimuth => exact .next _ d
  case getDeviceId => exact alike_busOp (fun rs t => finDeviceId_setDrv rs d t) _ _ _ s
  case readAux a n =>
    exact .ite (.refused _) (alike_busOp (completes id) _ _ (readAuxStages s.cfg a n) s)
  case auxInit => exact .ite (.refused _) (alike_busOp (completes drvConfigured) _ _ (auxInitStages s.cfg) s)
  all_goals exact alike_busOp (fun _ _ => ⟨_, rfl⟩) _ _ _ s

/-- Settles O14: only the end of a step list, CREATE and RELEASE write DRVSTATE, and nothing reads it. -/
theorem driverStateTransitions : Obligations.DriverStateTransitions := fun i s =>
  ⟨fun _ he => drvMoved_exec he, fun d => alike_exec i s d⟩

/-! ### The handle -/

/-- The address byte holds the 7-bit address in bits 7:1 (R105). -/
theorem addr7Of_handleAddr8 (a : Byte) : addr7Of (handleAddr8 a) = a.setWidth 7 := by revert a; decide

/-- Settles O30: CREATE writes HANDLE, DRVSTATE and STATUS, and an illegal form only STATUS. -/
theorem createMakesTheHandle : Obligations.CreateMakesTheHandle := by
  intro bus addr7 s
  refine ⟨fun hv ha => ?legal, fun h => ?illegal⟩
  case legal =>
    have created : exec (.create bus addr7) s =
        .next (complete (fun _ => .unconfigured) (s.setHandle ⟨true, bus, handleAddr8 addr7⟩)) := by
      simp [exec, execCreate, hv, addr7Ok, ha]
    exact ⟨_, created, rfl, getLsbD_zero_handleAddr8 addr7, addr7Of_handleAddr8 addr7, rfl, rfl,
      ⟨rfl, rfl, rfl, rfl, rfl, rfl, rfl, rfl, rfl⟩, rfl, rfl⟩
  case illegal =>
    have rejected : exec (.create bus addr7) s = .next (invalidArgument s) := by
      rcases h with hv | ha
      · simp [exec, execCreate, hv]
      · simp [exec, execCreate, addr7Ok, BitVec.not_le.mpr ha]
    exact rejected

/-- Settles O31: RELEASE writes HANDLE.valid, DRVSTATE and STATUS, and without a handle only STATUS. -/
theorem releaseDestroysTheHandle : Obligations.ReleaseDestroysTheHandle := by
  intro s
  refine ⟨fun hv => ?held, fun hv => ?none⟩
  case held =>
    have released : exec .release s =
        .next (complete (fun _ => .noHandle) (s.setHandle { s.handle with valid := false })) := by
      simp [exec, execRelease, hv]
    exact ⟨_, released, rfl, rfl, rfl, ⟨rfl, rfl, rfl, rfl, rfl, rfl, rfl, rfl, rfl⟩, rfl, rfl⟩
  case none =>
    have rejected : exec .release s = .next (invalidArgument s) := by simp [exec, execRelease, hv]
    exact rejected

end Sys2Proof.Machine
end

section
/-! PROOF. The operations of the device driver that complete (41_device_driver.md R142 to R156): what a completed
operation leaves, said once, and the shapes of their step lists. -/

namespace Sys2Proof.Machine

/-! ### Where their registers lie -/

theorem regAt_gyrocfg (c : Config) : regAt c 2#2 oGYROCFG = some .gyrocfg := by simp [regAt]

theorem regAt_accelcfg (c : Config) : regAt c 2#2 oACCELCFG = some .accelcfg := by simp [regAt, oACCELCFG, oGYROCFG]

/-- A register that a read returns as stored, and that the engine does not look at. -/
def RegName.inert (n : RegName) : Bool := decide (n ∉ [.ident, .sensor, .mstctl, .ptCtrl, .ptAddr])

theorem RegName.inert_iff {n : RegName} :
    n.inert = true ↔ n ≠ .ident ∧ n ≠ .sensor ∧ n ≠ .mstctl ∧ n ≠ .ptCtrl ∧ n ≠ .ptAddr := by
  simp [RegName.inert]

/-! ### A step list that is done -/

/-- The end of an operation writes nothing of the device, the target and the two records of the past. -/
theorem bus_finishOf (i : Instr) (rs : Reads) (s : State) : (finishOf i rs s).dev = s.dev ∧
    (finishOf i rs s).mag = s.mag ∧ (finishOf i rs s).hist = s.hist ∧ (finishOf i rs s).trace = s.trace := by
  cases i
  case getDeviceId =>
    rw [finishOf]
    by_cases h : readByteAt rs 0 = s.cfg.whoamiExpected
    · rw [finDeviceId_match h]; exact ⟨rfl, rfl, rfl, rfl⟩
    · rw [finDeviceId_mismatch h]; exact ⟨rfl, rfl, rfl, rfl⟩
  all_goals exact ⟨rfl, rfl, rfl, rfl⟩

theorem SameDeviceBut.of_eq {w : List Nat} {s t u : State} (h : SameDeviceBut w s t) (hd : u.dev = t.dev)
    (hm : u.mag = t.mag) (hh : u.hist = t.hist) : SameDeviceBut w s u where
  armed hw := ⟨by rw [hd]; exact (h.armed hw).arm, by rw [hd, hh]; exact (h.armed hw).disarm⟩
  regs a hw he := by rw [State.reg, hd]; exact h.regs a hw he
  devSettling := by rw [hd]; exact h.devSettling
  mstSettling := by rw [hd]; exact h.mstSettling
  engineOff := by rw [hd, hm, hh]; exact h.engineOff

/-- The step list of operation `i`, run from `s`, is done at `u`: its reads returned `rs`, its transactions are `x`, it
wrote at most the registers at `w`, and the channel was disarmed only by a transfer. -/
structure Done (i : Instr) (w : List Nat) (x : List Txn) (rs : Reads) (s u : State) : Prop where
  run : runStages i (stagesOf s.cfg i) 1 false [] s = .done u rs
  stage : StageRel s.engineAddrs w x s u
  engine : EngineSame s u
  armed : ArmedKept s u

section
variable {i : Instr} {w : List Nat} {x : List Txn} {rs : Reads} {s u : State} (h : Done i w x rs s u)
include h

theorem Done.exec (hu : usesBus i = true) (ha : admitted s.cfg i = true) (hv : s.handle.valid = true) :
    exec i s = .next (finishOf i rs u) := (exec_eq_runOp hu ha hv).trans (runOp_done h.run)

theorem Done.trace : (finishOf i rs u).trace = s.trace ++ x := by
  obtain ⟨-, -, -, ht⟩ := bus_finishOf i rs u
  exact ht.trans h.stage.trace

theorem Done.same : SameSequencer s (finishOf i rs u) := by
  obtain ⟨cfg, host, handle, fus⟩ := sameSequencer_finishOf i rs u
  exact ⟨cfg.trans h.stage.same.cfg, host.trans h.stage.same.host, handle.trans h.stage.same.handle,
    fus.trans h.stage.same.fus⟩

theorem Done.device : SameDeviceBut w s (finishOf i rs u) := by
  obtain ⟨hd, hm, hh, -⟩ := bus_finishOf i rs u
  exact (h.stage.sameDevice h.engine fun _ => h.armed).of_eq hd hm hh

end

/-! ### The shapes of the step lists -/

section
variable {i : Instr} {s : State} {o bank : Byte} {b : BitVec 2} {n : RegName}
  (hb : (selByte bank).extractLsb' 4 2 = b) (hr : regAt s.cfg b o = some n) (hn : n.inert = true)
  (he : regAddr b o ∉ shadowAddrs)
include hb hr hn he

/-- A select write and a read-modify-write of one register, and any further steps. -/
theorem go_selectUpdate {m : Nat} {f : Byte → Byte} {v : Byte} (rest : List Stage) (g : Go (m + 3) s)
    (hv : f (s.reg (regAddr b o)) = v)
    (hd : ∀ t : State, t.cfg = s.cfg → t.bank = b → devWrite o v t = .ok (storeReg b o v t)) :
    ∃ u, runStages i (selStage bank :: (rmwStages o 0 f ++ rest)) 1 false [] s =
        runStages i rest 4 true [[s.reg (regAddr b o)]] u ∧
      StageRel s.engineAddrs [regAddr b o]
        [s.okW 0x7F#8 (selByte bank), s.okR o 1 [s.reg (regAddr b o)], s.okW o v] s u ∧
      EngineSame s u ∧ Go m u ∧ u.dev.banksel = selByte bank ∧ u.reg (regAddr b o) = v ∧ ArmedKept s u := by
  subst hv
  obtain ⟨h1, h2, h3, h4, h5⟩ := RegName.inert_iff.mp hn
  exact go_selectRmw rest g hb hr h1 h2 h3 h4 h5 he hd

/-- An operation that completes after a select write and a read-modify-write of one register: what it leaves. -/
theorem exec_update {f : Byte → Byte} {v : Byte} {d : DrvState → DrvState} (hu : usesBus i = true)
    (ha : admitted s.cfg i = true) (g : Go 3 s) (hst : stagesOf s.cfg i = selStage bank :: rmwStages o 0 f)
    (hfin : finishOf i = fun _ => complete d) (hv : f (s.reg (regAddr b o)) = v)
    (hd : ∀ t : State, t.cfg = s.cfg → t.bank = b → devWrite o v t = .ok (storeReg b o v t)) :
    ∃ t, exec i s = .next t ∧ t.status = Status.ok ∧
      t.trace = s.trace ++ [s.okW 0x7F#8 (selByte bank), s.okR o 1 [s.reg (regAddr b o)], s.okW o v] ∧
      t.reg (regAddr b o) = v ∧ t.dev.banksel = selByte bank ∧ SameSequencer s t ∧ t.res = s.res ∧ t.drv = d s.drv ∧
      SameDeviceBut [regAddr b o] s t := by
  obtain ⟨u, run, stage, engine, -, sel, stored, armed⟩ := go_selectUpdate (i := i) hb hr hn he [] g hv hd
  have done : Done i _ _ _ s u := ⟨hst ▸ run, stage, engine, armed⟩
  have ends := done.exec hu ha g.valid
  have trace := done.trace
  have same := done.same
  have device := done.device
  rw [hfin] at ends trace same device
  exact ⟨_, ends, rfl, trace, stored, sel, same, stage.res, congrArg d stage.drv, device⟩

end

/-! ### RESET, WAKE and SLEEP -/

theorem regAddr_pwr_not_shadow : regAddr 0#2 oPWR ∉ shadowAddrs := by decide

/-- A write of `PWR` without the reset bit only stores. -/
theorem devWrite_pwr_low {v : Byte} (hv : v.getLsbD 7 = false) (t : State) (hb : t.bank = 0#2) :
    devWrite oPWR v t = .ok (storeReg 0#2 oPWR v t) := by
  rw [← writePwr_of_low hv, devWrite, if_neg (by decide), hb, regAt_pwr]

/-- A write of `PWR` with the reset bit resets the device (R72(b)). -/
theorem devWrite_pwr_high {v : Byte} (hv : v.getLsbD 7 = true) (t : State) (hb : t.bank = 0#2) :
    devWrite oPWR v t = .ok (deviceReset t) := by
  rw [← writePwr_of_high hv, devWrite, if_neg (by decide), hb, regAt_pwr]

theorem pwrReset_bit7 (v : Byte) : (pwrReset v).getLsbD 7 = true := by simp [pwrReset]

theorem pwrWake_bit7 {v : Byte} (h : v.getLsbD 7 = false) : (pwrWake v).getLsbD 7 = false := by
  rw [pwrWake, BitVec.getLsbD_and, h, Bool.false_and]

theorem pwrSleep_bit7 {v : Byte} (h : v.getLsbD 7 = false) : (pwrSleep v).getLsbD 7 = false := by
  rw [pwrSleep, BitVec.getLsbD_or, h]; rfl

/-- Settles O33: both are a read-modify-write of `PWR`, whose reset bit reads 0 and stays 0. -/
theorem wakeAndSleepWriteTheSleepBit : Obligations.WakeAndSleepWriteTheSleepBit := by
  intro s hinv hcalm hready
  have go := Go.of_ready hinv hcalm hready
  refine ⟨?wake, ?sleep⟩
  case wake =>
    obtain ⟨t, ends, status, trace, stored, sel, same, res, -, device⟩ :=
      exec_update (i := .wake) (bank := 0#8) (b := 0#2) (by decide) (regAt_pwr s.cfg) rfl regAddr_pwr_not_shadow rfl rfl
        go rfl rfl rfl fun t _ hb => devWrite_pwr_low (pwrWake_bit7 hinv.devRst) t hb
    exact ⟨t, ends, status, trace, stored, sel, same, res, device⟩
  case sleep =>
    obtain ⟨t, ends, status, trace, stored, sel, same, res, drv, device⟩ :=
      exec_update (i := .sleep) (bank := 0#8) (b := 0#2) (by decide) (regAt_pwr s.cfg) rfl regAddr_pwr_not_shadow rfl
        rfl go rfl rfl rfl fun t _ hb => devWrite_pwr_low (pwrSleep_bit7 hinv.devRst) t hb
    exact ⟨t, ends, status, trace, stored, drv, sel, same, res, device⟩

/-- The write of `PWR` that resets the device, as the last step. -/
theorem go_deviceReset {op : Instr} {v : Reads → Byte} {k : Nat} {d : Bool} {rs : Reads} {n : Nat} {s : State}
    (g : Go (n + 1) s) (hb : s.bank = 0#2) (hv : (v rs).getLsbD 7 = true) :
    ∃ u, runStages op [.write oPWR v] k d rs s =
        .done ((deviceReset u.afterTxn).record (s.okW oPWR (v rs))) rs ∧
      StageRel s.engineAddrs [] [] s u ∧ EngineSame s u ∧ Go n u.afterTxn := by
  obtain ⟨u, tick, -, stage, engine, gu, -, sel⟩ := go_tick g (.busy op k)
  obtain ⟨hs, hf, -, -, -⟩ := ready_succ gu.ready
  have bank : u.afterTxn.bank = 0#2 := by rw [← hb, State.afterTxn_bank, State.bank, sel]; rfl
  refine ⟨u, ?_, stage, engine, gu.wf, calm_congr gu.calm rfl rfl rfl id, ready_afterTxn gu.ready⟩
  rw [runStages_cons_ok tick (stageStep_write_ok hs hf (devWrite_pwr_high hv u.afterTxn bank)), runStages_nil,
    State.okW, stage.same.handle]

/-- The engine is disabled, and the channel off, after a device reset (R261). -/
theorem deviceReset_off {s : State} (w : Memory.wf s.dev.regs = true) :
    (deviceReset s).mstEn = false ∧ (deviceReset s).reg aPT_CTRL = 0#8 := by
  obtain ⟨drawn, hregs, hwf, -, -⟩ := reg_deviceReset w
  have reg : ∀ a, (deviceReset s).reg a = _ := fun a => by rw [State.reg, hregs, get_resetRegs hwf]
  refine ⟨?_, (reg _).trans (if_pos rfl)⟩
  rw [State.mstEn, reg, if_neg (by decide), if_neg (by decide), if_pos rfl]
  simp

/-- RESET ends with a device reset, after the ticks before its last step: what that leaves. -/
theorem exec_reset {s : State} (g : Go 3 s) : ∃ r,
    exec .reset s = .next (complete (fun _ => .reset 0) (r.record (s.okW oPWR (pwrReset (s.reg aPWR))))) ∧
    r.trace = s.trace ++ [s.okW 0x7F#8 (selByte 0#8), s.okR oPWR 1 [s.reg aPWR]] ∧
    SameSequencer s r ∧ r.res = s.res ∧
    r.dev.devSettling = true ∧ r.dev.mstSettling = false ∧ r.dev.auxArmed = false ∧
    r.mstEn = false ∧ r.reg aPT_CTRL = 0#8 := by
  obtain ⟨t, read, stage, engine, gt, sel, -, -⟩ := go_selectRead (op := .reset) (bank := 0#8)
    [.write oPWR fun rs => pwrReset (readByteAt rs 0)] g 1 [] (b := 0#2) (by decide) (regAt_pwr s.cfg) nofun nofun nofun
    regAddr_pwr_not_shadow
  obtain ⟨u, write, ticked, -, gu⟩ := go_deviceReset (op := .reset)
    (v := fun rs => pwrReset (readByteAt rs 0)) (k := 3) (d := false) (rs := [[s.reg aPWR]]) (n := 0) gt
    ((bank_of_banksel sel).trans (by decide)) (pwrReset_bit7 _)
  rw [engine.engineAddrs] at ticked
  have before := stage.trans ticked
  have okW : t.okW oPWR (pwrReset (s.reg aPWR)) = s.okW oPWR (pwrReset (s.reg aPWR)) := by
    rw [State.okW, State.okW, stage.same.handle]
  obtain ⟨cfg, host, handle, fus⟩ := before.same
  obtain ⟨off, channel⟩ := deviceReset_off gu.wf
  refine ⟨deviceReset u.afterTxn, ?_, before.trace, ⟨cfg, host, handle, fus⟩, before.res, rfl, rfl, rfl, off, channel⟩
  rw [← okW]
  exact (exec_eq_runOp rfl rfl g.valid).trans (runOp_done (read.trans write))

/-- Settles O32: the byte read from `PWR` is written back with its reset bit, and the device reset leaves what R261
says; that both reset bits read 0, and that with the engine off nothing reaches the target, hold of every operation. -/
theorem resetResetsTheDevice : Obligations.ResetResetsTheDevice := by
  intro s hinv hcalm hready
  obtain ⟨r, ends, before, ⟨cfg, host, handle, fus⟩, res, window, master, armed, off, channel⟩ :=
    exec_reset (Go.of_ready hinv hcalm hready)
  obtain ⟨inv, frame⟩ := frame_exec hinv.devInv ends
  have trace : r.trace ++ [s.okW oPWR (pwrReset (s.reg aPWR))] = s.trace ++ [s.okW 0x7F#8 (selByte 0#8),
      s.okR oPWR 1 [s.reg aPWR], s.okW oPWR (pwrReset (s.reg aPWR))] := by
    rw [before, List.append_assoc]; rfl
  refine ⟨_, ends, rfl, rfl, trace, window, master, armed, off, inv.mstRst, inv.devRst, channel, fun hoff => ?_,
    ⟨cfg, host, handle, fus⟩, res⟩
  obtain ⟨hist, mag, -⟩ := frame.quiet hoff nofun
  exact ⟨mag, hist⟩

/-! ### Range and filter configuration -/

/-- The registers of bank 2 lie above the shadow block. -/
theorem regAddr_bank2_not_shadow (o : Byte) : regAddr 2#2 o ∉ shadowAddrs := by
  simp only [mem_shadowAddrs, regAddr, aSHADOW]
  have : (2#2).toNat = 2 := rfl
  omega

theorem and_three_of_le {fs : Byte} (h : fs ≤ 3#8) : fs &&& 0x03#8 = fs := by revert fs; decide

theorem and_seven_of_le {c : Byte} (h : c ≤ 7#8) : c &&& 0x07#8 = c := by revert c; decide

theorem and_one_of_le {en : Byte} (h : en ≤ 1#8) : en &&& 0x01#8 = en := by revert en; decide

theorem insFs_of_le (v : Byte) {fs : Byte} (h : fs ≤ 3#8) : insFs v fs = (v &&& 0xF9#8) ||| (fs <<< 1) := by
  rw [insFs, and_three_of_le h]

theorem insCut_of_le (v : Byte) {c : Byte} (h : c ≤ 7#8) : insCut v c = (v &&& 0xC7#8) ||| (c <<< 3) := by
  rw [insCut, and_seven_of_le h]

theorem insEn_of_le (v : Byte) {en : Byte} (h : en ≤ 1#8) : insEn v en = (v &&& 0xFE#8) ||| en := by
  rw [insEn, and_one_of_le h]

/-- Settles O35: both are a read-modify-write of their configuration register, in bank 2. -/
theorem setFullScaleWritesTheRange : Obligations.SetFullScaleWritesTheRange := by
  intro fs s hfs hinv hcalm hready
  have go := Go.of_ready hinv hcalm hready
  have gyro : admitted s.cfg (.setGyroFs fs) = true := by simp [admitted, Instr.wf, hfs]
  have accel : admitted s.cfg (.setAccelFs fs) = true := by simp [admitted, Instr.wf, hfs]
  refine ⟨?gyro, ?accel⟩
  case gyro =>
    obtain ⟨t, ends, status, trace, stored, sel, same, res, -, device⟩ :=
      exec_update (i := .setGyroFs fs) (bank := 2#8) (b := 2#2) (by decide) (regAt_gyrocfg s.cfg) rfl
        (regAddr_bank2_not_shadow _) rfl gyro go rfl rfl (insFs_of_le _ hfs)
        (devWrite_plain_at (regAt_gyrocfg s.cfg) rfl _)
    exact ⟨t, ends, status, trace, stored, sel, same, res, device⟩
  case accel =>
    obtain ⟨t, ends, status, trace, stored, sel, same, res, -, device⟩ :=
      exec_update (i := .setAccelFs fs) (bank := 2#8) (b := 2#2) (by decide) (regAt_accelcfg s.cfg) rfl
        (regAddr_bank2_not_shadow _) rfl accel go rfl rfl (insFs_of_le _ hfs)
        (devWrite_plain_at (regAt_accelcfg s.cfg) rfl _)
    exact ⟨t, ends, status, trace, stored, sel, same, res, device⟩

/-- Settles O37: a read-modify-write of the configuration register that the sensor operand selects, in bank 2. -/
theorem setDlpfWritesTheCutoff : Obligations.SetDlpfWritesTheCutoff := by
  intro sensor cutoff s hsensor hcut hinv hcalm hready o a hsel
  have go := Go.of_ready hinv hcalm hready
  have adm : admitted s.cfg (.setDlpf sensor cutoff) = true := by simp [admitted, Instr.wf, hsensor, hcut]
  obtain ⟨n, hr, hn, hplain, hoff, rfl⟩ : ∃ n, regAt s.cfg 2#2 o = some n ∧ n.inert = true ∧ n.plain = true ∧
      dlpfOffset sensor = o ∧ a = regAddr 2#2 o := by
    rcases hsel with ⟨rfl, rfl, rfl⟩ | ⟨rfl, rfl, rfl⟩
    · exact ⟨_, regAt_accelcfg s.cfg, rfl, rfl, rfl, rfl⟩
    · exact ⟨_, regAt_gyrocfg s.cfg, rfl, rfl, rfl, rfl⟩
  exact exec_update (i := .setDlpf sensor cutoff) (bank := 2#8) (by decide) hr hn (regAddr_bank2_not_shadow o) rfl adm go
    (by rw [stagesOf, hoff]) rfl (insCut_of_le _ hcut) (devWrite_plain_at hr hplain _)

/-- The first three steps of ENABLEDLPF: the accelerometer's bit. -/
theorem go_enableDlpf {m : Nat} {en : Byte} {s : State} (hen : en ≤ 1#8) (g : Go (m + 3) s) :
    ∃ u, runStages (.enableDlpf en) (stagesOf s.cfg (.enableDlpf en)) 1 false [] s =
        runStages (.enableDlpf en) (rmwStages oGYROCFG 1 fun v => insEn v en) 4 true [[s.reg aACCELCFG]] u ∧
      StageRel s.engineAddrs [aACCELCFG] [s.okW 0x7F#8 0x20#8, s.okR 0x14#8 1 [s.reg aACCELCFG],
        s.okW 0x14#8 ((s.reg aACCELCFG &&& 0xFE#8) ||| en)] s u ∧
      EngineSame s u ∧ Go m u ∧ u.dev.banksel = 0x20#8 ∧
      u.reg aACCELCFG = (s.reg aACCELCFG &&& 0xFE#8) ||| en ∧ ArmedKept s u :=
  go_selectUpdate (i := .enableDlpf en) (bank := 2#8) (by decide) (regAt_accelcfg s.cfg) rfl
    (regAddr_bank2_not_shadow _) _ g (insEn_of_le _ hen) (devWrite_plain_at (regAt_accelcfg s.cfg) rfl _)

/-- The engine writes no configuration register. -/
theorem StageRel.gyrocfg {x : List Txn} {s u : State} (h : StageRel s.engineAddrs [aACCELCFG] x s u) :
    u.reg aGYROCFG = s.reg aGYROCFG := h.regs _ (by decide) (engineAddrs_subset (by decide))

theorem admitted_enableDlpf {en : Byte} (c : Config) (hen : en ≤ 1#8) : admitted c (.enableDlpf en) = true := by
  simp [admitted, Instr.wf, hen]

/-- Settles O38: the accelerometer's read-modify-write, then the gyroscope's, in one bank. -/
theorem enableDlpfWritesBothBits : Obligations.EnableDlpfWritesBothBits := by
  intro en s hen hinv hcalm hready
  have go := Go.of_ready hinv hcalm hready
  obtain ⟨t, first, stage, engine, gt, sel, accel, armed⟩ := go_enableDlpf (m := 2) hen go
  obtain ⟨u, second, stage', engine', -, sel', gyro, armed'⟩ := go_rmw (op := .enableDlpf en) (rest := []) (k := 4)
    (d := true) (rs := [[s.reg aACCELCFG]]) (f := fun v => insEn v en) (o := oGYROCFG) (b := 2#2) (nm := .gyrocfg) gt
    ((bank_of_banksel sel).trans (by decide)) (regAt_gyrocfg t.cfg) nofun nofun nofun nofun nofun
    (regAddr_bank2_not_shadow _) (devWrite_plain_at (regAt_gyrocfg t.cfg) rfl _)
  have before : t.reg (regAddr 2#2 oGYROCFG) = s.reg aGYROCFG := stage.gyrocfg
  rw [before] at second
  simp only [before, insEn_of_le _ hen, State.okR, State.okW, stage.same.handle] at stage' gyro
  rw [engine.engineAddrs] at stage'
  have done : Done (.enableDlpf en) [aACCELCFG, aGYROCFG] _ _ s u :=
    ⟨first.trans second, stage.trans stage', engine.trans engine', armed.next armed' engine engine'⟩
  have kept : u.reg aACCELCFG = t.reg aACCELCFG := stage'.regs _ (by decide) (engineAddrs_subset (by decide))
  exact ⟨_, done.exec rfl (admitted_enableDlpf s.cfg hen) go.valid, rfl, done.trace, kept.trans accel, gyro,
    sel'.trans sel, done.same, done.stage.res, done.stage.drv, done.device⟩

/-- What a step list has run so far decides the transport's next answer. -/
theorem StageRel.txnAnswer {e w : List Nat} {x : List Txn} {s t : State} (h : StageRel e w x s t) :
    t.txnAnswer = ((Oracle.take Config.freeTxn x.length s.env.txn).2.next Config.freeTxn).1 := by
  rw [State.txnAnswer, h.txn]

theorem StageRel.addressed {e w : List Nat} {x : List Txn} {s t : State} (h : StageRel e w x s t) :
    t.addressed = s.addressed := by
  rw [State.addressed, h.same.handle, h.same.cfg, State.addressed]

/-- Settles O26: three steps succeed, the accelerometer's write among them, and the read of the gyroscope's register
raises; nothing is undone. -/
theorem enableDlpfFailsPartway : Obligations.EnableDlpfFailsPartway := by
  intro en s hen hinv hcalm hready hfails
  have go := Go.of_ready hinv hcalm hready
  obtain ⟨t, first, stage, -, gt, -, accel, -⟩ := go_enableDlpf (m := 0) hen go
  obtain ⟨window, -⟩ := ready_succ go.ready
  have answer : t.txnAnswer = s.afterTxn.afterTxn.afterTxn.txnAnswer := stage.txnAnswer
  have fails : t.txnFails = true := by
    rw [State.txnFails, answer, stage.addressed]; exact hfails
  obtain ⟨u, x, -, -, ticked, raised, -, -⟩ := go_failed (op := .enableDlpf en) (k := 4) (d := true)
    (rs := [[s.reg aACCELCFG]]) (st := .read oGYROCFG 1) (rest := [.write oGYROCFG fun rs => insEn (readByteAt rs 1) en])
    gt.wf gt.calm (stage.devSettling.trans window) fails nofun
  have kept : ∀ a, a ∉ shadowAddrs → u.reg a = t.reg a := fun a ha =>
    ticked.regs a List.not_mem_nil (engineAddrs_subset ha)
  have ends : exec (.enableDlpf en) s = .next (raise (busFail true) 4 (some t.txnAnswer.err) (u.afterTxn.record x)) :=
    (exec_eq_runOp rfl (admitted_enableDlpf s.cfg hen) go.valid).trans (runOp_raised (first.trans raised))
  exact ⟨_, t.txnAnswer.err, ends, rfl, congrArg TxnAnswer.err answer, (kept _ (by decide)).trans accel,
    (kept _ (by decide)).trans stage.gyrocfg, ticked.drv.trans stage.drv⟩

/-! ### GETGYROFS, GETACCELFS and GETDEVICEID -/

/-- A read of the range field of a configuration register in bank 2: what it leaves. -/
theorem exec_readFs {i : Instr} {s : State} {o : Byte} {n : RegName} (hr : regAt s.cfg 2#2 o = some n)
    (hn : n.inert = true) (hu : usesBus i = true) (ha : admitted s.cfg i = true) (g : Go 2 s)
    (hst : stagesOf s.cfg i = [selStage 2#8, .read o 1]) (hfin : finishOf i = finFs) :
    ∃ t, exec i s = .next t ∧ t.status = Status.ok ∧
      t.trace = s.trace ++ [s.okW 0x7F#8 0x20#8, s.okR o 1 [s.reg (regAddr 2#2 o)]] ∧
      t.res = { s.res with resFs := (s.reg (regAddr 2#2 o)).extractLsb' 1 2 } ∧ t.dev.banksel = 0x20#8 ∧
      SameSequencer s t ∧ t.drv = s.drv ∧ SameDeviceBut [] s t := by
  obtain ⟨h1, h2, h3, -, -⟩ := RegName.inert_iff.mp hn
  obtain ⟨u, run, stage, engine, -, sel, -, armed⟩ := go_selectRead (op := i) (bank := 2#8) [] g 1 [] (by decide) hr h1
    h2 h3 (regAddr_bank2_not_shadow o)
  have done : Done i _ _ _ s u := ⟨hst ▸ run, stage, engine, armed⟩
  have ends := done.exec hu ha g.valid
  have trace := done.trace
  have same := done.same
  have device := done.device
  rw [hfin] at ends trace same device
  have res : (finFs [[s.reg (regAddr 2#2 o)]] u).res =
      { s.res with resFs := (s.reg (regAddr 2#2 o)).extractLsb' 1 2 } := by
    rw [← stage.res, ← extFs_eq_extract]; rfl
  exact ⟨_, ends, rfl, trace, res, sel, same, stage.drv, device⟩

/-- Settles O36: both read their configuration register, in bank 2. -/
theorem getFullScaleReadsTheRange : Obligations.GetFullScaleReadsTheRange := by
  intro s hinv hcalm hready
  have go := Go.of_ready hinv hcalm hready
  exact ⟨exec_readFs (i := .getGyroFs) (regAt_gyrocfg s.cfg) rfl rfl rfl go rfl rfl,
    exec_readFs (i := .getAccelFs) (regAt_accelcfg s.cfg) rfl rfl rfl go rfl rfl⟩

/-- The step list of GETDEVICEID reads the device's identity byte. -/
theorem done_getDeviceId {s : State} (g : Go 2 s) : ∃ u,
    Done .getDeviceId [] [s.okW 0x7F#8 0x00#8, s.okR 0x00#8 1 [s.cfg.whoamiDevice]] [[s.cfg.whoamiDevice]] s u ∧
      u.dev.banksel = 0x00#8 := by
  obtain ⟨t, select, stage, engine, gt, sel, -, armed⟩ := go_select (op := .getDeviceId) (rest := [.read oIDENT 1])
    (k := 1) (d := false) (rs := []) 0#8 g
  have bank : t.bank = 0#2 := (bank_of_banksel sel).trans (by decide)
  have read : ∀ v, EngineRel (t.setActivity (.busy .getDeviceId 2)) v →
      devRead oIDENT 1 v.afterTxn = .ok ([s.cfg.whoamiDevice], v.afterTxn) := by
    intro v r
    have vbank : v.afterTxn.bank = 0#2 := (congrArg (BitVec.extractLsb' 4 2) r.banksel).trans bank
    have vcfg : v.afterTxn.cfg = s.cfg := r.cfg.trans stage.same.cfg
    rw [devRead_of_readReg (nm := .ident) (by rw [vbank]; exact regAt_ident _), readReg, vcfg]
  obtain ⟨v, u, w, bs, r, -, hread, run, stage', engine', -, -, sel', armed', -⟩ := go_read (op := .getDeviceId)
    (rest := []) (k := 2) (d := false) (rs := []) gt fun v r => ⟨_, read v r⟩
  obtain rfl : [s.cfg.whoamiDevice] = bs := by rw [read v r] at hread; cases hread; rfl
  simp only [State.okR, stage.same.handle] at stage'
  rw [engine.engineAddrs] at stage'
  exact ⟨u, ⟨select.trans run, stage.trans stage', engine.trans engine', armed.next armed' engine engine'⟩,
    sel'.trans sel⟩

theorem finDeviceId_res (rs : Reads) (s : State) :
    (finDeviceId rs s).res = { s.res with resByte := readByteAt rs 0 } := by
  by_cases h : readByteAt rs 0 = s.cfg.whoamiExpected
  · rw [finDeviceId_match h]; rfl
  · rw [finDeviceId_mismatch h]; rfl

theorem finDeviceId_status (rs : Reads) (s : State) : (finDeviceId rs s).status =
    if readByteAt rs 0 = s.cfg.whoamiExpected then Status.ok else Status.err .identityMismatch 2 none := by
  by_cases h : readByteAt rs 0 = s.cfg.whoamiExpected
  · rw [finDeviceId_match h, if_pos h]; rfl
  · rw [finDeviceId_mismatch h, if_neg h]; rfl

/-- Settles O34: the byte read is the device's identity, which the end of the operation stores and compares. -/
theorem getDeviceIdReadsAndCompares : Obligations.GetDeviceIdReadsAndCompares := by
  intro s hinv hcalm hready
  have go := Go.of_ready hinv hcalm hready
  obtain ⟨u, done, sel⟩ := done_getDeviceId go
  obtain ⟨dev, -, -, -⟩ := bus_finishOf .getDeviceId [[s.cfg.whoamiDevice]] u
  refine ⟨_, done.exec rfl rfl go.valid, ?status, done.trace, ?res, (congrArg Dev.banksel dev).trans sel, done.same,
    done.device⟩
  case status =>
    rw [← done.stage.same.cfg]
    exact finDeviceId_status [[u.cfg.whoamiDevice]] u
  case res =>
    rw [← done.stage.res]
    exact finDeviceId_res [[s.cfg.whoamiDevice]] u

/-! ### Sensor reads -/

/-- The step list of a raw read takes the next six bytes of the SENS oracle. -/
theorem done_sensors {i : Instr} {s : State} {base : Byte} (g : Go 2 s)
    (hst : stagesOf s.cfg i = [selStage 0#8, .read base 6]) (h1 : 0x2D#8 ≤ base) (h2 : base ≤ 0x33#8) : ∃ u,
    Done i [] [s.okW 0x7F#8 0x00#8, s.okR base 6 (s.sensBytes 6)] [s.sensBytes 6] s u ∧ u.dev.banksel = 0x00#8 := by
  obtain ⟨u, run, stage, engine, -, sel, armed⟩ := go_selectSensors (op := i) g 1 [] h1 h2
  exact ⟨u, ⟨hst ▸ run, stage, engine, armed⟩, sel⟩

/-- Settles O39: both are one burst read of the sensor block, whose six bytes are decoded in pairs. -/
theorem rawSensorReadsDecodeBigEndian : Obligations.RawSensorReadsDecodeBigEndian := by
  intro s hinv hcalm hready
  have go := Go.of_ready hinv hcalm hready
  refine ⟨fun h1 h2 => ?accel, fun h1 h2 => ?gyro⟩
  case accel =>
    obtain ⟨u, done, sel⟩ := done_sensors (i := .getRawAccel) go rfl h1 h2
    have res : (finRawAccel [s.sensBytes 6] u).res = { s.res with accRaw := beTriple (s.sensBytes 6) } := by
      rw [← done.stage.res]; rfl
    exact ⟨_, done.exec rfl rfl go.valid, rfl, done.trace, res, sel, done.same, done.stage.drv, done.device⟩
  case gyro =>
    obtain ⟨u, done, sel⟩ := done_sensors (i := .getRawGyro) go rfl h1 h2
    have res : (finRawGyro [s.sensBytes 6] u).res = { s.res with gyrRaw := beTriple (s.sensBytes 6) } := by
      rw [← done.stage.res]; rfl
    exact ⟨_, done.exec rfl rfl go.valid, rfl, done.trace, res, sel, done.same, done.stage.drv, done.device⟩

/-- The step list of a scaled read takes a configuration register of bank 2 and the next six bytes of the SENS
oracle. -/
theorem done_scaled {i : Instr} {s : State} {o base : Byte} {n : RegName} (g : Go 5 s)
    (hr : regAt s.cfg 2#2 o = some n) (hn : n.inert = true)
    (hst : stagesOf s.cfg i = [selStage 0#8, selStage 2#8, .read o 1, selStage 0#8, .read base 6])
    (h1 : 0x2D#8 ≤ base) (h2 : base ≤ 0x33#8) : ∃ u,
    Done i [] [s.okW 0x7F#8 0x00#8, s.okW 0x7F#8 0x20#8, s.okR o 1 [s.reg (regAddr 2#2 o)], s.okW 0x7F#8 0x00#8,
      s.okR base 6 (s.sensBytes 6)] [[s.reg (regAddr 2#2 o)], s.sensBytes 6] s u ∧ u.dev.banksel = 0x00#8 := by
  obtain ⟨n1, n2, n3, -, -⟩ := RegName.inert_iff.mp hn
  have off := regAddr_bank2_not_shadow o
  obtain ⟨t, run, stage, engine, gt, -, sens, armed⟩ := go_select (op := i) (k := 1) (d := false) (rs := [])
    (rest := [selStage 2#8, .read o 1, selStage 0#8, .read base 6]) 0#8 g
  obtain ⟨u, run', stage', engine', gu, -, sens', armed'⟩ := go_selectRead (op := i) (bank := 2#8) (b := 2#2)
    [selStage 0#8, .read base 6] gt 2 [] (by decide) (by rw [stage.same.cfg]; exact hr) n1 n2 n3 off
  obtain ⟨v, run'', stage'', engine'', -, sel, armed''⟩ := go_selectSensors (op := i) gu 4
    ([] ++ [[t.reg (regAddr 2#2 o)]]) h1 h2
  have stored : t.reg (regAddr 2#2 o) = s.reg (regAddr 2#2 o) := stage.regs _ List.not_mem_nil (engineAddrs_subset off)
  have bytes : u.sensBytes 6 = s.sensBytes 6 := by rw [State.sensBytes, sens', sens, State.sensBytes]
  have range := stage.trans (engine.engineAddrs ▸ stage')
  have whole := range.trans ((engine.trans engine').engineAddrs ▸ stage'')
  simp only [stored, bytes, State.okR, State.okW, stage.same.handle, range.same.handle] at whole run' run''
  exact ⟨v, ⟨hst ▸ run.trans (run'.trans run''), whole, (engine.trans engine').trans engine'',
    (armed.next armed' engine engine').next armed'' (engine.trans engine') engine''⟩, sel⟩

/-- A divisor given by the four range codes is the literal that the table of R156 has for the code. -/
theorem lit_of_range {fs : BitVec 2} {x : Flt} {a b c d : Dec} (h0 : fs = 0#2 → x = NUM.lit a)
    (h1 : fs = 1#2 → x = NUM.lit b) (h2 : fs = 2#2 → x = NUM.lit c) (h3 : fs = 3#2 → x = NUM.lit d) :
    x = NUM.lit (if fs = 0#2 then a else if fs = 1#2 then b else if fs = 2#2 then c else d) := by
  rcases bank_cases fs with rfl | rfl | rfl | rfl
  · exact h0 rfl
  · exact h1 rfl
  · exact h2 rfl
  · exact h3 rfl

/-- Settles O40: the range is read before the sample, and selects the divisor of each axis. -/
theorem getAccelScalesTheSample : Obligations.GetAccelScalesTheSample := by
  rintro s hinv hcalm hready hlo hhi fs raw d rfl rfl d0 d1 d2 d3
  have go := Go.of_ready hinv hcalm hready
  obtain rfl : d = NUM.lit (accelDiv _) := lit_of_range d0 d1 d2 d3
  obtain ⟨u, done, sel⟩ := done_scaled (i := .getAccel) go (regAt_accelcfg s.cfg) rfl rfl hlo hhi
  refine ⟨_, done.exec rfl rfl go.valid, rfl, done.trace, ?_, sel, done.same, done.stage.drv, done.device⟩
  rw [← done.stage.res, ← extFs_eq_extract]
  rfl

/-- Settles O41: the range is read before the sample, and selects the divisor of each axis. -/
theorem getGyroScalesTheSample : Obligations.GetGyroScalesTheSample := by
  rintro s hinv hcalm hready hlo hhi fs raw d rfl rfl d0 d1 d2 d3
  have go := Go.of_ready hinv hcalm hready
  obtain rfl : d = NUM.lit (gyroDiv _) := lit_of_range d0 d1 d2 d3
  obtain ⟨u, done, sel⟩ := done_scaled (i := .getGyro) go (regAt_gyrocfg s.cfg) rfl rfl hlo hhi
  refine ⟨_, done.exec rfl rfl go.valid, rfl, done.trace, ?_, sel, done.same, done.stage.drv, done.device⟩
  rw [← done.stage.res, ← extFs_eq_extract]
  rfl

end Sys2Proof.Machine
end

section
/-! PROOF. The operations on the passthrough channel (42_aux_bridge.md R170 to R172): WRITEAUX, whole and failing
partway, READAUX and GETRAWMAG. -/

namespace Sys2Proof.Machine

/-! ### WRITEAUX and READAUX -/

/-- The step list of WRITEAUX is done: what it leaves. -/
theorem done_writeAux {n : Nat} {s : State} (r b : Byte) (g : Go (n + 5) s)
    (hc : channelLegal (s.reg aPT_CTRL) = true) (ht : s.tickEnabled = false ∨ s.writeTurnSafe = true) :
    ∃ u, runStages (.writeAux r b) (stagesOf s.cfg (.writeAux r b)) 1 false [] s = .done u [] ∧
      StageRel s.engineAddrs [aPT_ADDR, aPT_REG, aPT_DO, aPT_CTRL]
        [s.okW oBANKSEL 0x30#8, s.okW oPT_ADDR (ptAddrWrite s.cfg.magAddr7), s.okW oPT_REG r, s.okW oPT_DO b,
          s.okW oPT_CTRL 0x81#8] s u ∧
      EngineSame s u ∧ Go n u ∧ u.dev.banksel = 0x30#8 ∧ u.dev.auxArmed = true ∧
      u.reg aPT_ADDR = ptAddrWrite s.cfg.magAddr7 ∧ u.reg aPT_REG = r ∧ u.reg aPT_DO = b ∧ u.reg aPT_CTRL = 0x81#8 :=
  go_writeAux (op := .writeAux r b) (rest := []) (k := 1) (d := false) (rs := []) r b g hc ht

/-- The step list of READAUX is done: what it leaves. -/
theorem done_readAux {n : Nat} {s : State} (r : Byte) {m : Byte} (g : Go (n + 4) s)
    (hc : channelLegal (s.reg aPT_CTRL) = true) (h1 : 1#8 ≤ m) (h2 : m ≤ 8#8) :
    ∃ u, runStages (.readAux r m) (stagesOf s.cfg (.readAux r m)) 1 false [] s = .done u [] ∧
      StageRel s.engineAddrs [aPT_ADDR, aPT_REG, aPT_CTRL]
        [s.okW oBANKSEL 0x30#8, s.okW oPT_ADDR (ptAddrRead s.cfg.magAddr7), s.okW oPT_REG r,
          s.okW oPT_CTRL (ptCtrlByte m)] s u ∧
      EngineSame s u ∧ Go n u ∧ u.dev.banksel = 0x30#8 ∧ u.dev.auxArmed = true ∧
      u.reg aPT_ADDR = ptAddrRead s.cfg.magAddr7 ∧ u.reg aPT_REG = r ∧ u.reg aPT_CTRL = ptCtrlByte m :=
  go_readAux (op := .readAux r m) (rest := []) (k := 1) (d := false) (rs := []) r m g hc h1 h2

theorem exec_writeAux {r b : Byte} {s u : State} {rs : Reads} (hv : s.handle.valid = true)
    (h : runStages (.writeAux r b) (stagesOf s.cfg (.writeAux r b)) 1 false [] s = .done u rs) :
    exec (.writeAux r b) s = .next (complete id u) := (exec_eq_runOp rfl rfl hv).trans (runOp_done h)

theorem exec_readAux {r m : Byte} {s u : State} {rs : Reads} (h1 : 1#8 ≤ m) (h2 : m ≤ 8#8)
    (hv : s.handle.valid = true)
    (h : runStages (.readAux r m) (stagesOf s.cfg (.readAux r m)) 1 false [] s = .done u rs) :
    exec (.readAux r m) s = .next (complete id u) :=
  (exec_eq_runOp rfl (by simp [admitted, Instr.wf, h1, h2]) hv).trans (runOp_done h)

/-- An operation that writes `PT_CTRL` and completes: its frame. -/
theorem frame_of_ptCtrl_written {w : List Nat} {x : List Txn} {s u : State} (stage : StageRel s.engineAddrs w x s u)
    (engine : EngineSame s u) (hw : aPT_CTRL ∈ w) :
    SameSequencer s (complete id u) ∧ SameDeviceBut w s (complete id u) := by
  obtain ⟨cfg, host, handle, fus⟩ := stage.same
  exact ⟨⟨cfg, host, handle, fus⟩, (stage.sameDevice engine fun h => absurd hw h).complete id⟩

/-- Settles O42: the five writes of the step list, after which WRITEAUX only completes. -/
theorem writeAuxArmsTheWrite : Obligations.WriteAuxArmsTheWrite := by
  intro r b s hinv hcalm hturn hready
  have go := Go.of_ready hinv hcalm hready
  obtain ⟨u, run, stage, engine, -, sel, armed, addr, reg, data, ctrl⟩ :=
    done_writeAux (n := 0) r b go hinv.channel hturn
  obtain ⟨same, device⟩ := frame_of_ptCtrl_written stage engine (by decide)
  exact ⟨_, exec_writeAux go.valid run, rfl, stage.trace, addr, reg, data, ctrl, armed, sel, same, stage.res, stage.drv,
    device⟩

/-- Settles O43: the four writes of the step list, after which READAUX only completes. -/
theorem readAuxArmsTheRead : Obligations.ReadAuxArmsTheRead := by
  intro r m s h1 h2 hinv hcalm hready
  have go := Go.of_ready hinv hcalm hready
  obtain ⟨u, run, stage, engine, -, sel, armed, addr, reg, ctrl⟩ := done_readAux (n := 0) r go hinv.channel h1 h2
  obtain ⟨same, device⟩ := frame_of_ptCtrl_written stage engine (by decide)
  exact ⟨_, exec_readAux h1 h2 go.valid run, rfl, stage.trace, addr, reg, ctrl, armed, sel, same, stage.res, stage.drv,
    device⟩

/-! ### WRITEAUX that fails at its third step -/

/-- The first two steps of WRITEAUX and READAUX: select bank 3, then write `PT_ADDR`. -/
theorem go_selectAddr {op : Instr} {rest : List Stage} {n : Nat} {s : State} {v : Byte} (g : Go (n + 2) s)
    (hc : channelLegal (s.reg aPT_CTRL) = true)
    (hv : v.getLsbD 7 = true ∨ s.tickEnabled = false ∨ s.writeTurnSafe = true) :
    ∃ t, runStages op (selStage 3#8 :: putStage oPT_ADDR v :: rest) 1 false [] s = runStages op rest 3 true [] t ∧
      StageRel s.engineAddrs [aPT_ADDR] [s.okW oBANKSEL 0x30#8, s.okW oPT_ADDR v] s t ∧ Go n t ∧
      t.reg aPT_ADDR = v ∧ ArmedKept s t := by
  obtain ⟨t, select, stage, engine, gt, sel, -, armed⟩ := go_select (op := op) (rest := putStage oPT_ADDR v :: rest)
    (k := 1) (d := false) (rs := []) 3#8 g
  have bank : t.bank = 3#2 := (bank_of_banksel sel).trans (by decide)
  have ctrl : t.reg aPT_CTRL = s.reg aPT_CTRL := stage.regs _ List.not_mem_nil (engineAddrs_subset (by decide))
  have turn : v.getLsbD 7 = true ∨ t.tickEnabled = false ∨ t.writeTurnSafe = true :=
    hv.imp id fun h => h.imp engine.tick.trans fun safe => writeTurnSafe_of safe ctrl stage.same.cfg armed.arm
  obtain ⟨u, put, stage', engine', gu, -, addr, -, armed'⟩ := go_putAddr (op := op) (rest := rest) (k := 2) (d := false)
    (rs := []) gt bank (ctrl ▸ hc) turn
  have both := stage.trans (engine.engineAddrs ▸ stage')
  simp only [State.okW, stage.same.handle] at both
  exact ⟨u, select.trans put, both, gu, addr, armed.next armed' engine engine'⟩

/-- Settles O27: the address is written, and the write of `PT_REG` raises; before it the engine may at most disarm. -/
theorem writeAuxFailsPartway : Obligations.WriteAuxFailsPartway := by
  intro r b s hinv hcalm hturn hready hfails
  have go := Go.of_ready hinv hcalm hready
  obtain ⟨t, first, stage, gt, addr, armed⟩ := go_selectAddr (op := .writeAux r b) (n := 0)
    (rest := [putStage oPT_REG r, putStage oPT_DO b, putStage oPT_CTRL (ptCtrlByte 1#8)]) go hinv.channel (.inr hturn)
  obtain ⟨window, -⟩ := ready_succ go.ready
  have answer : t.txnAnswer = s.afterTxn.afterTxn.txnAnswer := stage.txnAnswer
  have fails : t.txnFails = true := by
    rw [State.txnFails, answer, stage.addressed]; exact hfails
  obtain ⟨u, x, engine, -, ticked, raised, -, -⟩ := go_failed (op := .writeAux r b) (k := 3) (d := true) (rs := [])
    (st := putStage oPT_REG r) (rest := [putStage oPT_DO b, putStage oPT_CTRL (ptCtrlByte 1#8)]) gt.wf gt.calm
    (stage.devSettling.trans window) fails nofun
  have kept : ∀ a, a ∉ shadowAddrs → u.reg a = t.reg a := fun a ha =>
    ticked.regs a List.not_mem_nil (engineAddrs_subset ha)
  have old : ∀ a, a ∉ [aPT_ADDR] → a ∉ shadowAddrs → u.reg a = s.reg a := fun a hw ha =>
    (kept a ha).trans (stage.regs a hw (engineAddrs_subset ha))
  have ends : exec (.writeAux r b) s = .next (raise (busFail true) 3 (some t.txnAnswer.err) (u.afterTxn.record x)) :=
    (exec_eq_runOp rfl rfl go.valid).trans (runOp_raised (first.trans raised))
  exact ⟨_, ends, by rw [← answer]; rfl, (kept _ (by decide)).trans addr, old _ (by decide) (by decide),
    old _ (by decide) (by decide), old _ (by decide) (by decide), fun h => armed.arm (engine.armed h)⟩

/-! ### GETRAWMAG -/

/-- Reading shadow bytes returns them as stored, and takes nothing (10_state.md R38). -/
theorem readRun_shadow {s : State} (hb : s.bank = 0#2) : ∀ (n : Nat) (o : Byte), 0x3B#8 ≤ o → o.toNat + n ≤ 0x43 →
    readRun n o s = .ok (Memory.getRun s.dev.regs o.toNat n, s)
  | 0, _, _, _ => rfl
  | n + 1, o, h1, h2 => by
    have hlo : 0x3B ≤ o.toNat := h1
    have hhi : o ≤ 0x42#8 := by rw [BitVec.le_def]; show o.toNat ≤ 0x42; omega
    have hr : regAt s.cfg s.bank o = some .shadow := hb ▸ regAt_shadow s.cfg h1 hhi
    have next : (o + 1#8).toNat = o.toNat + 1 := by rw [BitVec.toNat_add]; simp; omega
    have addr : regAddr s.bank o = o.toNat := by simp [hb, regAddr]
    have head : readByte o s = .ok (s.reg o.toNat, s) := by
      simp only [readByte, if_neg (regAt_ne_banksel hr), hr, readReg, addr]
    have tail := readRun_shadow hb n (o + 1#8) (by rw [BitVec.le_def, next]; show 0x3B ≤ o.toNat + 1; omega) (by omega)
    rw [next] at tail
    simp only [readRun, head, tail]
    rfl

theorem devRead_shadow {s : State} (hb : s.bank = 0#2) : devRead oSHADOW 8 s = .ok (s.shadow, s) := by
  have burst : burstOk s.bank oSHADOW 8 = true := burstOk_iff.mpr ⟨hb, .inr (by decide)⟩
  rw [devRead, if_neg (by decide), if_pos ⟨by decide, burst⟩]
  exact readRun_shadow hb 8 oSHADOW (by decide) (by decide)

/-- The step list of GETRAWMAG reads the shadow block as the ticks before the read leave it. -/
theorem done_getRawMag {n : Nat} {s : State} (g : Go (n + 2) s) : ∃ u,
    Done .getRawMag [] [s.okW 0x7F#8 0x00#8, s.okR 0x3B#8 8 u.shadow] [u.shadow] s u ∧ u.dev.banksel = 0x00#8 := by
  obtain ⟨t, select, stage, engine, gt, sel, -, armed⟩ := go_select (op := .getRawMag) (rest := [.read oSHADOW 8])
    (k := 1) (d := false) (rs := []) 0#8 g
  have bank : t.bank = 0#2 := (bank_of_banksel sel).trans (by decide)
  have read : ∀ v, EngineRel (t.setActivity (.busy .getRawMag 2)) v →
      devRead oSHADOW 8 v.afterTxn = .ok (v.shadow, v.afterTxn) := fun v r =>
    devRead_shadow ((congrArg (BitVec.extractLsb' 4 2) r.banksel).trans bank)
  obtain ⟨v, u, w, bs, r, -, hread, run, stage', engine', -, hdev, sel', armed', -⟩ := go_read (op := .getRawMag)
    (rest := []) (k := 2) (d := false) (rs := []) gt fun v r => ⟨_, read v r⟩
  obtain rfl : u.shadow = bs := by rw [read v r] at hread; cases hread; rw [State.shadow, hdev]; rfl
  simp only [State.okR, stage.same.handle] at stage'
  rw [engine.engineAddrs] at stage'
  exact ⟨u, ⟨select.trans run, stage.trans stage', engine.trans engine', armed.next armed' engine engine'⟩,
    sel'.trans sel⟩

/-- What GETRAWMAG writes: the stored shadow bytes, in little-endian pairs (R113). -/
theorem finRawMag_res (s : State) : (finRawMag [s.shadow] s).res = { s.res with
    magRaw := ⟨s.reg (aSHADOW + 1) ++ s.reg aSHADOW, s.reg (aSHADOW + 3) ++ s.reg (aSHADOW + 2),
      s.reg (aSHADOW + 5) ++ s.reg (aSHADOW + 4)⟩
    magStat6 := s.reg (aSHADOW + 6)
    magStat7 := s.reg (aSHADOW + 7) } := rfl

/-- The shadow block is its eight registers. -/
theorem shadow_congr {s t : State} (h : ∀ a, t.reg a = s.reg a) : t.shadow = s.shadow := by
  have run : ∀ n a, Memory.getRun t.dev.regs a n = Memory.getRun s.dev.regs a n := fun n => by
    induction n with
    | zero => exact fun _ => rfl
    | succ n ih => exact fun a => congrArg₂ List.cons (h a) (ih (a + 1))
  exact run 8 aSHADOW

/-- Settles O44: the bytes are those the shadow block holds at the read, after which nothing writes it. -/
theorem getRawMagDecodesTheShadow : Obligations.GetRawMagDecodesTheShadow := by
  intro s hinv hcalm hready
  have go := Go.of_ready hinv hcalm hready
  obtain ⟨u, done, sel⟩ := done_getRawMag (n := 0) go
  have still : s.tickEnabled = false → u.shadow = s.shadow := fun off =>
    shadow_congr fun a => done.stage.regs a List.not_mem_nil (by simp [State.engineAddrs, off])
  exact ⟨_, done.exec rfl rfl go.valid, rfl, done.trace, by rw [← done.stage.res]; exact finRawMag_res u, still, sel,
    done.same, done.stage.drv, done.device⟩

end Sys2Proof.Machine
end

section
/-! PROOF. Properties that ticks keep, and so does whatever an operation does between its writes; what the first tick of
a delay establishes; and what a tick does to a channel as WRITEAUX and READAUX leave it (43_aux_engine.md R193,
R194). -/

namespace Sys2Proof.Machine

/-! ### What a tick does to the target -/

/-- A tick changes the target only by a write that is due. -/
theorem tick_mag {s t : State} (h : tick s = .ok t) : t.mag = s.mag ∨ s.ptRd = false ∧ s.writeDue = true ∧
    t.mag = s.mag.write s.cfg.magAddr7 s.ptA7 (s.reg aPT_REG) (s.reg aPT_DO) := by
  unfold tick at h
  split at h
  · split at h
    · cases h
    · split at h
      · cases h
        obtain ⟨-, o, ho⟩ := auxRead_spec s.ptA7 (s.reg aPT_REG) s.ptLen (countTick s)
        exact .inl (by rw [readTransfer, ho]; rfl)
      · next hr =>
        cases h
        have due : (countTick s).writeDue = s.writeDue := rfl
        cases hd : s.writeDue
        · exact .inl (by rw [writeTransfer, due, hd]; rfl)
        · exact .inr ⟨Bool.eq_false_of_not_eq_true hr, rfl, by rw [writeTransfer, due, hd]; rfl⟩
  · cases h; exact .inl rfl

theorem AuxTarget.write_double (x a7 : BitVec 7) (r v : Byte) (T : Memory) :
    ∃ T', (AuxTarget.double T).write x a7 r v = .double T' := by
  by_cases h : a7 = x
  · exact ⟨_, if_pos h⟩
  · exact ⟨_, if_neg h⟩

/-! ### Properties that ticks keep -/

/-- Ticks keep the property, and it looks at nothing but the configuration, the stored registers, the armed flag, the
target and the history. -/
structure TickKept (J : State → Prop) : Prop where
  tick : ∀ {s t : State}, J s → tick s = .ok t → J t
  of_eq : ∀ {s t : State}, J s → t.cfg = s.cfg → t.dev.regs = s.dev.regs → t.dev.auxArmed = s.dev.auxArmed →
    t.mag = s.mag → t.hist = s.hist → J t

/-- No write that the step issues takes the property away. -/
def Stage.Keeps (J : State → Prop) : Stage → Prop
  | .write o v => o ≠ oBANKSEL → ∀ {rs : Reads} {s t : State}, J s → devWrite o (v rs) s = .ok t → J t
  | .read _ _ => True
  | .delay _ => True

section
variable {J : State → Prop} (hJ : TickKept J)
include hJ

theorem TickKept.ticks : ∀ {n : Nat} {s t : State}, J s → ticks n s = .ok t → J t
  | 0, _, _, j, h => by cases h; exact j
  | n + 1, s, t, j, h => by
    unfold Sys2Proof.Machine.ticks at h
    split at h
    · cases h
    · next s1 h1 => exact TickKept.ticks (hJ.tick j h1) h

theorem TickKept.afterSchedule {s : State} (j : J s) : J s.afterSchedule := hJ.of_eq j rfl rfl rfl rfl rfl

theorem TickKept.tickPoint {s t : State} {a : Activity} (j : J s) (h : tickPoint (s.setActivity a) = .ok t) : J t := by
  have ready : J (s.setActivity a) := hJ.of_eq j rfl rfl rfl rfl rfl
  unfold Sys2Proof.Machine.tickPoint at h
  split at h
  · exact hJ.ticks (hJ.afterSchedule ready) h
  · cases h; exact ready

theorem TickKept.closeWindows {s : State} (ms : Nat) (j : J s) : J (closeWindows ms s) :=
  hJ.of_eq j rfl rfl rfl rfl rfl

theorem TickKept.delayStep {ms : Nat} {s t : State} (j : J s) (h : delayStep ms s = .ok t) : J t := by
  unfold Sys2Proof.Machine.delayStep at h
  split at h
  · split at h
    · cases h
    · next u hu => cases h; exact hJ.closeWindows ms (hJ.ticks (hJ.afterSchedule j) hu)
  · cases h; exact hJ.closeWindows ms j

theorem TickKept.stageStep {st : Stage} {rs rs1 : Reads} {s t : State} (hst : st.Keeps J) (j : J s)
    (h : stageStep st rs s = .ok rs1 t) : J t := by
  have taken : J s.afterTxn := hJ.of_eq j rfl rfl rfl rfl rfl
  cases st with
  | write o v =>
    obtain ⟨-, u, x, hd, rfl⟩ := stageStep_write_inv h
    have written : J u := by
      by_cases ho : o = oBANKSEL
      · subst ho
        rw [devWrite_select] at hd
        cases hd
        exact hJ.of_eq taken rfl rfl rfl rfl rfl
      · exact hst ho taken hd
    exact hJ.of_eq written rfl rfl rfl rfl rfl
  | read o n =>
    obtain ⟨bs, u, x, hd, -, rfl⟩ := stageStep_read_inv h
    obtain ⟨⟨e, rfl, -⟩, -⟩ := readRel_devRead hd
    exact hJ.of_eq taken rfl rfl rfl rfl rfl
  | delay ms =>
    obtain ⟨-, hd⟩ := stageStep_delay_inv h
    exact hJ.delayStep j hd

/-- A step list that is done keeps what ticks and its writes keep. -/
theorem TickKept.run {op : Instr} {stages : List Stage} {k : Nat} {d : Bool} {rs rs1 : Reads} {s t : State}
    (hst : ∀ st ∈ stages, st.Keeps J) (j : J s) (h : runStages op stages k d rs s = .done t rs1) : J t := by
  have run := runStages_induction (op := op) (J := fun l _ u => (∀ st ∈ l, st.Keeps J) ∧ J u) ?_ stages k d rs s
    ⟨hst, j⟩
  · exact (run.1 t rs1 h).2
  · rintro st rest rs u k v rs1 w ⟨hl, ju⟩ hv hs
    exact ⟨fun st' h' => hl st' (List.mem_cons_of_mem _ h'),
      hJ.stageStep (hl st List.mem_cons_self) (hJ.tickPoint ju hv) hs⟩

end


/-! ### A delay that holds a tick -/

/-- With configuration `c`, ticks may happen and the device is awake: a delay guarantees its ticks. -/
structure Ticking (c : Config) (s : State) : Prop where
  cfg : s.cfg = c
  on : s.tickEnabled = true
  awake : s.asleep = false

theorem Ticking.busy {c : Config} {s : State} (h : Ticking c s) (a : Activity) : Ticking c (s.setActivity a) :=
  ⟨h.cfg, h.on, h.awake⟩

theorem Ticking.engine {c : Config} {s t : State} (h : Ticking c s) (w : Memory.wf s.dev.regs = true)
    (r : EngineRel s t) : Ticking c t :=
  ⟨r.cfg.trans h.cfg, (r.tickEnabled w).trans h.on, (r.asleep w).trans h.awake⟩

theorem Ticking.stage {c : Config} {w : List Nat} {x : List Txn} {s t : State} (h : Ticking c s)
    (r : StageRel shadowAddrs w x s t) (e : EngineSame s t) (hw : aPWR ∉ w) : Ticking c t :=
  ⟨r.same.cfg.trans h.cfg, e.tick.trans h.on,
    (congrArg (fun v : Byte => v.getLsbD 6) (r.regs aPWR hw (by decide))).trans h.awake⟩

theorem tickEnabled_iff {s : State} :
    s.tickEnabled = true ↔ s.mstEn = true ∧ s.dev.devSettling = false ∧ s.dev.mstSettling = false := by
  simp [State.tickEnabled, and_assoc]

theorem Dev.close_closed : ∀ {d : Dev}, d.devSettling = false → d.mstSettling = false →
    { d with devSettling := false, mstSettling := false } = d
  | ⟨_, _, _, _, _, _, _⟩, rfl, rfl => rfl

/-- With no window open a delay closes none. -/
theorem closeWindows_closed {s : State} (ms : Nat) (h1 : s.dev.devSettling = false) (h2 : s.dev.mstSettling = false) :
    closeWindows ms s = s := by
  rw [closeWindows, h1, h2]
  exact (congrArg s.setDev (Dev.close_closed h1 h2)).trans (State.setDev_self s)

section
variable {J K : State → Prop} (hJ : TickKept J) (hK : TickKept K)
  (hit : ∀ s t, J s → Sys2Proof.Machine.tick s = .ok t → K t)

include hK hit in
/-- What the first tick establishes holds after any number of ticks but none. -/
theorem TickKept.established {n : Nat} {s t : State} (hn : 1 ≤ n) (j : J s)
    (h : Sys2Proof.Machine.ticks n s = .ok t) : K t := by
  obtain ⟨m, rfl⟩ := Nat.exists_eq_add_of_le' hn
  unfold Sys2Proof.Machine.ticks at h
  split at h
  · cases h
  · next s1 h1 => exact hK.ticks (hit s s1 j h1) h

include hJ hK hit

/-- What a tick establishes holds after a delay that guarantees one. -/
theorem TickKept.delayed {c : Config} {ms : Nat} {a : Activity} {s u v : State} (w : Memory.wf s.dev.regs = true)
    (live : Ticking c s) (least : 1 ≤ guaranteedTicks c ms) (j : J s)
    (before : Sys2Proof.Machine.tickPoint (s.setActivity a) = .ok u)
    (during : u.tickEnabled = true → ∃ m, u.delayTicks ms ≤ m ∧ Sys2Proof.Machine.ticks m u.afterSchedule = .ok v) :
    K v := by
  obtain ⟨cfg, on, awake⟩ := (live.busy a).engine w (engineRel_tickPoint before)
  obtain ⟨m, hm, ht⟩ := during on
  have one : 1 ≤ m := by
    rw [State.delayTicks, awake, cfg] at hm
    exact least.trans hm
  exact hK.established hit one (hJ.afterSchedule (hJ.tickPoint j before)) ht

/-- DELAY with a guaranteed tick: what a tick establishes holds at its end, and the engine can go on. -/
theorem exec_delay_established {c : Config} {n : Nat} {ms : BitVec 16} {s : State} (g : Go n s) (live : Ticking c s)
    (least : 1 ≤ guaranteedTicks c ms.toNat) (j : J s) :
    ∃ t, exec (.delay ms) s = .next t ∧ Go n t ∧ Ticking c t ∧ K t := by
  obtain ⟨u, v, before, rel, during, ends⟩ := exec_delay_ok (ms := ms) g.wf g.calm
  have k : K v := hJ.delayed hK hit g.wf live least j before during
  have whole := (engineRel_tickPoint before).trans rel
  have live' : Ticking c v := (live.busy (.busy (.delay ms) 1)).engine g.wf whole
  obtain ⟨-, dev, mst⟩ := tickEnabled_iff.mp live'.on
  rw [closeWindows_closed _ dev mst] at ends
  have go : Go n v := ⟨whole.regsWf g.wf, whole.calm g.wf g.calm,
    ready_of g.ready whole.handle whole.cfg whole.devSettling whole.txn⟩
  exact ⟨_, ends, ⟨go.wf, go.calm, go.ready⟩, ⟨live'.cfg, live'.on, live'.awake⟩, hK.of_eq k rfl rfl rfl rfl rfl⟩

end

/-! ### The channel set to write one byte -/

/-- The channel registers hold a write of `v` to register `r` of the target at `a7`, as WRITEAUX leaves them. -/
structure WriteSet (a7 : BitVec 7) (r v : Byte) (s : State) : Prop where
  wf : Memory.wf s.dev.regs = true
  addr : s.reg aPT_ADDR = ptAddrWrite a7
  reg : s.reg aPT_REG = r
  val : s.reg aPT_DO = v
  ctrl : s.reg aPT_CTRL = 0x81#8

section
variable {a7 : BitVec 7} {r v : Byte} {s t : State} (h : WriteSet a7 r v s)
include h

theorem WriteSet.engine (e : EngineRel s t) : WriteSet a7 r v t :=
  ⟨e.regsWf h.wf, (e.ptAddr h.wf).trans h.addr, (e.ptReg h.wf).trans h.reg, (e.ptDo h.wf).trans h.val,
    (e.ptCtrl h.wf).trans h.ctrl⟩

theorem WriteSet.of_regs (e : t.dev.regs = s.dev.regs) : WriteSet a7 r v t := by
  have reg : ∀ a, t.reg a = s.reg a := fun a => by rw [State.reg, e]; rfl
  exact ⟨e ▸ h.wf, (reg _).trans h.addr, (reg _).trans h.reg, (reg _).trans h.val, (reg _).trans h.ctrl⟩

/-- The engine sees an enabled channel that writes one byte, which no tick refuses. -/
theorem WriteSet.channel : s.ptEn = true ∧ s.ptRd = false ∧ s.ptA7 = a7 ∧ s.refusedConfig = false := by
  obtain ⟨rd, a7⟩ := ptAddrWrite_bits a7
  have ptRd : s.ptRd = false := by rw [State.ptRd, h.addr]; exact rd
  refine ⟨by rw [State.ptEn, h.ctrl]; rfl, ptRd, by rw [State.ptA7, h.addr]; exact a7, ?_⟩
  simp [State.refusedConfig, ptRd, State.ptLen, h.ctrl]

theorem WriteSet.writing (once : s.cfg.auxWriteRepeat = false) : Writing a7 r v s := by
  obtain ⟨en, rd, a7, ok⟩ := h.channel
  exact ⟨h.wf, en, rd, ok, a7, h.reg, h.val, once⟩

/-- A tick on which the write is due delivers it, whether writes repeat or not. -/
theorem WriteSet.delivers (due : s.writeDue = true) (ht : tick s = .ok t) : AuxEvent.auxW a7 r v ∈ t.hist := by
  obtain ⟨en, rd, a7, ok⟩ := h.channel
  simp only [tick, en, ok, rd, if_true, Bool.false_eq_true, if_false, Except.ok.injEq] at ht
  subst ht
  have val : (countTick s).reg aPT_DO = v := h.val
  rw [writeTransfer, if_pos (show (countTick s).writeDue = true from due), val, a7, h.reg]
  simp

end

/-! ### The channel set to read one byte of the test double -/

/-- The channel registers hold a read of one byte from the test double, whose array has `v` there, as READAUX leaves
them. -/
structure ReadSet (v : Byte) (s : State) : Prop where
  wf : Memory.wf s.dev.regs = true
  addr : s.reg aPT_ADDR = ptAddrRead s.cfg.magAddr7
  ctrl : s.reg aPT_CTRL = 0x81#8
  answer : ∃ T, s.mag = .double T ∧ Memory.get T (s.reg aPT_REG).toNat = v

/-- The test double returns the byte of its array (R198). -/
theorem auxRead_double {T : Memory} {s : State} (hm : s.mag = .double T) (r : Byte) :
    auxRead s.cfg.magAddr7 r 1 s = ([Memory.get T r.toNat], s) := by
  have inside : r.toNat + 1 ≤ 256 := r.isLt
  simp [auxRead, hm, inside, Memory.getRun]

section
variable {v : Byte} {s t : State} (h : ReadSet v s)
include h

theorem ReadSet.channel :
    s.ptEn = true ∧ s.ptRd = true ∧ s.ptA7 = s.cfg.magAddr7 ∧ s.ptLen = 1 ∧ s.refusedConfig = false := by
  obtain ⟨rd, a7⟩ := ptAddrRead_bits s.cfg.magAddr7
  have ptRd : s.ptRd = true := by rw [State.ptRd, h.addr]; exact rd
  have len : s.ptLen = 1 := by rw [State.ptLen, h.ctrl]; rfl
  refine ⟨by rw [State.ptEn, h.ctrl]; rfl, ptRd, by rw [State.ptA7, h.addr]; exact a7, len, ?_⟩
  simp [State.refusedConfig, ptRd, len, h.ctrl]

theorem ReadSet.tick (ht : tick s = .ok t) : ReadSet v t ∧ t.reg aSHADOW = v := by
  have r := engineRel_tick ht
  obtain ⟨en, rd, a7, len, ok⟩ := h.channel
  obtain ⟨T, double, answer⟩ := h.answer
  have mag : t.mag = s.mag := (tick_mag ht).resolve_right fun ⟨write, _⟩ => by simp [rd] at write
  refine ⟨⟨r.regsWf h.wf, ?_, (r.ptCtrl h.wf).trans h.ctrl, T, mag.trans double,
    by rw [r.ptReg h.wf]; exact answer⟩, ?_⟩
  · rw [r.ptAddr h.wf, r.cfg]; exact h.addr
  · simp only [Sys2Proof.Machine.tick, en, ok, rd, if_true, Bool.false_eq_true, if_false, Except.ok.injEq] at ht
    subst ht
    have read : auxRead s.ptA7 (s.reg aPT_REG) s.ptLen (countTick s) = ([v], countTick s) := by
      rw [a7, len, ← answer]; exact auxRead_double (s := countTick s) double _
    rw [readTransfer, read]
    exact Memory.get_set_same h.wf _ _

end

end Sys2Proof.Machine
end

section
/-! PROOF. The bridge's round trip (42_aux_bridge.md R175): the properties that carry the byte through its five
operations, each kept by ticks, and each established by a write of the host or by the first tick of a delay. -/

namespace Sys2Proof.Machine

/-! ### The byte on its way through the bridge -/

/-- The target is the test double, and its array has `v` at register `r`. -/
def TargetHolds (r v : Byte) (s : State) : Prop := ∃ T, s.mag = .double T ∧ Memory.get T r.toNat = v

/-- The write of `v` to register `r` is set up on the channel, once, and either armed or already performed. -/
structure Delivering (r v : Byte) (s : State) : Prop where
  set : WriteSet s.cfg.magAddr7 r v s
  once : s.cfg.auxWriteRepeat = false
  magWf : s.mag.wf = true
  double : ∃ T, s.mag = .double T
  performed : s.dev.auxArmed = false → TargetHolds r v s

/-- The target holds `v` at register `r`, and no further write is due. -/
structure Delivered (r v : Byte) (s : State) : Prop where
  holds : TargetHolds r v s
  done : s.writeDue = false

/-- The target holds `v` at register `r`, and the channel is turned to reading. -/
structure TurnedToRead (r v : Byte) (s : State) : Prop where
  holds : TargetHolds r v s
  wf : Memory.wf s.dev.regs = true
  rd : s.ptRd = true

/-- The read of the byte `v` is set up on the channel, and has been performed. -/
structure Fetched (v : Byte) (s : State) : Prop where
  set : ReadSet v s
  shadow : s.reg aSHADOW = v

theorem TargetHolds.of_mag {r v : Byte} {s t : State} (h : TargetHolds r v s) (e : t.mag = s.mag) :
    TargetHolds r v t := by
  obtain ⟨T, double, holds⟩ := h
  exact ⟨T, e.trans double, holds⟩

theorem reg_of_regs {s t : State} (e : t.dev.regs = s.dev.regs) (a : Nat) : t.reg a = s.reg a := by
  rw [State.reg, e]; rfl

theorem ptRd_of_regs {s t : State} (e : t.dev.regs = s.dev.regs) : t.ptRd = s.ptRd := by
  rw [State.ptRd, reg_of_regs e]; rfl

theorem writeDue_mono {s t : State} (hc : t.cfg = s.cfg) (ha : t.dev.auxArmed = true → s.dev.auxArmed = true)
    (due : t.writeDue = true) : s.writeDue = true := by
  simp only [State.writeDue, Bool.or_eq_true, hc] at due ⊢
  exact due.imp ha id

theorem writeDue_of_eq {s t : State} (hc : t.cfg = s.cfg) (ha : t.dev.auxArmed = s.dev.auxArmed) :
    t.writeDue = s.writeDue := by
  rw [State.writeDue, hc, ha]; rfl

/-- The test double stays a test double. -/
theorem tickKept_double : TickKept fun s => ∃ T, s.mag = .double T where
  tick := by
    rintro s t ⟨T, h⟩ ht
    rcases tick_mag ht with e | ⟨-, -, e⟩
    · exact ⟨T, e.trans h⟩
    · rw [e, h]; exact AuxTarget.write_double _ _ _ _ T
  of_eq := by
    rintro s t ⟨T, h⟩ - - - hm -
    exact ⟨T, hm.trans h⟩

theorem tickKept_delivered (r v : Byte) : TickKept (Delivered r v) where
  tick := fun j ht => by
    have mag := (tick_mag ht).resolve_right fun ⟨_, due, _⟩ => by simp [j.done] at due
    refine ⟨j.holds.of_mag mag, Bool.eq_false_of_not_eq_true fun due => ?_⟩
    have before := (engineRel_tick ht).writeDue due
    simp [j.done] at before
  of_eq := fun j hc _ ha hm _ => ⟨j.holds.of_mag hm, (writeDue_of_eq hc ha).trans j.done⟩

/-- The first tick on the write that is set up performs it, if that has not happened yet. -/
theorem Delivering.tick {r v : Byte} {s t : State} (j : Delivering r v s) (ht : tick s = .ok t) : Delivered r v t := by
  have writing := j.set.writing j.once
  obtain ⟨unarmed, -, mag⟩ := writing.tick ht
  refine ⟨?_, by rw [State.writeDue, unarmed, (engineRel_tick ht).cfg, j.once]; rfl⟩
  cases ha : s.dev.auxArmed
  · exact (j.performed ha).of_mag (by rw [mag, ha]; rfl)
  · obtain ⟨T, double⟩ := j.double
    have wf : Memory.wf T = true := by have := j.magWf; rwa [double] at this
    exact ⟨Memory.set T r.toNat v, by rw [mag, ha, double]; simp [AuxTarget.write], Memory.get_set_same wf _ _⟩

theorem tickKept_delivering (r v : Byte) : TickKept (Delivering r v) where
  tick := fun j ht => by
    have e := engineRel_tick ht
    have now := j.tick ht
    obtain ⟨T, double, -⟩ := now.holds
    exact ⟨e.cfg ▸ j.set.engine e, e.cfg ▸ j.once, e.magWf j.magWf, ⟨T, double⟩, fun _ => now.holds⟩
  of_eq := fun j hc hr ha hm _ => by
    obtain ⟨T, double⟩ := j.double
    exact ⟨hc ▸ j.set.of_regs hr, hc ▸ j.once, hm ▸ j.magWf, ⟨T, hm.trans double⟩,
      fun h => (j.performed (ha ▸ h)).of_mag hm⟩

theorem tickKept_turnedToRead (r v : Byte) : TickKept (TurnedToRead r v) where
  tick := fun j ht => by
    have e := engineRel_tick ht
    have mag := (tick_mag ht).resolve_right fun ⟨write, _⟩ => by simp [j.rd] at write
    exact ⟨j.holds.of_mag mag, e.regsWf j.wf, by rw [State.ptRd, e.ptAddr j.wf]; exact j.rd⟩
  of_eq := fun j _ hr _ hm _ => ⟨j.holds.of_mag hm, hr ▸ j.wf, (ptRd_of_regs hr).trans j.rd⟩

theorem tickKept_readSet (v : Byte) : TickKept (ReadSet v) where
  tick := fun j ht => (j.tick ht).1
  of_eq := fun j hc hr _ hm _ => ⟨hr ▸ j.wf, by rw [reg_of_regs hr, hc]; exact j.addr,
    (reg_of_regs hr _).trans j.ctrl, by rw [reg_of_regs hr, hm]; exact j.answer⟩

theorem tickKept_fetched (v : Byte) : TickKept (Fetched v) where
  tick := fun j ht => by
    obtain ⟨set, shadow⟩ := j.set.tick ht
    exact ⟨set, shadow⟩
  of_eq := fun j hc hr ha hm hh => ⟨(tickKept_readSet v).of_eq j.set hc hr ha hm hh, (reg_of_regs hr _).trans j.shadow⟩

/-! ### What the channel's writes leave -/

section
variable {o v : Byte} {s t : State} (h : devWrite o v s = .ok t)
include h

/-- No write of the host reaches the target. -/
theorem devWrite_mag : t.mag = s.mag := by
  rcases devWrite_cases h with ⟨-, rfl⟩ | ⟨n, -, -, rfl⟩ | ⟨-, -, rfl⟩ | ⟨-, -, rfl⟩ | ⟨-, -, rfl⟩
  · rfl
  · rfl
  · obtain ⟨armed, window, e⟩ := writeMstctl_eq v s
    rw [e]; rfl
  · unfold writePwr; split <;> rfl
  · rw [writePtCtrl_eq]; rfl

/-- Only a write of `PT_CTRL` arms the channel (43_aux_engine.md R195). -/
theorem devWrite_arms (ho : o ≠ oPT_CTRL) (ht : t.dev.auxArmed = true) : s.dev.auxArmed = true := by
  rcases devWrite_cases h with ⟨-, rfl⟩ | ⟨n, -, -, rfl⟩ | ⟨-, -, rfl⟩ | ⟨-, -, rfl⟩ | ⟨-, hp, -⟩
  · exact ht
  · exact ht
  · revert ht
    unfold writeMstctl
    split
    · exact nofun
    · exact id
  · revert ht
    unfold writePwr
    split
    · exact nofun
    · exact id
  · exact absurd hp ho

/-- A write elsewhere leaves `PT_ADDR`. -/
theorem devWrite_keeps_ptAddr (w : Memory.wf s.dev.regs = true) (hs : o ≠ oBANKSEL) (ha : o ≠ oPT_ADDR)
    (hp : o ≠ oPWR) :
    Memory.wf t.dev.regs = true ∧ t.reg aPT_ADDR = s.reg aPT_ADDR := by
  have stored : ∀ {u : State} {a : Nat} {x : Byte}, u.dev.regs = Memory.set s.dev.regs a x → aPT_ADDR ≠ a →
      Memory.wf u.dev.regs = true ∧ u.reg aPT_ADDR = s.reg aPT_ADDR := fun hr hne =>
    ⟨hr ▸ Memory.wf_set w _ _, (reg_of_set w hr _).trans (if_neg hne)⟩
  rcases devWrite_cases h with ⟨e, -⟩ | ⟨n, hr, -, rfl⟩ | ⟨-, e, -⟩ | ⟨-, e, -⟩ | ⟨-, -, rfl⟩
  · exact absurd e hs
  · refine stored rfl fun e => ha ?_
    have lt := regAt_lt hr
    exact (regAddr_inj (b := 3#2) (o := oPT_ADDR) (by decide) (by omega) e).2.symm
  · exact absurd e ha
  · exact absurd e hp
  · rw [writePtCtrl_eq]
    exact stored rfl (by decide)

end

theorem keeps_double (st : Stage) : st.Keeps fun s => ∃ T, s.mag = .double T := by
  cases st with
  | write o v => exact fun _ _ _ _ ⟨T, double⟩ hd => ⟨T, (devWrite_mag hd).trans double⟩
  | read o n => trivial
  | delay ms => trivial

theorem keeps_select (J : State → Prop) (bank : Byte) : (selStage bank).Keeps J := fun h => absurd rfl h

theorem keeps_read (J : State → Prop) (o : Byte) (n : Nat) : (Stage.read o n).Keeps J := trivial

theorem keeps_delivered {r v o x : Byte} (ho : o ≠ oPT_CTRL) : (putStage o x).Keeps (Delivered r v) :=
  fun _ _ s t j hd => by
    refine ⟨j.holds.of_mag (devWrite_mag hd), Bool.eq_false_of_not_eq_true fun due => ?_⟩
    have before := writeDue_mono (SeqKept.devWrite hd).cfg (devWrite_arms hd ho) due
    simp [j.done] at before

theorem keeps_turnedToRead {r v o x : Byte} (ha : o ≠ oPT_ADDR) (hp : o ≠ oPWR) :
    (putStage o x).Keeps (TurnedToRead r v) :=
  fun hs _ s t j hd => by
    obtain ⟨wf, addr⟩ := devWrite_keeps_ptAddr hd j.wf hs ha hp
    exact ⟨j.holds.of_mag (devWrite_mag hd), wf, by rw [State.ptRd, addr]; exact j.rd⟩

/-- A step list in two parts. -/
theorem runStages_append {op : Instr} {l2 : List Stage} {u : State} {rs1 : Reads} : ∀ {l1 : List Stage} {k : Nat}
    {d : Bool} {rs : Reads} {s : State}, runStages op l1 k d rs s = .done u rs1 →
    runStages op (l1 ++ l2) k d rs s = runStages op l2 (k + l1.length) (d || l1.any isConfigWrite) rs1 u
  | [], k, d, rs, s, h => by
    rw [runStages_nil] at h
    cases h
    simp
  | st :: l1, k, d, rs, s, h => by
    cases ht : tickPoint (s.setActivity (.busy op k)) with
    | error r => rw [runStages_cons_refused_tick ht] at h; cases h
    | ok s1 =>
      cases hs : stageStep st rs s1 with
      | refused r => rw [runStages_cons_refused ht hs] at h; cases h
      | failed e s2 => rw [runStages_cons_failed ht hs] at h; cases h
      | ok rs2 s2 =>
        rw [runStages_cons_ok ht hs] at h
        rw [List.cons_append, runStages_cons_ok ht hs, runStages_append h, List.length_cons, List.any_cons,
          Bool.or_assoc, Nat.add_assoc, Nat.add_comm 1]

/-! ### The five operations -/

/-- A step list that is done, and ends in completing, leaves the engine ticking. -/
theorem Ticking.run {c : Config} {w : List Nat} {x : List Txn} {s u : State} (h : Ticking c s)
    (stage : StageRel s.engineAddrs w x s u) (engine : EngineSame s u) (hw : aPWR ∉ w) : Ticking c (complete id u) := by
  obtain ⟨cfg, on, awake⟩ := h.stage stage.shadow engine hw
  exact ⟨cfg, on, awake⟩

theorem Go.complete {n : Nat} {s : State} (g : Go n s) (d : DrvState → DrvState) : Go n (complete d s) :=
  ⟨g.wf, g.calm, g.ready⟩

/-- WRITEAUX to the test double sets the write up. -/
theorem exec_writeAux_delivering {c : Config} {n : Nat} {s : State} (r b : Byte) (g : Go (n + 5) s) (inv : s.Inv)
    (live : Ticking c s) (safe : s.writeTurnSafe = true) (once : c.auxWriteRepeat = false)
    (double : ∃ T, s.mag = .double T) :
    ∃ t, exec (.writeAux r b) s = .next t ∧ Go n t ∧ Ticking c t ∧ Delivering r b t := by
  obtain ⟨u, run, stage, engine, gu, -, armed, addr, reg, data, ctrl⟩ :=
    done_writeAux (n := n) r b g inv.channel (.inr safe)
  have ends := exec_writeAux g.valid run
  have live' := live.run stage engine (by decide)
  have set : WriteSet u.cfg.magAddr7 r b u := ⟨gu.wf, by rw [addr, stage.same.cfg], reg, data, ctrl⟩
  have double' : ∃ T, u.mag = .double T := tickKept_double.run (fun st _ => keeps_double st) double run
  exact ⟨_, ends, gu.complete id, live', set.of_regs rfl, by rw [live'.cfg]; exact once, (inv_exec inv ends).magWf,
    double', fun h => by simp [armed] at h⟩

/-- READAUX of one byte sets the read up, and the write before it is not repeated: while the channel is still set to
write none is due, and from the second step on it reads. -/
theorem exec_readAux_readSet {c : Config} {n : Nat} {s : State} {r v : Byte} (g : Go (n + 4) s) (inv : s.Inv)
    (live : Ticking c s) (j : Delivered r v s) :
    ∃ t, exec (.readAux r 1#8) s = .next t ∧ Go n t ∧ Ticking c t ∧ ReadSet v t := by
  obtain ⟨u, run, stage, engine, gu, -, -, addr, reg, ctrl⟩ :=
    done_readAux (n := n) (m := 1#8) r g inv.channel (by decide) (by decide)
  have rd := (ptAddrRead_bits s.cfg.magAddr7).1
  obtain ⟨m, first, -, gm, turned, -⟩ := go_selectAddr (op := .readAux r 1#8) (n := n + 2) (rest := []) g inv.channel
    (.inl rd)
  have before : Delivered r v m := (tickKept_delivered r v).run
    (List.forall_mem_cons.mpr ⟨keeps_select _ _, List.forall_mem_singleton.mpr (keeps_delivered (by decide))⟩) j first
  have after : TurnedToRead r v u := by
    refine (tickKept_turnedToRead r v).run ?_ ⟨before.holds, gm.wf, by rw [State.ptRd, turned]; exact rd⟩
      ((runStages_append first).symm.trans run)
    exact List.forall_mem_cons.mpr ⟨keeps_turnedToRead (by decide) (by decide),
      List.forall_mem_singleton.mpr (keeps_turnedToRead (by decide) (by decide))⟩
  have live' := live.run stage engine (by decide)
  obtain ⟨T, double, holds⟩ := after.holds
  have answer : Memory.get T (u.reg aPT_REG).toNat = v := by rw [reg]; exact holds
  have addr' : u.reg aPT_ADDR = ptAddrRead u.cfg.magAddr7 := by rw [addr, stage.same.cfg]
  exact ⟨_, exec_readAux (by decide) (by decide) g.valid run, gu.complete id, live', gu.wf, addr', ctrl, T,
    double, answer⟩

/-- GETRAWMAG finds the fetched byte, whatever ticks fall before its read. -/
theorem exec_getRawMag_fetched {n : Nat} {s : State} {v : Byte} (g : Go (n + 2) s) (j : Fetched v s) :
    ∃ t, exec .getRawMag s = .next t ∧ t.reg aSHADOW = v ∧ t.res.magRaw.x.extractLsb' 0 8 = v ∧
      t.status = ⟨0#4, 0#8, none⟩ := by
  obtain ⟨u, done, -⟩ := done_getRawMag g
  have fetched : Fetched v u := (tickKept_fetched v).run
    (List.forall_mem_cons.mpr ⟨keeps_select _ _, List.forall_mem_singleton.mpr (keeps_read _ _ _)⟩) j done.run
  refine ⟨_, done.exec rfl rfl g.valid, fetched.shadow, ?_, rfl⟩
  rw [finishOf, finRawMag_res, fetched.shadow]
  exact BitVec.extractLsb'_append_eq_right

/-- Settles O50: the write is performed by the first delay, which is not undone before READAUX turns the channel; the
read is performed by the second, and repeating it fetches the same byte. -/
theorem bridgeRoundTrip : Obligations.BridgeRoundTrip := by
  intro r b d T s inv calm safe ready on awake once least double
  have go : Go 11 s := Go.of_ready inv calm ready
  obtain ⟨t1, e1, g1, live1, delivering⟩ := exec_writeAux_delivering (n := 6) r b go inv ⟨rfl, on, awake⟩ safe once
    ⟨T, double⟩
  obtain ⟨t2, e2, g2, live2, delivered⟩ := exec_delay_established (tickKept_delivering r b) (tickKept_delivered r b)
    (fun _ _ j ht => j.tick ht) g1 live1 least delivering
  have inv2 : t2.Inv := inv_exec (inv_exec inv e1) e2
  obtain ⟨t3, e3, g3, live3, set⟩ := exec_readAux_readSet (n := 2) g2 inv2 live2 delivered
  obtain ⟨t4, e4, g4, -, fetched⟩ := exec_delay_established (tickKept_readSet b) (tickKept_fetched b)
    (fun _ _ j ht => ⟨(j.tick ht).1, (j.tick ht).2⟩) g3 live3 least set
  obtain ⟨t5, e5, shadow, raw, status⟩ := exec_getRawMag_fetched (n := 0) g4 fetched
  exact ⟨t1, t2, t3, t4, t5, e1, e2, e3, e4, e5, shadow, raw, status⟩

end Sys2Proof.Machine
end

section
/-! PROOF. AUXINIT (42_aux_bridge.md R173): the master reset, enabling the engine, the settings, and the bridge's three
operations inside it, under every schedule of ticks. -/

namespace Sys2Proof.Machine

/-! ### A channel that may be turned to writing -/

/-- The channel holds a legal control byte, and turning it to writing cannot make a tick refused
(70_reset_and_hazards.md R268). -/
structure TurnSafe (s : State) : Prop where
  legal : channelLegal (s.reg aPT_CTRL) = true
  safe : s.writeTurnSafe = true

theorem TurnSafe.calm {s : State} (h : TurnSafe s) : s.calm = true := calm_of_turnSafe h.legal h.safe

/-- The control byte is as before and the channel has not been armed. -/
theorem TurnSafe.of_eq {s t : State} (h : TurnSafe s) (hc : t.cfg = s.cfg) (hr : t.reg aPT_CTRL = s.reg aPT_CTRL)
    (ha : t.dev.auxArmed = true → s.dev.auxArmed = true) : TurnSafe t :=
  ⟨hr ▸ h.legal, writeTurnSafe_of h.safe hr hc ha⟩

theorem TurnSafe.engine {s t : State} (h : TurnSafe s) (w : Memory.wf s.dev.regs = true) (r : EngineRel s t) :
    TurnSafe t := h.of_eq r.cfg (r.ptCtrl w) r.armed

theorem TurnSafe.stage {w : List Nat} {x : List Txn} {s t : State} (h : TurnSafe s) (r : StageRel shadowAddrs w x s t)
    (hw : aPT_CTRL ∉ w) (ha : t.dev.auxArmed = true → s.dev.auxArmed = true) : TurnSafe t :=
  h.of_eq r.same.cfg (r.regs _ hw (by decide)) ha

theorem TurnSafe.busy {s : State} (h : TurnSafe s) (a : Activity) : TurnSafe (s.setActivity a) := ⟨h.legal, h.safe⟩

/-- A channel enabled for one byte may be turned. -/
theorem turnSafe_of_ctrl {s : State} (h : s.reg aPT_CTRL = 0x81#8) : TurnSafe s := by
  have len : s.ptLen = 1 := by rw [State.ptLen, h]; rfl
  exact ⟨by rw [h]; decide, by simp [State.writeTurnSafe, len]⟩

/-- No tick is refused after a delay, which may open the way for ticks. -/
theorem TurnSafe.delay {s u : State} {a : Activity} (h : TurnSafe s) (w : Memory.wf s.dev.regs = true) (ms : Nat)
    (r : EngineRel (s.setActivity a) u) : (closeWindows ms u).calm = true := by
  obtain ⟨legal, safe⟩ := (h.busy a).engine w r
  exact TurnSafe.calm ⟨legal, safe⟩

theorem StageRel.okW {e w : List Nat} {x : List Txn} {s t : State} (h : StageRel e w x s t) : t.okW = s.okW := by
  funext o v; rw [State.okW, h.same.handle, State.okW]

theorem StageRel.okR {e w : List Nat} {x : List Txn} {s t : State} (h : StageRel e w x s t) : t.okR = s.okR := by
  funext o n bytes; rw [State.okR, h.same.handle, State.okR]

/-! ### The master-control register -/

/-- A master reset opens the master window, in which no tick happens; any other write of `MSTCTL` only stores. -/
theorem calm_writeMstctl {v : Byte} {s : State} (w : Memory.wf s.dev.regs = true)
    (h : v.getLsbD 1 = true ∨ TurnSafe s) : (writeMstctl v s).calm = true := by
  rcases h with reset | safe
  · refine calm_of_off ?_
    simp only [writeMstctl, reset, if_true, State.tickEnabled, State.setDev_dev, Bool.not_true, Bool.and_false]
  · refine (safe.of_eq ?_ ?_ ?_).calm
    · unfold writeMstctl; split <;> rfl
    · obtain ⟨armed, window, e⟩ := writeMstctl_eq v s
      rw [e]
      exact (reg_storeReg (b := 0#2) (o := oMSTCTL) w _).trans (if_neg (by decide))
    · unfold writeMstctl
      split
      · exact nofun
      · exact id

/-- Select bank 0, then read-modify-write `MSTCTL` outside the master window. -/
theorem go_selectMstctl {op : Instr} {rest : List Stage} {k : Nat} {d : Bool} {rs : Reads} {n : Nat} {s : State}
    {f : Byte → Byte} (g : Go (n + 3) s) (hm : s.dev.mstSettling = false)
    (hf : (f (s.reg aMSTCTL)).getLsbD 1 = true ∨ TurnSafe s) :
    ∃ t, runStages op (selStage 0#8 :: (rmwStages oMSTCTL rs.length f ++ rest)) k d rs s =
        runStages op rest (k + 3) true (rs ++ [[s.reg aMSTCTL]]) t ∧
      StageRel shadowAddrs [aMSTCTL]
        [s.okW 0x7F#8 0x00#8, s.okR 0x03#8 1 [s.reg aMSTCTL], s.okW 0x03#8 (f (s.reg aMSTCTL))] s t ∧
      Go n t ∧ t.reg aMSTCTL = f (s.reg aMSTCTL) &&& 0xFD#8 ∧ t.dev.mstSettling = (f (s.reg aMSTCTL)).getLsbD 1 ∧
      (t.dev.auxArmed = true → s.dev.auxArmed = true) ∧
      ((f (s.reg aMSTCTL)).getLsbD 1 = true → t.dev.auxArmed = false) := by
  obtain ⟨t, select, stage, engine, gt, sel, -, armed⟩ := go_select (op := op)
    (rest := rmwStages oMSTCTL rs.length f ++ rest) (k := k) (d := d) (rs := rs) 0#8 g
  have bank : t.bank = 0#2 := (bank_of_banksel sel).trans (by decide)
  have mst : t.dev.mstSettling = false := engine.mstSettling.trans hm
  have old : t.reg (regAddr t.bank oMSTCTL) = s.reg aMSTCTL := by
    rw [bank]; exact stage.regs _ List.not_mem_nil (engineAddrs_subset (by decide))
  obtain ⟨u, read, stage', engine', gu, sel', armed', -⟩ := go_readReg (op := op)
    (rest := (.write oMSTCTL fun rs' => f (readByteAt rs' rs.length)) :: rest) (k := k + 1) (d := d) (rs := rs)
    (o := oMSTCTL) (nm := .mstctl) gt
    (bank.symm ▸ regAt_mstctl t.cfg) nofun nofun (fun _ => mst) (engineAddrs_subset (by rw [bank]; decide))
  rw [old] at read stage'
  have value : f (readByteAt (rs ++ [[s.reg aMSTCTL]]) rs.length) = f (s.reg aMSTCTL) := by
    simp [readByteAt, readAt, byteAt]
  have before := stage.shadow.trans stage'.shadow
  have arms : u.dev.auxArmed = true → s.dev.auxArmed = true := fun h => armed.arm (armed'.arm h)
  obtain ⟨v, write, stage'', gv, -, stored, window, armed'', disarmed, -⟩ := go_mstctl (op := op) (rest := rest)
    (k := k + 2) (d := d) (rs := rs ++ [[s.reg aMSTCTL]]) (v := fun rs' => f (readByteAt rs' rs.length)) gu
    ((bank_of_banksel (sel'.trans sel)).trans (by decide)) fun x r => by
      rw [value]
      exact calm_writeMstctl (r.regsWf gu.wf) (hf.imp id fun safe =>
        ((safe.stage before (by decide) arms).busy (.busy op (k + 2))).engine gu.wf r)
  rw [value] at stage'' stored window disarmed
  rw [before.okW] at stage''
  rw [stage.okR] at before
  rw [engine'.mstSettling, mst, Bool.or_false] at window
  exact ⟨v, select.trans (read.trans write), before.trans stage'', gv, stored, window, fun h => arms (armed'' h),
    disarmed⟩

/-- Select a bank, then write a constant to a register that only stores its byte. -/
theorem go_selectPut {op : Instr} {rest : List Stage} {k : Nat} {d : Bool} {rs : Reads} {n : Nat} {s : State}
    {bank o v : Byte} {b : BitVec 2} {nm : RegName} (g : Go (n + 2) s) (hb : (selByte bank).extractLsb' 4 2 = b)
    (hr : regAt s.cfg b o = some nm) (hp : nm.plain = true) (ha : nm ≠ .ptAddr) :
    ∃ t, runStages op (selStage bank :: putStage o v :: rest) k d rs s = runStages op rest (k + 2) true rs t ∧
      StageRel shadowAddrs [regAddr b o] [s.okW 0x7F#8 (selByte bank), s.okW o v] s t ∧
      EngineSame s t ∧ Go n t ∧ t.reg (regAddr b o) = v ∧ ArmedKept s t := by
  obtain ⟨t, select, stage, engine, gt, sel, -, armed⟩ := go_select (op := op) (rest := putStage o v :: rest) (k := k)
    (d := d) (rs := rs) bank g
  have tbank : t.bank = b := (bank_of_banksel sel).trans hb
  obtain ⟨u, put, stage', engine', gu, -, stored, -, armed'⟩ := go_put (op := op) (rest := rest) (k := k + 1) (d := d)
    (rs := rs) (v := fun _ => v) gt (by rw [tbank, stage.same.cfg]; exact hr) hp ha
  rw [tbank] at stage' stored
  rw [stage.okW] at stage'
  exact ⟨u, select.trans put, stage.shadow.trans stage'.shadow, engine.trans engine', gu, stored,
    armed.next armed' engine engine'⟩

/-! ### The parts of AUXINIT -/

/-- Stages 1 to 4 of AUXINIT: the master reset and the wait for its window. -/
def masterResetStages (c : Config) : List Stage :=
  selStage 0#8 :: rmwStages oMSTCTL 0 mstReset ++ [.delay c.tMstSettleMs]

/-- Stages 5 to 7: enabling the master. -/
def masterEnableStages : List Stage := selStage 0#8 :: rmwStages oMSTCTL 1 mstEnable

/-- Stages 8 to 13: the settings of the engine. -/
def settingStages (c : Config) : List Stage :=
  [selStage 3#8, putStage oAUXMCTL c.mstClkCode, selStage 0#8, putStage c.lpConfigOffset c.lpConfigValue, selStage 3#8,
    putStage oAUXODR c.mstOdrCode]

/-- Stages 14 to 19: the soft reset of the magnetometer and the wait for it. -/
def magResetStages (c : Config) : List Stage :=
  writeAuxStages c c.magRegSrst magSrstByte ++ [.delay c.tMagResetMs]

/-- Stages 20 to 28: the magnetometer's mode, and the read of its data block. -/
def magReadStages (c : Config) : List Stage :=
  writeAuxStages c c.magRegMode magModeByte ++ readAuxStages c c.magRegXl magBlockLen

/-- The step list of AUXINIT is its parts (R173). -/
theorem stagesOf_auxInit (c : Config) : stagesOf c .auxInit = masterResetStages c ++
    (masterEnableStages ++ (settingStages c ++ (magResetStages c ++ magReadStages c))) := rfl

/-! ### Bringing up the engine: stages 1 to 13 -/

/-- Setting and clearing again the self-clearing bit of a byte that has it 0. -/
theorem mstReset_stored {v : Byte} (h : v.getLsbD 1 = false) : mstReset v &&& 0xFD#8 = v := by revert v; decide

theorem mstReset_bit1 (v : Byte) : (mstReset v).getLsbD 1 = true := by simp [mstReset]

/-- Enabling the master leaves the self-clearing bit 0. -/
theorem mstEnable_stored {v : Byte} (h : v.getLsbD 1 = false) :
    mstEnable v &&& 0xFD#8 = mstEnable v ∧ (mstEnable v).getLsbD 1 = false ∧ (mstEnable v).getLsbD 5 = true := by
  revert v; decide

/-- The master reset and the wait for its window (stages 1 to 4): the channel is disarmed, the window is closed again,
and `MSTCTL` reads as before. -/
theorem go_masterReset {op : Instr} {rest : List Stage} {n : Nat} {s : State} (g : Go (n + 3) s)
    (hm : s.dev.mstSettling = false) (hbit : (s.reg aMSTCTL).getLsbD 1 = false)
    (hc : channelLegal (s.reg aPT_CTRL) = true)
    (hw : s.cfg.auxWriteRepeat = false ∨ s.ptEn = false ∨ s.ptLen = 1) :
    ∃ t, runStages op (masterResetStages s.cfg ++ rest) 1 false [] s = runStages op rest 5 true [[s.reg aMSTCTL]] t ∧
      StageRel shadowAddrs [aMSTCTL] [s.okW 0x7F#8 0x00#8, s.okR 0x03#8 1 [s.reg aMSTCTL],
        s.okW 0x03#8 (s.reg aMSTCTL ||| 0x02#8)] s t ∧
      Go n t ∧ TurnSafe t ∧ t.dev.mstSettling = false ∧ t.reg aMSTCTL = s.reg aMSTCTL := by
  obtain ⟨t, update, stage, gt, stored, -, -, disarmed⟩ := go_selectMstctl (op := op)
    (rest := .delay s.cfg.tMstSettleMs :: rest) (k := 1) (d := false) (rs := []) (f := mstReset) g hm
    (.inl (mstReset_bit1 _))
  have unarmed : t.dev.auxArmed = false := disarmed (mstReset_bit1 _)
  have ctrl : t.reg aPT_CTRL = s.reg aPT_CTRL := stage.regs _ (by decide) (by decide)
  have safe : TurnSafe t := by
    refine ⟨ctrl ▸ hc, ?_⟩
    simp only [State.writeTurnSafe, State.writeDue, unarmed, State.ptEn, State.ptLen, ctrl, stage.same.cfg]
    rcases hw with once | off | one
    · simp [once]
    · simp [State.ptEn] at off; simp [off]
    · simp [State.ptLen] at one; simp [one]
  obtain ⟨w, u, v, wait, -, before, during, rfl, -, -, stage', -, armed, gw⟩ := go_delay (op := op) (rest := rest)
    (k := 4) (d := true) (rs := [[s.reg aMSTCTL]]) (ms := s.cfg.tMstSettleMs) gt fun u r => safe.delay gt.wf _ r
  have cfg : v.cfg = s.cfg := (before.trans during).cfg.trans stage.same.cfg
  have closed : (closeWindows s.cfg.tMstSettleMs v).dev.mstSettling = false := by simp [closeWindows, cfg]
  have kept := (stage'.regs aMSTCTL List.not_mem_nil (by decide)).trans (stored.trans (mstReset_stored hbit))
  exact ⟨_, update.trans wait, stage.trans stage', gw, safe.stage stage' List.not_mem_nil armed, closed, kept⟩

/-- Enabling the master (stages 5 to 7): from here on ticks may happen. -/
theorem go_masterEnable {op : Instr} {rest : List Stage} {b : Byte} {n : Nat} {s : State} (g : Go (n + 3) s)
    (safe : TurnSafe s) (hm : s.dev.mstSettling = false) (hbit : (s.reg aMSTCTL).getLsbD 1 = false) :
    ∃ t, runStages op (masterEnableStages ++ rest) 5 true [[b]] s = runStages op rest 8 true [[b], [s.reg aMSTCTL]] t ∧
      StageRel shadowAddrs [aMSTCTL] [s.okW 0x7F#8 0x00#8, s.okR 0x03#8 1 [s.reg aMSTCTL],
        s.okW 0x03#8 (s.reg aMSTCTL ||| 0x20#8)] s t ∧
      Go n t ∧ TurnSafe t ∧ t.tickEnabled = true ∧ t.reg aMSTCTL = s.reg aMSTCTL ||| 0x20#8 := by
  obtain ⟨kept, bit, enabled⟩ := mstEnable_stored hbit
  obtain ⟨t, update, stage, gt, stored, window, armed, -⟩ := go_selectMstctl (op := op) (rest := rest) (k := 5)
    (d := true) (rs := [[b]]) (f := mstEnable) g hm (.inr safe)
  rw [kept] at stored
  rw [bit] at window
  obtain ⟨dev, -⟩ := ready_succ g.ready
  have on : t.tickEnabled = true := tickEnabled_iff.mpr
    ⟨by rw [State.mstEn, stored]; exact enabled, stage.devSettling.trans dev, window⟩
  exact ⟨t, update, stage, gt, safe.stage stage (by decide) armed, on, stored⟩

theorem regAt_auxmctl (c : Config) : regAt c 3#2 oAUXMCTL = some .auxmctl := by simp [regAt, oAUXMCTL, oAUXODR]

theorem regAt_auxodr (c : Config) : regAt c 3#2 oAUXODR = some .auxodr := by simp [regAt]

/-- `LPCFG` is a register of bank 0, none of the registers of the banks above. -/
theorem aLPCFG_not_mem {l : List Nat} (c : Config) (h : ∀ a ∈ l, 256 ≤ a) : aLPCFG c ∉ l := by
  intro hm
  have lt : aLPCFG c < 256 := c.lpConfigOffset.isLt
  have le := h _ hm
  omega

/-- `LPCFG` lies apart from the other registers of bank 0 (10_state.md R36). -/
theorem aLPCFG_apart {c : Config} (h : lpOffsetOk c = true) : aMSTCTL ≠ aLPCFG c ∧ aPWR ≠ aLPCFG c := by
  have addr : regAddr 0#2 c.lpConfigOffset = aLPCFG c := by simp [regAddr, aLPCFG]
  rw [← addr]
  exact ⟨regAddr_ne (regAt_mstctl c) (regAt_lpcfg h) nofun, regAddr_ne (regAt_pwr c) (regAt_lpcfg h) nofun⟩

theorem aLPCFG_not_shadow {c : Config} (h : lpOffsetOk c = true) : aLPCFG c ∉ shadowAddrs := by
  intro hs
  obtain ⟨h1, h2⟩ := mem_shadowAddrs.mp hs
  simp only [aLPCFG, aSHADOW] at h1 h2
  have shadow := regAt_shadow c (o := c.lpConfigOffset) (by rw [BitVec.le_def]; exact h1)
    (by rw [BitVec.le_def]; show c.lpConfigOffset.toNat ≤ 0x42; omega)
  rw [regAt_lpcfg h] at shadow
  cases shadow

/-- The settings of the engine (stages 8 to 13). -/
theorem go_settings {op : Instr} {c : Config} {rest : List Stage} {rs : Reads} {n : Nat} {s : State} (g : Go (n + 6) s)
    (hc : s.cfg = c) (safe : TurnSafe s) (hl : lpOffsetOk c = true) :
    ∃ t, runStages op (settingStages c ++ rest) 8 true rs s = runStages op rest 14 true rs t ∧
      StageRel shadowAddrs [aAUXMCTL, aLPCFG c, aAUXODR]
        [s.okW 0x7F#8 0x30#8, s.okW 0x01#8 c.mstClkCode, s.okW 0x7F#8 0x00#8, s.okW c.lpConfigOffset c.lpConfigValue,
          s.okW 0x7F#8 0x30#8, s.okW 0x00#8 c.mstOdrCode] s t ∧
      EngineSame s t ∧ Go n t ∧ TurnSafe t ∧ t.reg aAUXMCTL = c.mstClkCode ∧ t.reg (aLPCFG c) = c.lpConfigValue ∧
      t.reg aAUXODR = c.mstOdrCode := by
  have apart : aLPCFG c ∉ [aAUXMCTL, aPT_CTRL] := aLPCFG_not_mem c (by decide)
  obtain ⟨mctl, ctrl⟩ : aAUXMCTL ≠ aLPCFG c ∧ aPT_CTRL ≠ aLPCFG c := by simpa [eq_comm] using apart
  have addr : regAddr 0#2 c.lpConfigOffset = aLPCFG c := by simp [regAddr, aLPCFG]
  obtain ⟨t1, run1, stage1, engine1, g1, stored1, armed1⟩ := go_selectPut (op := op) (k := 8) (d := true) (rs := rs)
    (rest := selStage 0#8 :: putStage c.lpConfigOffset c.lpConfigValue :: selStage 3#8 ::
      putStage oAUXODR c.mstOdrCode :: rest) (bank := 3#8) (v := c.mstClkCode) (n := n + 4) g (by decide)
    (regAt_auxmctl s.cfg) rfl nofun
  obtain ⟨t2, run2, stage2, engine2, g2, stored2, armed2⟩ := go_selectPut (op := op) (k := 10) (d := true) (rs := rs)
    (rest := selStage 3#8 :: putStage oAUXODR c.mstOdrCode :: rest) (bank := 0#8) (v := c.lpConfigValue)
    (n := n + 2) (o := c.lpConfigOffset) (b := 0#2) (nm := .lpcfg) g1 (by decide)
    (by rw [stage1.same.cfg, hc]; exact regAt_lpcfg hl) rfl nofun
  obtain ⟨t, run3, stage3, engine3, g3, stored3, armed3⟩ := go_selectPut (op := op) (k := 12) (d := true) (rs := rs)
    (rest := rest) (bank := 3#8) (v := c.mstOdrCode) g2 (by decide) (regAt_auxodr t2.cfg) rfl nofun
  rw [addr] at stage2 stored2
  rw [stage2.okW, stage1.okW] at stage3
  rw [stage1.okW] at stage2
  have whole := (stage1.trans stage2).trans stage3
  have arms : t.dev.auxArmed = true → s.dev.auxArmed = true := fun h => armed1.arm (armed2.arm (armed3.arm h))
  have clock : t.reg aAUXMCTL = c.mstClkCode := by
    rw [stage3.regs _ (by decide) (by decide), stage2.regs _ (by simpa using mctl) (by decide)]; exact stored1
  have lp : t.reg (aLPCFG c) = c.lpConfigValue := by
    rw [stage3.regs _ (aLPCFG_not_mem c (by decide)) (aLPCFG_not_shadow hl)]; exact stored2
  refine ⟨t, run1.trans (run2.trans run3), whole, (engine1.trans engine2).trans engine3, g3, ?_, clock, lp, stored3⟩
  exact safe.stage whole (by simpa using ⟨by decide, ctrl, by decide⟩) arms

theorem StageRel.weaken {e w w' : List Nat} {x : List Txn} {s t : State} (h : StageRel e w x s t) (hw : w ⊆ w') :
    StageRel e w' x s t :=
  { h with regs := fun a ha he => h.regs a (fun m => ha (hw m)) he }

/-- Stages 1 to 13 of AUXINIT: the engine is enabled and set, no window is open, and no tick is refused. -/
theorem go_bringUp {op : Instr} {c : Config} {rest : List Stage} {n : Nat} {s : State} (g : Go (n + 12) s)
    (inv : s.Inv) (hc : s.cfg = c) (hl : lpOffsetOk c = true) (window : s.dev.mstSettling = false)
    (turn : c.auxWriteRepeat = false ∨ s.ptEn = false ∨ s.ptLen = 1) :
    ∃ t rs, runStages op (masterResetStages c ++ (masterEnableStages ++ (settingStages c ++ rest))) 1 false [] s =
        runStages op rest 14 true rs t ∧
      StageRel shadowAddrs [aMSTCTL, aAUXMCTL, aLPCFG c, aAUXODR]
        [s.okW 0x7F#8 0x00#8, s.okR 0x03#8 1 [s.reg aMSTCTL], s.okW 0x03#8 (s.reg aMSTCTL ||| 0x02#8),
         s.okW 0x7F#8 0x00#8, s.okR 0x03#8 1 [s.reg aMSTCTL], s.okW 0x03#8 (s.reg aMSTCTL ||| 0x20#8),
         s.okW 0x7F#8 0x30#8, s.okW 0x01#8 c.mstClkCode, s.okW 0x7F#8 0x00#8, s.okW c.lpConfigOffset c.lpConfigValue,
         s.okW 0x7F#8 0x30#8, s.okW 0x00#8 c.mstOdrCode] s t ∧
      Go n t ∧ TurnSafe t ∧ t.tickEnabled = true ∧ t.reg aMSTCTL = s.reg aMSTCTL ||| 0x20#8 ∧
      t.reg aAUXMCTL = c.mstClkCode ∧ t.reg (aLPCFG c) = c.lpConfigValue ∧ t.reg aAUXODR = c.mstOdrCode := by
  subst hc
  obtain ⟨s1, reset, stage1, g1, safe1, window1, kept⟩ := go_masterReset (op := op) (n := n + 9)
    (rest := masterEnableStages ++ (settingStages s.cfg ++ rest)) g window inv.mstRst inv.channel turn
  obtain ⟨s2, enable, stage2, g2, safe2, on, enabled⟩ := go_masterEnable (op := op) (n := n + 6)
    (rest := settingStages s.cfg ++ rest) (b := s.reg aMSTCTL) g1 safe1 window1 (kept ▸ inv.mstRst)
  rw [stage1.okW, stage1.okR, kept] at stage2
  have upto2 := stage1.trans stage2
  obtain ⟨t, set, stage3, engine, gt, safe3, clock, value, rate⟩ := go_settings (op := op) (rest := rest) g2
    upto2.same.cfg safe2 hl
  rw [upto2.okW] at stage3
  obtain ⟨apart, -⟩ := aLPCFG_apart hl
  have master : t.reg aMSTCTL = s.reg aMSTCTL ||| 0x20#8 := by
    rw [stage3.regs _ (by simpa using ⟨by decide, apart, by decide⟩) (by decide), enabled, kept]
  exact ⟨t, _, reset.trans (enable.trans set), (upto2.trans stage3).weaken (by simp), gt, safe3, engine.tick.trans on,
    master, clock, value, rate⟩

/-! ### The bridge's operations inside AUXINIT: stages 14 to 28 -/

/-- The event is in the history of the auxiliary bus. -/
def Happened (e : AuxEvent) (s : State) : Prop := e ∈ s.hist

/-- The write of `v` to register `r` of the target at `a7` is set up on the channel, and is due or has happened. -/
structure Sending (a7 : BitVec 7) (r v : Byte) (s : State) : Prop where
  set : WriteSet a7 r v s
  sent : s.writeDue = true ∨ Happened (.auxW a7 r v) s

theorem Happened.later {e : AuxEvent} {s t : State} (h : Happened e s) (grown : s.hist <+: t.hist) : Happened e t :=
  grown.subset h

theorem tickKept_happened (e : AuxEvent) : TickKept (Happened e) where
  tick := fun j ht => j.later (engineRel_tick ht).hist
  of_eq := fun j _ _ _ _ hh => j.later (hh ▸ List.prefix_refl _)

theorem Sending.tick {a7 : BitVec 7} {r v : Byte} {s t : State} (j : Sending a7 r v s) (ht : tick s = .ok t) :
    Happened (.auxW a7 r v) t := by
  rcases j.sent with due | happened
  · exact j.set.delivers due ht
  · exact (tickKept_happened _).tick happened ht

theorem tickKept_sending (a7 : BitVec 7) (r v : Byte) : TickKept (Sending a7 r v) where
  tick := fun j ht => ⟨j.set.engine (engineRel_tick ht), .inr (j.tick ht)⟩
  of_eq := fun j hc hr ha hm hh => ⟨j.set.of_regs hr,
    j.sent.imp (writeDue_of_eq hc ha).trans fun happened => (tickKept_happened _).of_eq happened hc hr ha hm hh⟩

/-- The soft reset of the magnetometer and the wait for it (stages 14 to 19), in which it is delivered if the device is
awake and the wait guarantees a tick. -/
theorem go_magReset {op : Instr} {c : Config} {rest : List Stage} {rs : Reads} {n : Nat} {s : State} (g : Go (n + 5) s)
    (hc : s.cfg = c) (safe : TurnSafe s) (on : s.tickEnabled = true) :
    ∃ t, runStages op (magResetStages c ++ rest) 14 true rs s = runStages op rest 20 true rs t ∧
      StageRel shadowAddrs [aPT_ADDR, aPT_REG, aPT_DO, aPT_CTRL]
        [s.okW 0x7F#8 0x30#8, s.okW 0x03#8 (c.magAddr7.setWidth 8), s.okW 0x04#8 c.magRegSrst, s.okW 0x06#8 0x01#8,
          s.okW 0x05#8 0x81#8] s t ∧
      Go n t ∧ TurnSafe t ∧ t.dev.mstSettling = false ∧
      (s.asleep = false → 1 ≤ guaranteedTicks c c.tMagResetMs →
        Happened (.auxW c.magAddr7 c.magRegSrst 0x01#8) t) := by
  subst hc
  obtain ⟨t, write, stage, engine, gt, -, armed, addr, reg, data, ctrl⟩ := go_writeAux (op := op) (k := 14) (d := true)
    (rs := rs) (rest := .delay s.cfg.tMagResetMs :: rest) s.cfg.magRegSrst magSrstByte g safe.legal (.inr safe.safe)
  have turn : TurnSafe t := turnSafe_of_ctrl ctrl
  obtain ⟨-, u, v, wait, before, rel, rel', rfl, -, during, stage', -, -, gv⟩ := go_delay (op := op) (rest := rest)
    (k := 19) (d := true) (rs := rs) (ms := s.cfg.tMagResetMs) gt fun u r => turn.delay gt.wf _ r
  have window : t.dev.mstSettling = false := (tickEnabled_iff.mp (engine.tick.trans on)).2.2
  have closed : (closeWindows s.cfg.tMagResetMs v).dev.mstSettling = false := by
    have hv : v.dev.mstSettling = false := (rel.trans rel').mstSettling.trans window
    simp [closeWindows, hv]
  have ctrl' : (closeWindows s.cfg.tMagResetMs v).reg aPT_CTRL = 0x81#8 :=
    (stage'.regs _ List.not_mem_nil (by decide)).trans ctrl
  refine ⟨_, write.trans wait, stage.shadow.trans stage', gv, turnSafe_of_ctrl ctrl', closed, fun awake least => ?_⟩
  have live : Ticking s.cfg t := Ticking.stage ⟨rfl, on, awake⟩ stage.shadow engine (by decide)
  have sending : Sending s.cfg.magAddr7 s.cfg.magRegSrst 0x01#8 t :=
    ⟨⟨gt.wf, addr, reg, data, ctrl⟩, .inl (by rw [State.writeDue, armed]; rfl)⟩
  exact (tickKept_happened _).closeWindows _ ((tickKept_sending _ _ _).delayed (tickKept_happened _)
    (fun _ _ j ht => j.tick ht) gt.wf live least sending before during)

/-- Setting the magnetometer's mode and the read of its data block (stages 20 to 28). -/
theorem go_magRead {op : Instr} {c : Config} {rs : Reads} {n : Nat} {s : State} (g : Go (n + 9) s) (hc : s.cfg = c)
    (safe : TurnSafe s) :
    ∃ t, runStages op (magReadStages c) 20 true rs s = .done t rs ∧
      StageRel shadowAddrs [aPT_ADDR, aPT_REG, aPT_DO, aPT_CTRL]
        [s.okW 0x7F#8 0x30#8, s.okW 0x03#8 (c.magAddr7.setWidth 8), s.okW 0x04#8 c.magRegMode, s.okW 0x06#8 0x08#8,
          s.okW 0x05#8 0x81#8, s.okW 0x7F#8 0x30#8, s.okW 0x03#8 (c.magAddr7.setWidth 8 ||| 0x80#8),
          s.okW 0x04#8 c.magRegXl, s.okW 0x05#8 0x88#8] s t ∧
      EngineSame s t ∧ t.reg aPT_ADDR = c.magAddr7.setWidth 8 ||| 0x80#8 ∧ t.reg aPT_REG = c.magRegXl ∧
      t.reg aPT_DO = 0x08#8 ∧ t.reg aPT_CTRL = 0x88#8 ∧ t.dev.auxArmed = true ∧ t.dev.banksel = 0x30#8 := by
  subst hc
  obtain ⟨t, write, stage, engine, gt, -, -, -, -, data, ctrl⟩ := go_writeAux (op := op) (k := 20) (d := true)
    (rs := rs) (rest := readAuxStages s.cfg s.cfg.magRegXl magBlockLen) s.cfg.magRegMode magModeByte g safe.legal
    (.inr safe.safe)
  obtain ⟨u, read, stage', engine', -, sel, armed, addr, reg, ctrl'⟩ := go_readAux (op := op) (k := 25) (d := true)
    (rs := rs) (rest := []) s.cfg.magRegXl magBlockLen gt (by rw [ctrl]; decide) (by decide) (by decide)
  rw [stage.same.cfg] at read addr stage'
  rw [stage.okW] at stage'
  rw [List.append_nil] at read
  have whole := (stage.shadow.trans stage'.shadow).weaken (w' := [aPT_ADDR, aPT_REG, aPT_DO, aPT_CTRL]) (by decide)
  have data' : u.reg aPT_DO = 0x08#8 := (stage'.shadow.regs _ (by decide) (by decide)).trans data
  exact ⟨u, write.trans read, whole, engine.trans engine', addr, reg, data', ctrl', armed, sel⟩

/-! ### AUXINIT -/

/-- Settles O45: the parts of the step list one after the other. The master reset disarms the channel, so that from then
on no tick is refused; the soft reset is delivered in the wait after it, and nothing leaves the history. -/
theorem auxInitBringsUpTheBridge : Obligations.AuxInitBringsUpTheBridge := by
  intro s inv calm hl window turn ready
  have go : Go 26 s := Go.of_ready inv calm ready
  have adm : admitted s.cfg .auxInit = true := by simpa [admitted, Instr.wf] using hl
  obtain ⟨t, rs, bringUp, stage1, gt, safe, on, master, clock, value, rate⟩ := go_bringUp (op := .auxInit) (n := 14)
    (rest := magResetStages s.cfg ++ magReadStages s.cfg) go inv rfl hl window turn
  obtain ⟨u, reset, stage2, gu, safe', window', happened⟩ := go_magReset (op := .auxInit) (n := 9)
    (rest := magReadStages s.cfg) (rs := rs) gt stage1.same.cfg safe on
  rw [stage1.okW] at stage2
  have upto2 := stage1.trans stage2
  obtain ⟨v, read, stage3, engine, addr, reg, data, ctrl, armed, sel⟩ := go_magRead (op := .auxInit) (n := 0) (rs := rs)
    gu upto2.same.cfg safe'
  rw [upto2.okW] at stage3
  have whole := upto2.trans stage3
  have bridge := stage2.trans stage3
  have ends : exec .auxInit s = .next (complete drvConfigured v) :=
    (exec_eq_runOp rfl adm go.valid).trans (runOp_done (bringUp.trans (reset.trans read)))
  obtain ⟨dev, -⟩ := ready_succ go.ready
  obtain ⟨cfg, host, handle, fus⟩ := whole.same
  obtain ⟨-, apart⟩ := aLPCFG_apart hl
  have power : t.reg aPWR = s.reg aPWR :=
    stage1.regs _ (by simpa using ⟨by decide, by decide, apart, by decide⟩) (by decide)
  have lp : v.reg (aLPCFG s.cfg) = s.cfg.lpConfigValue :=
    (bridge.regs _ (aLPCFG_not_mem s.cfg (by decide)) (aLPCFG_not_shadow hl)).trans value
  refine ⟨_, ends, rfl, whole.trace, (bridge.regs _ (by decide) (by decide)).trans master,
    (bridge.regs _ (by decide) (by decide)).trans clock, lp, (bridge.regs _ (by decide) (by decide)).trans rate, addr,
    reg, data, ctrl, armed, engine.mstSettling.trans window', whole.devSettling.trans dev, sel,
    ⟨cfg, host, handle, fus⟩, whole.res, fun awake least => (happened ?_ least).later engine.hist⟩
  rw [State.asleep, power]
  exact awake

end Sys2Proof.Machine
end

section
/-! PROOF. The auxiliary engine (43_aux_engine.md): which channel configurations a tick refuses (R200), what the read
and the write transfer of a tick leave (R193, R194), that a long enough delay performs an armed write once (R199), and
the master reset (R196). -/

namespace Sys2Proof.Machine

/-! ### Which ticks are refused -/

theorem and_70_eq_zero_iff (v : Byte) : v &&& 0x70#8 = 0#8 ↔ v.extractLsb' 4 3 = 0#3 := by revert v; decide

/-- The channel configurations of R200, on the fields of the channel registers. -/
theorem refusedConfig_iff {s : State} : s.refusedConfig = true ↔
    (s.reg aPT_CTRL).extractLsb' 4 3 ≠ 0#3 ∨ (s.ptRd = true ∧ (s.ptLen = 0 ∨ 8 < s.ptLen)) ∨
      (s.ptRd = false ∧ (s.dev.auxArmed = true ∨ s.cfg.auxWriteRepeat = true) ∧ s.ptLen ≠ 1) := by
  simp only [State.refusedConfig, State.writeDue, Bool.or_eq_true, Bool.and_eq_true, Bool.not_eq_true',
    decide_eq_true_eq, or_assoc, and_assoc, ne_eq, and_70_eq_zero_iff]

theorem tick_off {s : State} (off : s.ptEn = false) : tick s = .ok (countTick s) := by
  rw [tick, off, if_neg Bool.false_ne_true]

theorem tick_refused_iff {s : State} (en : s.ptEn = true) :
    tick s = .error .engineConfig ↔ s.refusedConfig = true := by
  constructor
  · intro refused
    refine Bool.eq_true_of_not_eq_false fun ok => ?_
    obtain ⟨t, ht⟩ := tick_ok (.inr ok)
    rw [ht] at refused
    cases refused
  · intro refused
    rw [tick, if_pos en, if_pos refused]

/-- Settles O48: an enabled channel is refused by the engine's own test, which lists the configurations of R200. -/
theorem tickRefusesOddConfigurations : Obligations.TickRefusesOddConfigurations := fun _ =>
  ⟨tick_off, fun en => (tick_refused_iff en).trans refusedConfig_iff⟩

/-! ### The read transfer -/

theorem tick_reads {s : State} (en : s.ptEn = true) (rd : s.ptRd = true) (ok : s.refusedConfig = false) :
    tick s = .ok (readTransfer s.ptA7 (s.reg aPT_REG) s.ptLen (countTick s)) := by
  rw [tick, if_pos en, ok, if_neg Bool.false_ne_true, if_pos rd]

/-- A read transfer changes the shadow registers, the armed flag and the ages of the device, appends to the history, and
leaves the target (R193). -/
theorem readTransfer_spec (a7 : BitVec 7) (r : Byte) (n : Nat) (s : State) :
    (readTransfer a7 r n s).dev = { s.dev with
      regs := Memory.setRun s.dev.regs aSHADOW (auxRead a7 r n s).1
      auxArmed := false
      age := ageWritten n s.dev.tickNo s.dev.age } ∧
    (readTransfer a7 r n s).hist = s.hist ++ [.auxR a7 r n (auxRead a7 r n s).1] ∧
    (readTransfer a7 r n s).mag = s.mag := by
  obtain ⟨-, o, oracle⟩ := auxRead_spec a7 r n s
  rw [readTransfer, oracle]
  exact ⟨rfl, rfl, rfl⟩

/-- The bytes of a read transfer lie in the first shadow registers, and the other registers read as before. -/
theorem reg_readTransfer {s : State} (wf : Memory.wf s.dev.regs = true) (a7 : BitVec 7) (r : Byte) (n a : Nat) :
    (readTransfer a7 r n s).reg a = if aSHADOW ≤ a ∧ a < aSHADOW + n
      then (auxRead a7 r n s).1.getD (a - aSHADOW) 0#8 else s.reg a := by
  obtain ⟨length, -⟩ := auxRead_spec a7 r n s
  rw [State.reg, (readTransfer_spec a7 r n s).1]
  refine (Memory.get_setRun wf).trans ?_
  rw [length]
  rfl

/-- A run inside the array of the test double is answered from it (R198). -/
theorem auxRead_inside {T : Memory} {s : State} {a7 : BitVec 7} {r : Byte} {n : Nat} (double : s.mag = .double T)
    (own : a7 = s.cfg.magAddr7) (inside : r.toNat + n ≤ 256) :
    auxRead a7 r n s = (Memory.getRun T r.toNat n, s) := by
  simp only [auxRead, double, if_pos own, if_pos inside]

theorem getElem_ageWritten (n k : Nat) (age : Vector (Option Nat) 8) (i : Fin 8) :
    (ageWritten n k age)[i] = if i.val < n then some k else age[i] :=
  Vector.getElem_ofFn i.isLt

/-- The lengths of a read that is not refused. -/
theorem ptLen_of_reading {s : State} (rd : s.ptRd = true) (ok : s.refusedConfig = false) :
    1 ≤ s.ptLen ∧ s.ptLen ≤ 8 := by
  have inRange : ¬(s.ptLen = 0 ∨ 8 < s.ptLen) := fun bad => by
    rw [refusedConfig_iff.mpr (.inr (.inl ⟨rd, bad⟩))] at ok
    cases ok
  omega

/-- Settles O46: the tick is a read transfer, which writes the bytes as one run from the first shadow register on. -/
theorem tickPerformsTheReadTransfer : Obligations.TickPerformsTheReadTransfer := by
  intro s wf en rd ok
  obtain ⟨low, high⟩ := ptLen_of_reading rd ok
  obtain ⟨length, -⟩ := auxRead_spec s.ptA7 (s.reg aPT_REG) s.ptLen (countTick s)
  obtain ⟨dev, hist, mag⟩ := readTransfer_spec s.ptA7 (s.reg aPT_REG) s.ptLen (countTick s)
  have reg := reg_readTransfer (s := countTick s) wf s.ptA7 (s.reg aPT_REG) s.ptLen
  refine ⟨_, _, tick_reads en rd ok, length, low, high, fun i hi => ?_, fun a outside => ?_,
    congrArg Dev.auxArmed dev, hist, mag, fun i => ?_, fun T double own inside i hi => ?_⟩
  · rw [reg, if_pos (by omega), Nat.add_sub_cancel_left]
  · exact (reg a).trans (if_neg fun ⟨above, below⟩ => outside (a - aSHADOW) (by omega) (by omega))
  · rw [dev]
    exact getElem_ageWritten _ _ _ i
  · rw [auxRead_inside (s := countTick s) double own inside]
    exact Memory.getD_getRun T _ _ i hi

/-! ### The write transfer -/

theorem tick_writes {s : State} (en : s.ptEn = true) (rd : s.ptRd = false) (ok : s.refusedConfig = false) :
    tick s = .ok (writeTransfer s.ptA7 (s.reg aPT_REG) (countTick s)) := by
  rw [tick, if_pos en, ok, if_neg Bool.false_ne_true, rd, if_neg Bool.false_ne_true]

theorem writeTransfer_idle {s : State} (a7 : BitVec 7) (r : Byte) (idle : s.writeDue = false) :
    writeTransfer a7 r s = s := by
  rw [writeTransfer, idle, if_neg Bool.false_ne_true]

/-- A write transfer leaves the channel unarmed, and otherwise the device as it is, whether a write was due or not. -/
theorem writeTransfer_dev (a7 : BitVec 7) (r : Byte) (s : State) :
    (writeTransfer a7 r s).dev = { s.dev with auxArmed := false } := by
  cases due : s.writeDue
  · rw [writeTransfer_idle a7 r due, ← (Bool.or_eq_false_iff.mp due).1]
  · rw [writeTransfer, if_pos due]
    rfl

theorem writeTransfer_due {s : State} (a7 : BitVec 7) (r : Byte) (due : s.writeDue = true) :
    (writeTransfer a7 r s).hist = s.hist ++ [.auxW a7 r (s.reg aPT_DO)] ∧
    (writeTransfer a7 r s).mag = s.mag.write s.cfg.magAddr7 a7 r (s.reg aPT_DO) := by
  rw [writeTransfer, if_pos due]
  exact ⟨rfl, rfl⟩

/-- The test double at its own address holds the byte written (R198). -/
theorem AuxTarget.write_own {x : AuxTarget} {T : Memory} {magAddr7 a7 : BitVec 7} {r v : Byte} (double : x = .double T)
    (own : a7 = magAddr7) : x.write magAddr7 a7 r v = .double (Memory.set T r.toNat v) := by
  rw [double, AuxTarget.write, if_pos own]

/-- Settles O47: the tick is a write transfer, which acts on the target and the history exactly when a write is due. -/
theorem tickPerformsTheWriteTransfer : Obligations.TickPerformsTheWriteTransfer := by
  intro s en rd ok
  have dev := writeTransfer_dev s.ptA7 (s.reg aPT_REG) (countTick s)
  have unarmed := congrArg Dev.auxArmed dev
  refine ⟨_, tick_writes en rd ok, (congrArg Dev.regs dev :), (congrArg Dev.banksel dev :),
    congrArg Dev.tickNo dev, fun due => ?_, fun idle => ?_⟩
  · obtain ⟨hist, mag⟩ := writeTransfer_due (s := countTick s) s.ptA7 (s.reg aPT_REG) due
    exact ⟨unarmed, hist, fun T double own => mag.trans (AuxTarget.write_own double own)⟩
  · rw [writeTransfer_idle (s := countTick s) _ _ idle] at unarmed ⊢
    exact ⟨unarmed, rfl, rfl⟩

/-! ### A delay that delivers -/

theorem tickPoint_on {s : State} (on : s.tickEnabled = true) : tickPoint s = ticks s.scheduled s.afterSchedule :=
  if_pos on

/-- An armed write is performed once by a run of ticks, possibly none, and a later run of at least one. -/
theorem Writing.ticks_then_ticks {a7 : BitVec 7} {r v : Byte} {n m : Nat} {s u t : State} (h : Writing a7 r v s)
    (armed : s.dev.auxArmed = true) (one : 1 ≤ m) (first : Sys2Proof.Machine.ticks n s = .ok u)
    (later : Sys2Proof.Machine.ticks m u.afterSchedule = .ok t) :
    t.dev.auxArmed = false ∧ t.hist = s.hist ++ [.auxW a7 r v] ∧ t.mag = s.mag.write s.cfg.magAddr7 a7 r v := by
  have rel := (engineRel_ticks first).1
  obtain ⟨armed1, hist1, mag1⟩ := h.ticks first
  have final := ((h.engine rel).engine (engineRel_afterSchedule u)).ticks later
  have some2 : m ≠ 0 := by omega
  simp only [State.afterSchedule, State.setEnv_dev, State.setEnv_hist, State.setEnv_mag, State.setEnv_cfg, armed1,
    hist1, mag1, rel.cfg, armed] at final
  by_cases none1 : n = 0
  · simpa [none1, some2] using final
  · simpa [none1, some2] using final

/-- Settles O49: the ticks of the scheduling point before the delay, and then the guaranteed tick, perform the write
once; closing windows and completing touch neither the channel nor the target. -/
theorem delayDeliversTheArmedWrite : Obligations.DelayDeliversTheArmedWrite := by
  intro ms s inv on awake least en rd len armed once
  have calm : s.calm = true := calm_of_channel inv.channel (.inr len)
  have ok : s.refusedConfig = false := by simpa [State.calm, on, en] using calm
  obtain ⟨u, v, before, -, during, ends⟩ := exec_delay_ok (ms := ms) inv.regsWf calm
  have busy : Ticking s.cfg (s.setActivity (.busy (.delay ms) 1)) := ⟨rfl, on, awake⟩
  have live : Ticking s.cfg u := busy.engine inv.regsWf (engineRel_tickPoint before)
  obtain ⟨m, enough, later⟩ := during live.on
  rw [State.delayTicks, live.awake, live.cfg] at enough
  rw [tickPoint_on busy.on] at before
  have writing : Writing s.ptA7 (s.reg aPT_REG) (s.reg aPT_DO)
      (s.setActivity (.busy (.delay ms) 1)).afterSchedule :=
    ⟨inv.regsWf, en, rd, ok, rfl, rfl, rfl, once⟩
  obtain ⟨unarmed, hist, mag⟩ := writing.ticks_then_ticks armed (least.trans enough) before later
  exact ⟨_, ends, unarmed, hist, fun T double own => mag.trans (AuxTarget.write_own double own)⟩

/-! ### Master reset -/

theorem devWrite_mstctl {s : State} (v : Byte) (bank : s.bank = 0#2) :
    devWrite oMSTCTL v s = .ok (writeMstctl v s) := by
  rw [devWrite, if_neg (by decide), bank, regAt_mstctl]

/-- With bit 1 set the byte is stored without it, the channel is disarmed and the master window opens (R196). -/
theorem writeMstctl_reset {v : Byte} (s : State) (reset : v.getLsbD 1 = true) :
    (writeMstctl v s).dev = { s.dev with
      regs := Memory.set s.dev.regs aMSTCTL (v &&& 0xFD#8), auxArmed := false, mstSettling := true } := by
  rw [writeMstctl, if_pos reset]
  rfl

/-- Settles O57: the write is the master reset, and the open master window keeps the engine from ticking. -/
theorem masterResetEffects : Obligations.MasterResetEffects := by
  intro v s wf bank reset
  have dev := writeMstctl_reset s reset
  have reg := reg_of_set wf (congrArg Dev.regs dev)
  have window : (writeMstctl v s).dev.mstSettling = true := congrArg Dev.mstSettling dev
  have still : (writeMstctl v s).tickEnabled = false := by
    rw [State.tickEnabled, window, Bool.not_true, Bool.and_false]
  exact ⟨_, devWrite_mstctl v bank, (reg _).trans (if_pos rfl), congrArg Dev.auxArmed dev, window, still,
    (congrArg Dev.devSettling dev :), (congrArg Dev.banksel dev :), fun a ha => (reg a).trans (if_neg ha)⟩

end Sys2Proof.Machine
end

section
/-! PROOF. The fusion unit (44_fusion.md): what its two operations leave alone, and the values they write, spelled out in
the evaluation order of R212. -/

namespace Sys2Proof.Machine

/-- An operation that takes one fusion draw, writes the unit's registers and completes leaves everything else alone
(R210). -/
theorem frame_of_complete_setFus {i : Instr} {s : State} {v : Fusion}
    (h : exec i s = .next (complete id (s.afterFdraw.setFus v))) :
    ∃ t, exec i s = .next t ∧ t.status = ⟨0#4, 0#8, none⟩ ∧ t.fus = v ∧
      SameBus s t ∧ t.res = s.res ∧ t.handle = s.handle ∧ t.drv = s.drv :=
  have bus : SameBus s (complete id (s.afterFdraw.setFus v)) := ⟨rfl, rfl, rfl, rfl, rfl, rfl, rfl, rfl, rfl⟩
  ⟨_, h, rfl, rfl, bus, rfl, rfl, rfl⟩

/-! ### ELEVATION -/

theorem exec_elevation (s : State) : exec .elevation s = .next (complete id (s.afterFdraw.setFus { s.fus with
    elev := if elevDegenerate s.fus.fa then s.drawFlt else elevFormula s.cfg.elevVariant s.fus.fa })) := rfl

/-- Both variants turn the arc tangent into degrees and add 90; they differ in its sign (R213). -/
theorem elevFormula_of_atan2 {v : ElevVariant} {a : Vec3 Flt} {x : Flt}
    (formula : v = .formula → x = NUM.neg (NUM.atan2 a.z (elevH a)))
    (vectors : v = .vectors → x = NUM.atan2 a.z (elevH a)) :
    elevFormula v a = NUM.add (deg x) (NUM.lit ⟨90, 0⟩) := by
  cases v with
  | formula => rw [formula rfl, elevFormula]
  | vectors => rw [vectors rfl, elevFormula]

/-- Settles O51: the operation ends with ELEV written, and the value is that of the configured variant. -/
theorem elevationWritesTheFormula : Obligations.ElevationWritesTheFormula := by
  rintro s h x rfl formula vectors
  have value : elevFormula s.cfg.elevVariant s.fus.fa = NUM.add (deg x) (NUM.lit ⟨90, 0⟩) :=
    elevFormula_of_atan2 formula vectors
  have ends := exec_elevation s
  rw [value] at ends
  exact frame_of_complete_setFus ends

/-! ### AZIMUTH -/

theorem exec_azimuth (s : State) : exec .azimuth s = .next (complete id (s.afterFdraw.setFus { s.fus with
    azim := if azimDegenerate s.cfg.refAxis s.fus.fa s.fus.fh then s.drawFlt
      else azimFormula (s.cfg.refAxis.map NUM.lit) s.fus.fa s.fus.fh })) := rfl

/-- A vector with the components of R215 is the cross vector. -/
theorem eq_cross {u v c : Vec3 Flt} (x : c.x = NUM.sub (NUM.mul u.y v.z) (NUM.mul u.z v.y))
    (y : c.y = NUM.sub (NUM.mul u.z v.x) (NUM.mul u.x v.z)) (z : c.z = NUM.sub (NUM.mul u.x v.y) (NUM.mul u.y v.x)) :
    c = cross u v := by
  obtain ⟨cx, cy, cz⟩ := c
  cases x; cases y; cases z
  rfl

/-- Settles O52: the operation ends with AZIM written; once the vector `C` is known to be the cross vector, the
quotient is the normalizer's. -/
theorem azimuthWritesTheNormalizedAngle : Obligations.AzimuthWritesTheNormalizedAngle := by
  rintro s A H R C dd nC nR q rfl rfl rfl x y z hd hC hR hq
  obtain rfl : C = cross s.fus.fa s.fus.fh := eq_cross x y z
  have quotient : q = azimQ (s.cfg.refAxis.map NUM.lit) s.fus.fa s.fus.fh := by
    rw [hq, hd, hC, hR]
    rfl
  rw [quotient]
  exact frame_of_complete_setFus (exec_azimuth s)

end Sys2Proof.Machine
end

section
/-! PROOF. Errors (60_exceptions.md): how an operation ends and with which status (R231), the checks that raise before
any traffic (R232), which step of a step list failed and with which code (R233), and what an operation that raises
leaves alone (R236). -/

namespace Sys2Proof.Machine

/-! ### How an operation ends -/

/-- An operation ends idle with a status of the table of R231: what completes or is rejected by what it writes, a step
list that raises by the number of its failing stage. -/
theorem exec_ends_idle_legal {i : Instr} {s t : State} (he : exec i s = .next t) :
    t.activity = .idle ∧ t.status.legal = true := by
  refine exec_next_cases (R := fun u => u.activity = .idle ∧ u.status.legal = true) he ⟨rfl, rfl⟩
    (fun _ _ _ _ _ => ⟨rfl, rfl⟩) (fun _ _ => ⟨rfl, rfl⟩) (fun _ _ => ⟨rfl, rfl⟩) (fun _ _ => ⟨rfl, rfl⟩) fun hr =>
    ⟨fun u rs _ => idle_finishOf hr rs u, fun u hu => ?raised⟩
  case raised =>
    rcases hr with ⟨hb, -, -⟩ | ⟨ms, rfl⟩
    · have legal := legal_of_raised hb hu
      obtain ⟨d, j, e, v, -, rfl⟩ := SeqKept.run.2 u hu
      exact ⟨rfl, legal⟩
    · exact absurd hu (runStages_delay.2 u)

/-- Settles O11: a next state is idle with a status of the table, and `Fault` has no value (93_implementation_defined.md
U24). -/
theorem everyOperationEndsIdleWithTableStatus : Obligations.EveryOperationEndsIdleWithTableStatus := fun _ _ =>
  ⟨fun _ he => exec_ends_idle_legal he, nofun⟩

/-! ### Which step failed -/

/-- A step fails only because its transaction does, and with the transport's error (R8, 20_memory.md R63). -/
theorem stageStep_failed_err {st : Stage} {rs : Reads} {e : TErr} {s t : State} (h : stageStep st rs s = .failed e t) :
    s.txnFails = true ∧ e = s.txnAnswer.err := by
  cases st with
  | write o v =>
    rcases memWrite_cases o (v rs) s with ⟨-, eq⟩ | ⟨-, hf, eq⟩ | ⟨-, -, r, -, eq⟩ | ⟨-, -, u, -, eq⟩ <;>
      simp [stageStep, eq] at h
    exact ⟨hf, h.1.symm⟩
  | read o n =>
    rcases memRead_cases o n s with ⟨-, eq⟩ | ⟨-, hf, eq⟩ | ⟨-, -, r, -, eq⟩ | ⟨-, -, bs, u, -, eq⟩ <;>
      simp [stageStep, eq] at h
    exact ⟨hf, h.1.symm⟩
  | delay ms =>
    simp only [stageStep] at h
    split at h <;> cases h

/-- A step list raises in its first step or, that step having succeeded, later. -/
theorem runStages_cons_raised_inv {op : Instr} {st : Stage} {rest : List Stage} {k : Nat} {d : Bool} {rs : Reads}
    {s t : State} (h : runStages op (st :: rest) k d rs s = .raised t) :
    ∃ s1, tickPoint (s.setActivity (.busy op k)) = .ok s1 ∧
      ((∃ e s2, stageStep st rs s1 = .failed e s2 ∧ t = raise (busFail d) k (some e) s2) ∨
       ∃ rs1 s2, stageStep st rs s1 = .ok rs1 s2 ∧
        runStages op rest (k + 1) (d || isConfigWrite st) rs1 s2 = .raised t) := by
  cases ht : tickPoint (s.setActivity (.busy op k)) with
  | error r => rw [runStages_cons_refused_tick ht] at h; cases h
  | ok s1 =>
    refine ⟨s1, rfl, ?_⟩
    cases hs : stageStep st rs s1 with
    | refused r => rw [runStages_cons_refused ht hs] at h; cases h
    | failed e s2 => rw [runStages_cons_failed ht hs] at h; cases h; exact .inl ⟨e, s2, rfl, rfl⟩
    | ok rs1 s2 => rw [runStages_cons_ok ht hs] at h; exact .inr ⟨rs1, s2, rfl, h⟩

/-- Raising a transaction error writes only `STATUS`, with code 4 after a configuration write and else 1 (R233). -/
theorem raise_busFail (d : Bool) (k : Nat) (e : TErr) (s : State) : raise (busFail d) k (some e) s =
    (s.setStatus ⟨if d then 4#4 else 1#4, BitVec.ofNat 8 k, some e⟩).setActivity .idle := by
  cases d <;> rfl

/-- Settles O24, by induction on the step list: its first step fails, or succeeds and joins the steps that ran before
the failing one. -/
theorem failureCodeTellsWhetherConfigured : Obligations.FailureCodeTellsWhetherConfigured := by
  intro op stages
  induction stages with
  | nil => intro k d rs s t h; cases h
  | cons st rest ih =>
    intro k d rs s t h
    obtain ⟨s1, ht, ⟨e, s2, hs, rfl⟩ | ⟨rs1, s2, hs, hrest⟩⟩ := runStages_cons_raised_inv h
    · obtain ⟨hf, he⟩ := stageStep_failed_err hs
      obtain ⟨x, rfl⟩ := stageStep_failed_inv hs
      exact ⟨0, st, e, rs, s, s1, _, rfl, rfl, ht, hf, he, hs, rfl, by simp [raise_busFail]⟩
    · obtain ⟨j, st', e, rs', u, v, w, hget, hdone, htick, hf, he, hfail, hdev, rfl⟩ := ih _ _ _ _ _ hrest
      have stage : k + (j + 1) = k + 1 + j := by omega
      refine ⟨j + 1, st', e, rs', u, v, w, hget, ?_, stage ▸ htick, hf, he, hfail, hdev, ?_⟩
      · rw [List.take_succ_cons, runStages_cons_ok ht hs, hdone]
      · rw [List.take_succ_cons, List.any_cons, ← Bool.or_assoc, stage]

/-! ### What an error leaves alone -/

/-- What R236 says an operation `i` from `s` that raised has left in `t`. -/
def LeftByError (i : Instr) (s t : State) : Prop :=
  t.handle = s.handle ∧ t.drv = s.drv ∧ t.fus = s.fus ∧ t.activity = .idle ∧
    t.res = { s.res with resByte := t.res.resByte } ∧ (i ≠ .getDeviceId → t.res = s.res)

/-- Raising leaves what the steps before it left, which is all of the sequencer's registers. -/
theorem SeqKept.leftByError {s u : State} (h : SeqKept s u) (i : Instr) (e : ErrKind) (k : Nat) (c : Option TErr) :
    LeftByError i s (raise e k c u) :=
  ⟨h.handle, h.drv, h.fus, rfl, by rw [raise_res, h.res], fun _ => h.res⟩

/-- The only end of a done step list that raises is GETDEVICEID's, on a mismatch, with RES_BYTE written (R145). -/
theorem finishOf_error {i : Instr} {s u : State} {rs : Reads} (hr : Runs i s)
    (h : (finishOf i rs u).status.code ≠ 0#4) : i = .getDeviceId ∧
      finishOf i rs u = raise .identityMismatch 2 none (u.setRes { u.res with resByte := readByteAt rs 0 }) := by
  have hu : usesBus i = true ∨ ∃ ms, i = .delay ms := hr.imp (fun ⟨hu, _, _⟩ => hu) id
  cases i
  case create => simp [usesBus] at hu
  case release => simp [usesBus] at hu
  case elevation => simp [usesBus] at hu
  case azimuth => simp [usesBus] at hu
  case getDeviceId =>
    refine ⟨rfl, finDeviceId_mismatch fun hm => h ?_⟩
    rw [finishOf, finDeviceId_match hm]
    rfl
  all_goals exact absurd rfl h

/-- Settles O25: a rejection, a failed step and GETDEVICEID's mismatch are the ways to raise, and before each only the
last has written a result register. -/
theorem errorsLeaveResultsAlone : Obligations.ErrorsLeaveResultsAlone := by
  intro i s t he
  refine exec_next_cases (R := fun t => t.status.code ≠ 0#4 → LeftByError i s t) he ?rejected
    (fun _ _ _ _ _ h => absurd rfl h) (fun _ _ h => absurd rfl h) (fun _ _ h => absurd rfl h)
    (fun _ _ h => absurd rfl h) fun hr => ⟨fun u rs hu hcode => ?mismatch, fun u hu _ => ?failed⟩
  case rejected => exact fun _ => (SeqKept.refl s).leftByError i _ _ _
  case mismatch =>
    obtain ⟨rfl, ends⟩ := finishOf_error hr hcode
    have kept := SeqKept.run.1 u rs hu
    rw [ends]
    exact ⟨kept.handle, kept.drv, kept.fus, rfl, by simp [kept.res], fun hne => absurd rfl hne⟩
  case failed =>
    obtain ⟨d, j, e, v, kept, rfl⟩ := SeqKept.run.2 u hu
    exact kept.leftByError i _ _ _

/-! ### Checks before any traffic -/

/-- The handle is the first check of every bus operation, before READAUX's and AUXINIT's admission (R130(1)). -/
theorem exec_without_handle {i : Instr} {s : State} (hu : usesBus i = true) (hv : s.handle.valid = false) :
    exec i s = .next (invalidArgument s) := by
  cases i
  case delay => cases hu
  case create => cases hu
  case release => cases hu
  case elevation => cases hu
  case azimuth => cases hu
  case readAux a n => exact (if_neg (by simp [hv])).trans (busOp_rejected (.inl hv))
  case auxInit => exact (if_neg (by simp [hv])).trans (busOp_rejected (.inl hv))
  all_goals exact busOp_rejected (.inl hv)

/-- Settles O19: the handle check comes first, and rejecting writes only `STATUS`. -/
theorem missingHandleIsRejected : Obligations.MissingHandleIsRejected := by
  refine fun i s => ⟨fun hv hi => ?missing, fun hv bus a hi => ?present⟩
  case missing =>
    rcases hi with hu | rfl
    · exact exec_without_handle hu hv
    · exact if_neg (by simp [hv])
  case present => subst hi; exact if_pos hv

/-- A byte above a bound fails the bound's check. -/
theorem decide_le_eq_false_of_lt {a b : Byte} (h : a < b) : decide (b ≤ a) = false :=
  decide_eq_false (BitVec.not_le.mpr h)

/-- SETDLPF's check rejects a sensor above 1 and a cutoff above 7. -/
theorem dlpfOk_eq_false {sensor cutoff : Byte} (h : 1#8 < sensor ∨ 7#8 < cutoff) : dlpfOk sensor cutoff = false := by
  rcases h with h | h <;> simp [dlpfOk, decide_le_eq_false_of_lt h]

/-- Settles O20: each operand out of range fails the operand check of its operation, and rejecting writes only
`STATUS`. -/
theorem illegalOperandsAreRejected : Obligations.IllegalOperandsAreRejected := by
  rintro s x y i (⟨-, ⟨hx, rfl | rfl | rfl⟩ | ⟨hx, rfl | rfl⟩ | ⟨hy, rfl⟩⟩ | ⟨hv, hy, rfl⟩)
  · exact exec_selectBank_rejected (.inr hx)
  · exact busOp_rejected (.inr (decide_le_eq_false_of_lt hx))
  · exact busOp_rejected (.inr (decide_le_eq_false_of_lt hx))
  · exact busOp_rejected (.inr (decide_le_eq_false_of_lt hx))
  · exact busOp_rejected (.inr (dlpfOk_eq_false (.inl hx)))
  · exact busOp_rejected (.inr (dlpfOk_eq_false (.inr hy)))
  · exact (if_neg (by simp [hv])).trans (if_neg (by simp [addr7Ok, decide_le_eq_false_of_lt hy]))

end Sys2Proof.Machine
end

section
/-! PROOF. Reset and the settle windows (70_reset_and_hazards.md): what block reset fixes (R263), what the device reset
fixes and keeps (R261), and what goes on inside the device window (R262). -/

namespace Sys2Proof.Machine

/-! ### Block reset -/

/-- After block reset no register is listed, so every one reads 0 (log 7). -/
theorem reg_resetFor (c : Config) (a : Nat) : (State.resetFor c).reg a = 0#8 := rfl

/-- Settles O7: the bits of registers among the values are those of 0. -/
theorem resetFixesTheStatedValues : Obligations.ResetFixesTheStatedValues := by
  refine fun c => ⟨rfl, rfl, rfl, rfl, rfl, ?engine, ?mstRst, ?devRst, reg_resetFor c aPT_CTRL, rfl, rfl, rfl⟩
  case engine => rw [State.mstEn, reg_resetFor]; decide
  case mstRst => rw [reg_resetFor]; decide
  case devRst => rw [reg_resetFor]; decide

/-- The device meets its part of the invariant after block reset: memory is empty and every register reads 0. -/
theorem devInv_resetFor (c : Config) : DevInv (State.resetFor c) where
  regsWf := rfl
  described := nofun
  magWf := rfl
  devRst := by rw [reg_resetFor]; decide
  mstRst := by rw [reg_resetFor]; decide
  channel := by rw [reg_resetFor]; decide

/-- The sequencer meets its part: it is idle, without a handle, in NoHandle. -/
theorem seqInv_resetFor (c : Config) : SeqInv (State.resetFor c) where
  idle := rfl
  addr8 := BitVec.getLsbD_zero
  drv := iff_of_true rfl rfl
  status := rfl

theorem inv_resetFor (c : Config) : (State.resetFor c).Inv := inv_of_parts (devInv_resetFor c) (seqInv_resetFor c)

/-- Settles O8: from the device's part and the sequencer's part; `State.reset` is the reset state of one
configuration. -/
theorem resetMeetsTheInvariant : Obligations.ResetMeetsTheInvariant := ⟨inv_resetFor _, inv_resetFor⟩

/-! ### The device window -/

/-- No tick may happen inside the device window. -/
theorem tickEnabled_of_devSettling {s : State} (h : s.dev.devSettling = true) : s.tickEnabled = false := by
  simp [State.tickEnabled, h]

/-- A select write inside the device window is refused. -/
theorem stageStep_select_settling {s : State} (h : s.dev.devSettling = true) (bank : Byte) (rs : Reads) :
    stageStep (selStage bank) rs s = .refused .settleWindow := by
  obtain ⟨window, -⟩ := transactionsNeedTheDevice oBANKSEL (selByte bank) 1 s
  obtain ⟨refused, -⟩ := window h
  rw [selStage, stageStep, refused]

/-- A refused step list is a refused operation. -/
theorem runOp_refused {op : Instr} {stages : List Stage} {fin : Reads → State → State} {s : State} {r : Refusal}
    (h : runStages op stages 1 false [] s = .refused r) : runOp op stages fin s = .refused r := by
  simp [runOp, h]

/-- A bus operation inside the device window: its first stage is a select write, before which nothing ticks. -/
theorem exec_bus_settling {i : Instr} {s : State} (h : s.dev.devSettling = true) (hv : s.handle.valid = true)
    (hu : usesBus i = true) (ha : admitted s.cfg i = true) : exec i s = .refused .settleWindow := by
  obtain ⟨bank, rest, stages⟩ := stagesOf_eq_select s.cfg hu
  have inside : (s.setActivity (.busy i 1)).dev.devSettling = true := h
  have quiet := tickPoint_off (tickEnabled_of_devSettling inside)
  rw [exec_eq_runOp hu ha hv, stages]
  exact runOp_refused (runStages_cons_refused quiet (stageStep_select_settling inside bank []))

/-- With the engine off a delay only closes windows. -/
theorem stageStep_delay_off {ms : Nat} {rs : Reads} {s : State} (off : s.tickEnabled = false) :
    stageStep (.delay ms) rs s = .ok rs (closeWindows ms s) := by
  simp [stageStep, delayStep, off]

theorem exec_delay_off {ms : BitVec 16} {s : State} (off : s.tickEnabled = false) : exec (.delay ms) s =
    .next (complete id (closeWindows ms.toNat (s.setActivity (.busy (.delay ms) 1)))) := by
  have quiet : (s.setActivity (.busy (.delay ms) 1)).tickEnabled = false := off
  exact runOp_done (runStages_cons_ok (tickPoint_off quiet) (stageStep_delay_off quiet))

/-- CREATE makes a handle or is rejected. -/
theorem exec_create_next (bus addr7 : Byte) (s : State) : ∃ t, exec (.create bus addr7) s = .next t := by
  obtain ⟨legal, illegal⟩ := createMakesTheHandle bus addr7 s
  by_cases h : s.handle.valid = false ∧ addr7 ≤ 0x7F#8
  · exact (legal h.1 h.2).imp fun _ made => made.1
  · have rejects : s.handle.valid = true ∨ 0x7F#8 < addr7 := by
      rwa [not_and_or, Bool.not_eq_false, BitVec.not_le] at h
    exact ⟨_, illegal rejects⟩

/-- RELEASE gives the handle back or is rejected. -/
theorem exec_release_next (s : State) : ∃ t, exec .release s = .next t := by
  obtain ⟨held, missing⟩ := releaseDestroysTheHandle s
  cases hv : s.handle.valid with
  | true => exact (held hv).imp fun _ released => released.1
  | false => exact ⟨_, missing hv⟩

/-- The operations without transactions end in a next state: only DELAY has ticks that could be refused, and not with
the engine off. -/
theorem exec_noBus_next {i : Instr} {s : State} (hu : usesBus i = false) (off : s.tickEnabled = false) :
    ∃ t, exec i s = .next t := by
  cases i
  case delay ms => exact ⟨_, exec_delay_off off⟩
  case create bus addr7 => exact exec_create_next bus addr7 s
  case release => exact exec_release_next s
  case elevation => exact ⟨_, exec_elevation s⟩
  case azimuth => exact ⟨_, exec_azimuth s⟩
  all_goals cases hu

/-- Settles O22: a bus operation's first stage is a refused transaction; the others have no transaction, and with the
engine off no tick that could be refused. -/
theorem settleWindowRefusesTheBus : Obligations.SettleWindowRefusesTheBus := fun _ _ h =>
  have off := tickEnabled_of_devSettling h
  ⟨exec_bus_settling h, fun hu => exec_noBus_next hu off, off⟩

/-! ### Device reset -/

/-- A device reset leaves register memory canonical and both reset bits 0, whatever bytes are drawn. -/
theorem deviceReset_regs {s : State} (w : Memory.wf s.dev.regs = true) : Memory.wf (deviceReset s).dev.regs = true ∧
    ((deviceReset s).reg aMSTCTL).getLsbD 1 = false ∧ ((deviceReset s).reg aPWR).getLsbD 7 = false := by
  obtain ⟨drawn, hregs, hwf, -, -⟩ := reg_deviceReset w
  refine ⟨hregs ▸ wf_resetRegs hwf, ?mstRst, ?devRst⟩
  case mstRst =>
    rw [State.reg, hregs, get_resetRegs hwf, if_neg (by decide), if_neg (by decide), if_pos rfl]
    exact getLsbD_one_and_DD _
  case devRst =>
    rw [State.reg, hregs, get_resetRegs hwf, if_neg (by decide), if_pos rfl]
    exact getLsbD_seven_and_7F _

/-- Settles O56: the registers it fixes, those it leaves, and the open window, in which nothing ticks; the sequencer, the
target and the history are not in the device. -/
theorem deviceResetEffects : Obligations.DeviceResetEffects := by
  intro s w
  obtain ⟨wf, mstRst, devRst⟩ := deviceReset_regs w
  obtain ⟨disabled, channel⟩ := deviceReset_off w
  have window : (deviceReset s).dev.devSettling = true := rfl
  exact ⟨wf, disabled, mstRst, devRst, channel, rfl, window, rfl, tickEnabled_of_devSettling window, rfl, rfl, rfl, rfl,
    rfl, fun _ ha => reg_deviceReset_other w ha⟩

end Sys2Proof.Machine
end

section
/-! PROOF. Refusals before the first stage: a READAUX length that is not admitted (42_aux_bridge.md R171) and a clashing
`LP_CONFIG_OFFSET` (10_state.md R36). -/

namespace Sys2Proof.Machine

/-- A length outside 1..8 is not admitted. -/
theorem auxLenOk_eq_false {n : Byte} (h : n < 1#8 ∨ 8#8 < n) : auxLenOk n = false := by
  rcases h with h | h <;> simp only [auxLenOk, decide_le_eq_false_of_lt h, Bool.false_and, Bool.and_false]

/-- With a handle, READAUX tests its length before its step list. -/
theorem exec_readAux_refused {r n : Byte} {s : State} (hv : s.handle.valid = true) (hn : auxLenOk n = false) :
    exec (.readAux r n) s = .refused .readAuxLength := if_pos (by simp [hv, hn])

/-- With a handle, AUXINIT tests `LP_CONFIG_OFFSET` before its step list. -/
theorem exec_auxInit_refused {s : State} (hv : s.handle.valid = true) (clash : lpOffsetOk s.cfg = false) :
    exec .auxInit s = .refused .lpOffsetClash := if_pos (by simp [hv, clash])

/-- Settles O21: with a handle the admission test is the next check, and what fails it is refused. -/
theorem unadmittedOperandsAreRefused : Obligations.UnadmittedOperandsAreRefused := fun _ _ _ hv =>
  ⟨fun hn => exec_readAux_refused hv (auxLenOk_eq_false hn), exec_auxInit_refused hv⟩

end Sys2Proof.Machine
end
